-- ==== Sys2Proof/Word.lean ====
section
/-! DEFINITION. The words of the TR-RX block: bytes, byte strings, and the named widths of
spec/00_scope.md rules R10 and R11. -/

namespace Sys2Proof

/-- A byte (R11), also a field symbol (R13). -/
abbrev Byte := BitVec 8

/-- A byte string (R11): the first byte on the wire is the head. -/
abbrev Bytes := List Byte

/-- A 16-bit sequence number (R10). -/
abbrev Seq := BitVec 16

/-- A 32-bit word: timestamps, source identifiers, counters, group ids (R10). -/
abbrev W32 := BitVec 32

/-- A matrix over the field, row first (R13). -/
abbrev Matrix8 := List (List Byte)

end Sys2Proof
end

