-- ==== Sys2Proof/Machine/Bytes.lean ====
section
/-! DEFINITION. Byte strings: the big-endian reads and writes and the padding of
spec/00_scope.md rule R11 and spec/20_memory.md rule R63. -/

namespace Sys2Proof

/-- Byte `i` of a byte string. Every caller has tested that `i` lies inside it. -/
def byteAt (B : Bytes) (i : Nat) : Byte := B.getD i 0

/-- `be16(B, i)` (R11). -/
def be16 (B : Bytes) (i : Nat) : BitVec 16 := byteAt B i ++ byteAt B (i + 1)

/-- `be32(B, i)` (R11). -/
def be32 (B : Bytes) (i : Nat) : BitVec 32 :=
  byteAt B i ++ byteAt B (i + 1) ++ byteAt B (i + 2) ++ byteAt B (i + 3)

/-- The two bytes of a 16-bit number, most significant first (R63). -/
def toBe16 (v : BitVec 16) : Bytes := [v.extractLsb' 8 8, v.extractLsb' 0 8]

/-- The four bytes of a 32-bit word, most significant first (R63, R80). -/
def toBe32 (v : BitVec 32) : Bytes :=
  [v.extractLsb' 24 8, v.extractLsb' 16 8, v.extractLsb' 8 8, v.extractLsb' 0 8]

/-- A 16-bit count or length field. -/
def len16 {α : Type} (l : List α) : BitVec 16 := BitVec.ofNat 16 l.length

/-- `zeros(m)` (R11). -/
def zeros (m : Nat) : Bytes := List.replicate m 0

/-- `pad(B, m)` (R11), the padding byte being 0x00 (R237). -/
def pad (B : Bytes) (m : Nat) : Bytes := B ++ zeros (m - B.length)

/-- `B[i..j)` (R11). -/
def slice (B : Bytes) (i j : Nat) : Bytes := (B.drop i).take (j - i)

/-- `cnt` 16-bit numbers, big-endian, from offset 0 (R88 to R90). -/
def readList16 : Nat → Bytes → List (BitVec 16)
  | 0, _ => []
  | cnt + 1, B => be16 B 0 :: readList16 cnt (B.drop 2)

/-- `rows` rows of `blen` bytes each, row 0 first (R88, R90). -/
def readRows : Nat → Nat → Bytes → List Bytes
  | 0, _, _ => []
  | rows + 1, blen, B => B.take blen :: readRows rows blen (B.drop blen)

end Sys2Proof
end

