-- ==== Sys2Proof/Config.lean ====
section
/-! DEFINITION. What an implementation fixes and what the spec leaves open: the field parameters as a
type, MAX_LEN, and the free values (opaque, no body). spec/00_scope.md rule R9,
spec/93_implementation_defined.md U1, U2, U3, U25. -/

namespace Sys2Proof

/-- The open parameters of the field (R9): all that the four tables depend on (R24). -/
structure GfField where
  /-- `GF_POLY`, a 9-bit polynomial. -/
  poly : BitVec 9
  /-- `GF_ALPHA`, the generator of the exponentiation table. -/
  alpha : Byte
deriving DecidableEq, Repr

/-- The open parameters of the field and the code (R9). Every engine function takes them as an
argument. -/
structure GfParams where
  /-- `GF_POLY` and `GF_ALPHA`. -/
  field : GfField
  /-- `XPT(i)`, the evaluation point of block index `i`, for `0 ≤ i ≤ 255`. -/
  xpt : Nat → Byte

/-- The parameters of a machine (R9, R38): arguments of the model, fixed for a run, no state. The two
open functions of the datagram chain are in Machine/Pipe.lean, `MCACHE_CAP` has no effect (R50). -/
structure Params where
  /-- `GF_POLY`, `GF_ALPHA` and `XPT` -/
  gf : GfParams
  /-- `MAX_LEN`: the longest datagram, payload and block the block accepts -/
  maxLen : Nat

/-- The default of `MAX_LEN` (R9). DESIGN CHOICE (the spec's own, 92 D4); log 11. unsafe -/
def Config.maxLen : Nat := 65535

/-- FREE VALUE: what `LOG[0]` holds after GF.INIT (R122, U2). No rule reads it; log 8. safe -/
opaque Config.log0 : Byte

/-- FREE VALUE: what `INV[0]` holds after GF.INIT, and `ginv(0x00)` (R126, U2, U3). No rule reads
either; log 8. safe -/
opaque Config.inv0 : Byte

/-- FREE VALUE: `gdiv(a, 0)`, which R126 does not define (U3). No rule evaluates it; log 8. safe -/
opaque Config.div0 (a : Byte) : Byte

/-- FREE VALUE: entry `i` of table `t` (0 `EXP`, 1 `LOG`, 2 `INV`, 3 and up the rows of `MUL`) before
GF.INIT, which R24 and R54 leave unspecified (U23). No rule reads it; log 7. safe -/
opaque Config.unbuiltEntry (t i : Nat) : Byte

/-- FREE VALUE: what a `w`-bit length or count field of a binary output record holds when the
number `n` it should hold does not fit (R99 gives the width, no bound on the list); log 15. safe -/
opaque Config.freeLenField (w n : Nat) : BitVec w

end Sys2Proof
end

