-- ==== Sys2Proof/Syntax.lean ====
section
/-! DEFINITION. The command set, one constructor per row of spec/opcode_table.json
(spec/30_encoding.md rule R83), and the `Packet` record of spec/00_scope.md rule R15. A count field
of an encoding (`cnt`, `rows`, `len`, `plen`) is the length of the list it counts. -/

namespace Sys2Proof

/-- `Packet` (R15): an RTP packet after parsing, immutable. -/
structure Packet where
  /-- version, 2 bits -/
  v : BitVec 2
  /-- padding flag -/
  p : Bool
  /-- extension flag -/
  x : Bool
  /-- CSRC count, 4 bits -/
  cc : BitVec 4
  /-- marker bit -/
  m : Bool
  /-- payload type, 7 bits -/
  pt : BitVec 7
  /-- sequence number -/
  seq : Seq
  /-- timestamp -/
  ts : W32
  /-- source identifier -/
  ssrc : W32
  /-- payload bytes -/
  payload : Bytes
deriving DecidableEq, Repr

/-- The sixteen commands (R83). -/
inductive Instr where
  /-- GF.INIT (R128), format Z -/
  | gfInit
  /-- ECE.NEWMATRIX k, n (R145), format M -/
  | eceNewmatrix (k n : BitVec 9)
  /-- ECE.ENCODE k, n, blen, blocks, rows (R150), format E -/
  | eceEncode (k n : BitVec 9) (blen : BitVec 16) (blocks : List (BitVec 16)) (rows : List Bytes)
  /-- ECE.BUILDDEC k, n, idx (R155), format B -/
  | eceBuilddec (k n : BitVec 9) (idx : List (BitVec 16))
  /-- ECE.DECODE k, n, blen, idx, rows (R159), format D -/
  | eceDecode (k n : BitVec 9) (blen : BitVec 16) (idx : List (BitVec 16)) (rows : List Bytes)
  /-- RTP.PARSE datagram (R170), format P -/
  | rtpParse (datagram : Bytes)
  /-- ROB.ACCEPT pkt, arrival (R187), format A -/
  | robAccept (pkt : Packet) (arrival : W32)
  /-- ROB.TIMER (R199), format Z -/
  | robTimer
  /-- ROB.RESTART (R208), format Z -/
  | robRestart
  /-- GRP.ADD gid, index, k, n, payload (R220), format G -/
  | grpAdd (gid : W32) (index : BitVec 16) (k n : BitVec 8) (payload : Bytes)
  /-- GRP.EXPIRE gid (R229), format X -/
  | grpExpire (gid : W32)
  /-- DEP.PACKET seq, ts, m, payload (R250), format H -/
  | depPacket (seq : Seq) (ts : W32) (m : Bool) (payload : Bytes)
  /-- CSR.RD reg (R286), format R -/
  | csrRd (reg : BitVec 8)
  /-- CSR.WR reg, value (R287), format W -/
  | csrWr (reg : BitVec 8) (value : W32)
  /-- SYS.TEARDOWN (R290), format Z -/
  | sysTeardown
  /-- SYS.RESET (R289), format Z -/
  | sysReset
deriving DecidableEq, Repr

end Sys2Proof
end

