-- ==== Sys2Proof/Machine/State.lean ====
section
/-! DEFINITION. The state of the block as plain data (spec/10_state.md), the status codes and output
records it emits (spec/60_exceptions.md R300, spec/20_memory.md R66), and its reset (R54). -/

namespace Sys2Proof.Machine

/-- The status a command ends with (R300); the 8-bit numbers are `Status.code`. -/
inductive Status where
  | ok
  | eRtpShort | eRtpVersion | eRtpHdrlen | eRtpPayload
  | eStapTrunc | eFuaShort | eNalType | eFuaOrphan | eFuaTs
  | eMeta
  | sLate | sNotArmed | sInsufficient
  | eKn | eNoinit | eRows | eIndex | eSingular
  | eIllegal | eLength | eFaulted | eCsr | eOperand
deriving DecidableEq, Repr

/-- The unit named in a `Drop` record (R99). -/
inductive DropUnit where
  | rtp | rob | grp | dep
deriving DecidableEq, Repr

/-- The tag of a group's emission (R15, R99). -/
inductive Tag where
  | recovered | notRecovered
deriving DecidableEq, Repr

/-- Why a group was flushed (R99): the count reached k, expiry, eviction. -/
inductive Cause where
  | countReached | expiry | eviction
deriving DecidableEq, Repr

/-- `GroupBlock` (R15): one block emitted by GRP. -/
structure GroupBlock where
  gid : W32
  index : BitVec 8
  tag : Tag
  origLen : BitVec 16
  data : Bytes
deriving DecidableEq, Repr

/-- The header fields and the payload range an RTP datagram parses to (R170, R173, R180). -/
structure ParsedRtp where
  v : BitVec 2
  p : Bool
  x : Bool
  cc : BitVec 4
  m : Bool
  pt : BitVec 7
  seq : Seq
  ts : W32
  ssrc : W32
  payloadOff : BitVec 16
  payloadLen : BitVec 16
deriving DecidableEq, Repr

/-- The output records (R66, R99). -/
inductive Record where
  | done (opcode : Byte) (status : Status)
  | parsed (h : ParsedRtp)
  | matrix (k n : BitVec 9) (parity : Matrix8)
  | rows (count blen : BitVec 16) (numbers : List (BitVec 16)) (rows : List Bytes)
  | decMatrix (k : BitVec 9) (mat : Matrix8)
  | robEmit (pkt : Packet) (arrival : W32)
  | robLate (seq behind : BitVec 16)
  | robSkip (oldExpected newExpected : BitVec 16)
  | groupBlock (b : GroupBlock)
  | groupDone (gid : W32) (k n received : BitVec 8) (tag : Tag) (cause : Cause) (why : Status)
  | nal (ts : W32) (bytes : Bytes)
  | discontinuity (lastSeq seq gap : BitVec 16)
  | accessUnit (ts : W32) (keyframe hasParamSets : Bool) (nals : List Bytes)
  | drop (unit : DropUnit) (code : Status)
  | csrValue (reg : BitVec 8) (value : W32)
deriving DecidableEq, Repr

/-- The four tables (R24), as plain data: what they hold is determined by the field they were built
for (R121 to R123), so that is what is stored; the tables themselves are the views `expOf`, `logOf`,
`invOf`, `mulOf` of Machine/Gf.lean. DEDUCED, log 9. -/
inductive GfTables where
  /-- not built since reset: contents unspecified (R24, R54) -/
  | unbuilt
  /-- built by GF.INIT for this field -/
  | built (field : GfField)
deriving DecidableEq, Repr

/-- The GF unit (R24, R25). -/
structure GfUnit where
  /-- `gf_ready` -/
  gfReady : Bool
  /-- `EXP`, `LOG`, `INV`, `MUL` -/
  tables : GfTables
deriving DecidableEq, Repr

/-- A buffered packet with its arrival time (R28). -/
structure RobEntry where
  pkt : Packet
  arrival : W32
deriving DecidableEq, Repr

/-- The reorder buffer (R28, R29). `buf` is a partial map: keys strictly rising. -/
structure Rob where
  /-- `rob_started` -/
  started : Bool
  /-- `expected` -/
  expected : Seq
  /-- `buf` -/
  buf : List (BitVec 16 × RobEntry)
  /-- `rob_timer` -/
  timer : Bool
  /-- `highest` -/
  highest : Seq
  /-- `received` -/
  received : W32
  /-- `lost` -/
  lost : W32
  /-- `bytes` -/
  bytes : W32
  /-- `jitter_q4` -/
  jitterQ4 : W32
  /-- `jit_valid` -/
  jitValid : Bool
  /-- `prev_transit` -/
  prevTransit : W32
  /-- `late_dropped` -/
  lateDropped : W32
deriving DecidableEq, Repr

/-- A group record (R31). `blocks` is a partial map: keys strictly rising. Its expiry timer is armed
exactly while the record exists. -/
structure Group where
  gid : W32
  k : BitVec 8
  n : BitVec 8
  blocks : List (BitVec 16 × Bytes)
  maxlen : BitVec 16
deriving DecidableEq, Repr

/-- The group assembler (R31): records in creation order, oldest first, and two counters. -/
structure Grp where
  groups : List Group
  /-- `fec_recovered` -/
  fecRecovered : W32
  /-- `fec_failed` -/
  fecFailed : W32
deriving DecidableEq, Repr

/-- The depacketizer (R33, R34). -/
structure Dep where
  /-- `dep_started` -/
  started : Bool
  /-- `last_seq` -/
  lastSeq : Seq
  /-- `fu_active` -/
  fuActive : Bool
  /-- `fu_ts` -/
  fuTs : W32
  /-- `fu_buf` -/
  fuBuf : Bytes
  /-- `au_open` -/
  auOpen : Bool
  /-- `au_ts` -/
  auTs : W32
  /-- `au_nals` -/
  auNals : List Bytes
  /-- `au_key` -/
  auKey : Bool
  /-- `au_sps` -/
  auSps : Bool
  /-- `au_pps` -/
  auPps : Bool
  /-- `dep_malformed` -/
  malformed : W32
  /-- `dep_discont` -/
  discont : W32
deriving DecidableEq, Repr

/-- The configuration registers, CSR 0x00 to 0x07 (R40). -/
structure Csr where
  lateThreshold : BitVec 16
  robWindow : BitVec 16
  robFlushDelayMs : BitVec 16
  grpMaxGroups : BitVec 16
  grpExpiryMs : BitVec 16
  restartGap : BitVec 16
  fuGapThreshold : BitVec 16
  clockRateHz : BitVec 32
deriving DecidableEq, Repr

/-- The state of the block (R20), and the command port the host feeds. -/
structure State where
  gf : GfUnit
  rob : Rob
  grp : Grp
  dep : Dep
  /-- `rtp_malformed` (R27) -/
  rtpMalformed : W32
  /-- `fatal` (R36) -/
  fatal : Bool
  /-- `last_status` (R36) -/
  lastStatus : BitVec 8
  /-- configuration registers (R40) -/
  csr : Csr
  /-- `OQ` (R37): the head is the oldest record -/
  oq : List Record
  /-- The MODEL's own: command bytes offered and not yet consumed (R21, R80). DESIGN CHOICE, log 1. -/
  port : Bytes
  /-- The MODEL's own: the stream ends after `port` (R98 (a)). DESIGN CHOICE, log 1. -/
  portEnd : Bool
deriving DecidableEq, Repr

/-- Reasons for a fault. There are none: every command in every state has a defined outcome
(93_implementation_defined.md part 1, `stuck`: used nowhere). -/
inductive Fault where
deriving DecidableEq, Repr

/-- Reasons for a refusal. -/
inductive Refusal where
  /-- Raised by `exec`'s arm of an instruction that has no meaning yet; by no arm now. safe -/
  | notModelled (mnemonic : String)
deriving DecidableEq, Repr

/-- The GF unit after reset (R54): the tables' contents are unspecified. -/
def GfUnit.reset : GfUnit := { gfReady := false, tables := .unbuilt }

/-- The reorder buffer after reset (R54). -/
def Rob.reset : Rob :=
  { started := false, expected := 0, buf := [], timer := false, highest := 0, received := 0
    lost := 0, bytes := 0, jitterQ4 := 0, jitValid := false, prevTransit := 0, lateDropped := 0 }

/-- The group assembler after reset (R54). -/
def Grp.reset : Grp := { groups := [], fecRecovered := 0, fecFailed := 0 }

/-- The depacketizer after reset (R54). -/
def Dep.reset : Dep :=
  { started := false, lastSeq := 0, fuActive := false, fuTs := 0, fuBuf := [], auOpen := false
    auTs := 0, auNals := [], auKey := false, auSps := false, auPps := false, malformed := 0
    discont := 0 }

/-- The configuration registers after reset (R40). -/
def Csr.reset : Csr :=
  { lateThreshold := 10, robWindow := 20, robFlushDelayMs := 10, grpMaxGroups := 6
    grpExpiryMs := 24, restartGap := 100, fuGapThreshold := 5, clockRateHz := 90000 }

/-- The machine right after reset (R54, R340, R341): the block waits for its first command. -/
def State.reset : State :=
  { gf := GfUnit.reset
    rob := Rob.reset
    grp := Grp.reset
    dep := Dep.reset
    rtpMalformed := 0
    fatal := false
    lastStatus := 0x00
    csr := Csr.reset
    oq := []
    port := []
    portEnd := false }

end Sys2Proof.Machine
end

