-- ==== Sys2Proof/Machine/Ops.lean ====
section
/-! DEFINITION. The operations every command uses: status numbers, `emit`, the end of a command and
its rejection, counters, and the keyed stores (spec/60_exceptions.md R300, R312;
spec/20_memory.md R66; spec/00_scope.md R14). -/

namespace Sys2Proof.Machine

/-- The 8-bit status codes (R300). -/
def Status.code : Status → BitVec 8
  | .ok => 0x00
  | .eRtpShort => 0x01
  | .eRtpVersion => 0x02
  | .eRtpHdrlen => 0x03
  | .eRtpPayload => 0x04
  | .eStapTrunc => 0x05
  | .eFuaShort => 0x06
  | .eNalType => 0x07
  | .eFuaOrphan => 0x08
  | .eFuaTs => 0x09
  | .eMeta => 0x0A
  | .sLate => 0x10
  | .sNotArmed => 0x11
  | .sInsufficient => 0x12
  | .eKn => 0x20
  | .eNoinit => 0x21
  | .eRows => 0x22
  | .eIndex => 0x23
  | .eSingular => 0x24
  | .eIllegal => 0x30
  | .eLength => 0x31
  | .eFaulted => 0x32
  | .eCsr => 0x33
  | .eOperand => 0x34

/-- `emit` (R14, R66): append records to OQ in order. -/
def emitAll (recs : List Record) (s : State) : State := { s with oq := s.oq ++ recs }

/-- The end of a command (R36, R300): `last_status` and the closing `Done` record. -/
def finish (opcode : Byte) (st : Status) (s : State) : State :=
  emitAll [.done opcode st] { s with lastStatus := st.code }

/-- TAKING AN EXCEPTION: `reject` (R14, R300, R312). A rejected command saves nothing and transfers
control nowhere: its whole effect is `last_status` and its `Done` record, on top of the state changes
its rule has listed before. There is no return from it (R313). -/
def reject (opcode : Byte) (st : Status) (s : State) : State := finish opcode st s

/-- The test every command but CSR.RD and SYS.RESET makes first (R308): while `fatal = 1` the command
is rejected with E_FAULTED. -/
def unlessFatal (opcode : Byte) (body : State → State) (s : State) : State :=
  if s.fatal then reject opcode .eFaulted s else body s

/-- The value at a key of a keyed store, if the key is present. -/
def kvGet {α : Type} (k : BitVec 16) : List (BitVec 16 × α) → Option α
  | [] => none
  | (k', v) :: m => if k' = k then some v else kvGet k m

/-- `m[k] <- v`: insert, or replace the entry that is there (R190, R225). Keeps the keys rising. -/
def kvPut {α : Type} (k : BitVec 16) (v : α) : List (BitVec 16 × α) → List (BitVec 16 × α)
  | [] => [(k, v)]
  | (k', v') :: m =>
    if k < k' then (k, v) :: (k', v') :: m
    else if k' = k then (k, v) :: m
    else (k', v') :: kvPut k v m

/-- `remove key k` (R193). -/
def kvDel {α : Type} (k : BitVec 16) (m : List (BitVec 16 × α)) : List (BitVec 16 × α) :=
  m.filter (fun e => e.1 ≠ k)

/-- The key is present. -/
def kvHas {α : Type} (k : BitVec 16) (m : List (BitVec 16 × α)) : Bool := (kvGet k m).isSome

/-- The canonical form of a keyed store: strictly rising keys. -/
abbrev KvSorted {α : Type} (m : List (BitVec 16 × α)) : Prop :=
  m.Pairwise (fun a b => a.1 < b.1)

end Sys2Proof.Machine
end

