-- ==== Sys2Proof/Machine/Flags.lean ====
section
/-! DEFINITION. The flag word STATUS (spec/10_state.md R42) and the flags computed at the end of a
procedure (R23). -/

namespace Sys2Proof.Machine

/-- STATUS, CSR 0x10 (R42): bit 0 `gf_ready`, 1 `fatal`, 2 `rob_started`, 3 `rob_timer`,
4 `dep_started`, 5 `fu_active`, 6 `au_open`, 7 `jit_valid`, bits 31:8 zero. -/
def statusWord (s : State) : W32 :=
  0#24 ++ BitVec.ofBool s.rob.jitValid ++ BitVec.ofBool s.dep.auOpen ++ BitVec.ofBool s.dep.fuActive
    ++ BitVec.ofBool s.dep.started ++ BitVec.ofBool s.rob.timer ++ BitVec.ofBool s.rob.started
    ++ BitVec.ofBool s.fatal ++ BitVec.ofBool s.gf.gfReady

/-- `rob_timer <- (1 if |buf| > 0 else 0)` (R198). -/
def rearm (r : Rob) : Rob := { r with timer := !r.buf.isEmpty }

/-- The three NAL flags of the open access unit after a NAL of type `t` (R268, R273). -/
def noteNalType (t : Nat) (d : Dep) : Dep :=
  { d with
    auKey := d.auKey || t == 5
    auSps := d.auSps || t == 7
    auPps := d.auPps || t == 8 }

end Sys2Proof.Machine
end

