-- ==== Sys2Proof/Machine/Operands.lean ====
section
/-! DEFINITION. How operands are read: cyclic sequence arithmetic (spec/00_scope.md R12, R18), validity
of (k, n) (spec/41_erasure_engine.md R141), and the NAL header byte (spec/30_encoding.md R106, R109). -/

namespace Sys2Proof.Machine

/-- `sdist(a, b) = (a - b) mod 65536` (R12). -/
def sdist (a b : Seq) : Nat := (a - b).toNat

/-- `newer(a, b)` (R12): `0 < sdist(a, b) < 32768`. -/
def newer (a b : Seq) : Bool := 0 < sdist a b && sdist a b < 32768

/-- `ValidKN(k, n)` (R141): `1 ≤ k ≤ n ≤ 256`. -/
def validKN (k n : Nat) : Bool := 1 ≤ k && k ≤ n && n ≤ 256

/-- The NAL type in the low 5 bits of a byte (R106, R253). -/
def nalType (h : Byte) : Nat := (h.extractLsb' 0 5).toNat

/-- The reconstructed NAL header of a fragmented unit (R109): the indicator's top 3 bits, the
fragment header's low 5. -/
def fuHeader (ind fh : Byte) : Byte := (ind &&& 0xE0) ||| (fh &&& 0x1F)

/-- The start flag of a fragment header (R109): bit 7. -/
def fuStart (fh : Byte) : Bool := fh.getLsbD 7

/-- The end flag of a fragment header (R109): bit 6. -/
def fuEnd (fh : Byte) : Bool := fh.getLsbD 6

end Sys2Proof.Machine
end

