-- ==== Sys2Proof/Machine/Depacket.lean ====
section
/-! DEFINITION. The H.264 depacketizer (spec/45_depacketizer.md R250 to R278). A procedure that emits
works on the unit's state with the records emitted so far. -/

namespace Sys2Proof.Machine

/-- The depacketizer with the records a command has emitted so far, in order. -/
abbrev DepOut := Dep × List Record

/-- CloseAU (R272). -/
def closeAu (x : DepOut) : DepOut :=
  ({ x.1 with auOpen := false, auNals := [], auKey := false, auSps := false, auPps := false },
    x.2 ++ [.accessUnit x.1.auTs x.1.auKey (x.1.auSps && x.1.auPps) x.1.auNals])

/-- The open of AddNal (R268): a new, empty access unit when none is open. -/
def openAu (ts : W32) (d : Dep) : Dep :=
  if d.auOpen then d
  else { d with
    auOpen := true, auTs := ts, auNals := [], auKey := false, auSps := false, auPps := false }

/-- The timestamp boundary of AddNal (R268, R270). -/
def boundaryByTs (ts : W32) (x : DepOut) : DepOut :=
  if x.1.auOpen = true ∧ x.1.auTs ≠ ts then closeAu x else x

/-- AddNal(ts, bytes) (R268). -/
def addNal (ts : W32) (bytes : Bytes) (x : DepOut) : DepOut :=
  let y := boundaryByTs ts x
  let d := openAu ts y.1
  (noteNalType (nalType (byteAt bytes 0)) { d with auNals := d.auNals ++ [bytes] },
    y.2 ++ [.nal ts bytes])

/-- StapA (R259, R260) from the bytes after the header, `fuel` entries at most: each entry takes two
bytes or more. -/
def stapLoop (ts : W32) : Nat → Bytes → DepOut → DepOut × Status
  | 0, _, x => (x, .ok)
  | fuel + 1, B, x =>
    if B = [] then (x, .ok)
    else if B.length < 2 then (x, .eStapTrunc)
    else if (B.drop 2).length < (be16 B 0).toNat then (x, .eStapTrunc)
    else
      stapLoop ts fuel ((B.drop 2).drop (be16 B 0).toNat)
        (if (be16 B 0).toNat = 0 then x else addNal ts ((B.drop 2).take (be16 B 0).toNat) x)

/-- StapA(ts, payload) (R259). -/
def stapA (ts : W32) (payload : Bytes) (x : DepOut) : DepOut × Status :=
  stapLoop ts payload.length (payload.drop 1) x

/-- The accumulation is discarded (R257, R265) or cleared (R266). -/
def clearFu (d : Dep) : Dep := { d with fuActive := false, fuBuf := [] }

/-- The end of a fragmented unit (R266), when the end flag is set. -/
def fuFinish (fh : Byte) (x : DepOut) : DepOut :=
  if fuEnd fh then
    let y := addNal x.1.fuTs x.1.fuBuf x
    (clearFu y.1, y.2)
  else x

/-- FuA(ts, payload) (R262 to R266). -/
def fuA (ts : W32) (payload : Bytes) (x : DepOut) : DepOut × Status :=
  if payload.length < 2 then (x, .eFuaShort)
  else if fuStart (byteAt payload 1) then
    (fuFinish (byteAt payload 1)
      ({ x.1 with
          fuActive := true
          fuTs := ts
          fuBuf := fuHeader (byteAt payload 0) (byteAt payload 1) :: payload.drop 2 }, x.2), .ok)
  else if x.1.fuActive = false then (x, .eFuaOrphan)
  else if ts ≠ x.1.fuTs then ((clearFu x.1, x.2), .eFuaTs)
  else
    (fuFinish (byteAt payload 1) ({ x.1 with fuBuf := x.1.fuBuf ++ payload.drop 2 }, x.2), .ok)

/-- The minimum forward or backward gap (R256). -/
def seqGap (lastSeq seq : Seq) : Nat := min (sdist seq lastSeq) (sdist lastSeq seq)

/-- A discontinuity (R256): the packet is not the one after `last_seq`. -/
def isDiscontinuity (seq : Seq) (d : Dep) : Bool := d.started && seq != d.lastSeq + 1

/-- CheckSeq(seq) (R256, R257). -/
def checkSeq (fuGapThreshold : BitVec 16) (seq : Seq) (x : DepOut) : DepOut :=
  let y : DepOut :=
    if isDiscontinuity seq x.1 then
      let d := { x.1 with discont := x.1.discont + 1 }
      (if fuGapThreshold.toNat < seqGap x.1.lastSeq seq then clearFu d else d,
        x.2 ++ [.discontinuity x.1.lastSeq seq (BitVec.ofNat 16 (seqGap x.1.lastSeq seq))])
    else x
  ({ y.1 with started := true, lastSeq := seq }, y.2)

/-- The dispatch on the first payload byte's low 5 bits (R250, R253, R254). -/
def dispatchNal (ts : W32) (payload : Bytes) (x : DepOut) : DepOut × Status :=
  let t := nalType (byteAt payload 0)
  if 1 ≤ t ∧ t ≤ 23 then (addNal ts payload x, .ok)
  else if t = 24 then stapA ts payload x
  else if t = 28 then fuA ts payload x
  else (x, .eNalType)

/-- Malformed input is counted and reported (R250). -/
def noteMalformed (y : DepOut × Status) : DepOut :=
  if y.2 = .ok then y.1
  else ({ y.1.1 with malformed := y.1.1.malformed + 1 }, y.1.2 ++ [.drop .dep y.2])

/-- The marker closes the open access unit (R271). -/
def markerClose (m : Bool) (x : DepOut) : DepOut :=
  if m = true ∧ x.1.auOpen = true then closeAu x else x

/-- DEP.PACKET after the operand tests, on the unit (R250): sequence check, dispatch, marker. -/
def depStep (fuGapThreshold : BitVec 16) (seq : Seq) (ts : W32) (m : Bool) (payload : Bytes)
    (d : Dep) : DepOut × Status :=
  let y := dispatchNal ts payload (checkSeq fuGapThreshold seq (d, []))
  (markerClose m (noteMalformed y), y.2)

/-- DEP.PACKET after the operand tests (R250). -/
def depacketize (seq : Seq) (ts : W32) (m : Bool) (payload : Bytes) (s : State) : State :=
  let y := depStep s.csr.fuGapThreshold seq ts m payload s.dep
  finish 0x40 y.2 (emitAll y.1.2 { s with dep := y.1.1 })

/-- DEP.PACKET seq, ts, m, payload (R250). -/
def execDepPacket (seq : Seq) (ts : W32) (m : Bool) (payload : Bytes) (s : State) :
    Host.Outcome State Fault Refusal :=
  .next (unlessFatal 0x40
    (fun s => if payload = [] then reject 0x40 .eOperand s else depacketize seq ts m payload s) s)

end Sys2Proof.Machine
end

