-- ==== Sys2Proof/Machine/Field.lean ====
section
/-! DEFINITION. GF(2^8) arithmetic and the four tables, for any parameters
(spec/40_gf_arithmetic.md R120 to R132), and the spec's default parameters (spec/00_scope.md R9). -/

namespace Sys2Proof.Machine

/-- One step of the shift of R124: `a` times `x`, reduced by `GF_POLY` when bit 7 is carried out. -/
def xtime (F : GfField) (a : Byte) : Byte :=
  if a.getLsbD 7 then (a <<< 1) ^^^ F.poly.setWidth 8 else a <<< 1

/-- Iteration `i` of R124's loop on the pair (r, a). -/
def gmulStep (F : GfField) (b : Byte) (ra : Byte × Byte) (i : Nat) : Byte × Byte :=
  (if b.getLsbD i then ra.1 ^^^ ra.2 else ra.1, xtime F ra.2)

/-- `gmul(a, b)`, `a ⊗ b` (R124). -/
def gmul (F : GfField) (a b : Byte) : Byte := ((List.range 8).foldl (gmulStep F b) (0, a)).1

/-- `gpow(a, e)` (R132). -/
def gpow (F : GfField) (a : Byte) : Nat → Byte
  | 0 => 0x01
  | e + 1 => gmul F a (gpow F a e)

/-- Every byte, in increasing order. -/
def allBytes : List Byte := (List.range 256).map (BitVec.ofNat 8)

/-- `ginv(a)` (R126): the byte `b` with `a ⊗ b = 0x01`. `ginv(0x00)` is not defined and no rule
evaluates it (U3): the free value. -/
def ginv (F : GfField) (a : Byte) : Byte :=
  if a = 0 then Config.inv0 else (allBytes.find? (fun b => gmul F a b == 0x01)).getD Config.inv0

/-- `gadd(a, b)`, `a ⊕ b` (R125). -/
def gadd (a b : Byte) : Byte := a ^^^ b

/-- `gdiv(a, b)` (R126). Division by zero is not defined, and no rule evaluates it (U3): the free value.
DESIGN CHOICE, log 8. No command evaluates `gdiv` at all. safe -/
def gdiv (F : GfField) (a b : Byte) : Byte := if b = 0 then Config.div0 a else gmul F a (ginv F b)

/-- `EXP` (R121). -/
def expTable (F : GfField) : List Byte :=
  (List.range 510).map (fun i => if i ≤ 254 then gpow F F.alpha i else gpow F F.alpha (i - 255))

/-- `LOG[a]` (R122) for `a ≠ 0`: the `i` in 0..254 with `EXP[i] = a`; `LOG[0]` is unspecified. -/
def logEntry (F : GfField) (a : Byte) : Byte :=
  if a = 0 then Config.log0
  else ((List.range 255).find? (fun i => gpow F F.alpha i == a)).elim Config.log0 (BitVec.ofNat 8)

/-- `LOG` (R122). -/
def logTable (F : GfField) : List Byte := allBytes.map (logEntry F)

/-- `INV` (R123). -/
def invTable (F : GfField) : List Byte := allBytes.map (ginv F)

/-- `MUL` (R123). -/
def mulTable (F : GfField) : List (List Byte) := allBytes.map (fun a => allBytes.map (gmul F a))

/-- The default field of R9: `GF_POLY` = 0x11D, `GF_ALPHA` = 0x02.
PRESUMED: the spec supplies both from general knowledge, not from its source; log 6. unsafe -/
def gfDefaultField : GfField := { poly := 0x11D, alpha := 0x02 }

/-- The default parameters of R9 and R142: `XPT(0) = 0`, `XPT(i) = GF_ALPHA^(i-1)` for `i ≥ 1`.
PRESUMED: the spec supplies the points from general knowledge, not from its source; log 6. unsafe -/
def gfDefault : GfParams :=
  { field := gfDefaultField
    xpt := fun i => if i = 0 then 0x00 else gpow gfDefaultField gfDefaultField.alpha (i - 1) }

/-- The default parameters of R9 (log 6, log 11): those of `exec` and `step`, whose types have no place
for an argument. -/
def paramsDefault : Params := { gf := gfDefault, maxLen := Config.maxLen }

/-- Carry-less product of two polynomials over GF(2), given as numbers (R120), `b` below `2^8`. -/
def clmul (a b : Nat) : Nat :=
  (List.range 8).foldl (fun r i => if b.testBit i then r ^^^ (a <<< i) else r) 0

/-- The conditions R9 puts on `GF_POLY` and `GF_ALPHA`. -/
structure FieldLegal (F : GfField) : Prop where
  /-- `GF_POLY` has degree 8 -/
  degree : F.poly.getLsbD 8 = true
  /-- `GF_POLY` is no product of two polynomials of degree 1 to 7 -/
  irreducible : ∀ a b : Nat, 2 ≤ a → a < 256 → 2 ≤ b → b < 256 → clmul a b ≠ F.poly.toNat
  /-- the powers of `GF_ALPHA` return to 1 at exponent 255 -/
  orderOne : gpow F F.alpha 255 = 0x01
  /-- and at none before it: `GF_ALPHA` has multiplicative order 255 -/
  orderLeast : ∀ e : Nat, 0 < e → e < 255 → gpow F F.alpha e ≠ 0x01

/-- The conditions R9 puts on all three parameters. -/
structure GfLegal (P : GfParams) : Prop where
  field : FieldLegal P.field
  /-- `XPT` is injective on block indices -/
  points : ∀ i j : Nat, i < 256 → j < 256 → P.xpt i = P.xpt j → i = j

/-- The values R9 allows. -/
structure ParamsLegal (P : Params) : Prop where
  gf : GfLegal P.gf
  /-- `MAX_LEN` is a natural number up to 65535 -/
  maxLen : P.maxLen ≤ 65535

end Sys2Proof.Machine
end

