-- ==== Sys2Proof/Machine/Matrix.lean ====
section
/-! DEFINITION. Rows and matrices over GF(2^8): AddMul, products, MatInv
(spec/40_gf_arithmetic.md R129, R130; spec/00_scope.md R13). -/

namespace Sys2Proof.Machine

/-- `s ⊗ V` (R13). -/
def scaleRow (F : GfField) (c : Byte) (V : List Byte) : List Byte := V.map (gmul F c)

/-- `V ⊕ W` (R13). -/
def addRow (V W : List Byte) : List Byte := List.zipWith (fun x y => x ^^^ y) V W

/-- `AddMul(dst, src, c)` (R129). -/
def addMul (F : GfField) (dst src : List Byte) (c : Byte) : List Byte :=
  List.zipWith (fun x y => x ^^^ gmul F c y) dst src

/-- The loop `for c: out <- AddMul(out, rows[c], coeffs[c])` from `zeros(blen)` (R150, R162). -/
def combine (F : GfField) (blen : Nat) (coeffs : List Byte) (rows : List Bytes) : Bytes :=
  (coeffs.zip rows).foldl (fun out cr => addMul F out cr.2 cr.1) (zeros blen)

/-- The identity row `e_i` of length `k` (R156). -/
def unitRow (k i : Nat) : List Byte := (List.range k).map (fun j => if i = j then 0x01 else 0x00)

/-- The identity matrix `I`. -/
def identity (k : Nat) : Matrix8 := (List.range k).map (unitRow k)

/-- Entry `M[i][j]` (R13). -/
def entry (M : Matrix8) (i j : Nat) : Byte := (M.getD i []).getD j 0

/-- `Σ⊕` (R13): the sum of a list. -/
def gsum (l : List Byte) : Byte := l.foldr (fun x y => x ^^^ y) 0x00

/-- `Π⊗` (R13): the product of a list. -/
def gprod (F : GfField) (l : List Byte) : Byte := l.foldr (gmul F) 0x01

/-- The matrix product (R130), `A` with `k` columns and `B` with `m` columns. -/
def matMul (F : GfField) (k m : Nat) (A B : Matrix8) : Matrix8 :=
  A.map (fun row => (List.range m).map (fun j =>
    gsum ((List.range k).map (fun t => gmul F (row.getD t 0) (entry B t j)))))

/-- A k×k matrix: k rows of k bytes. -/
def square (k : Nat) (A : Matrix8) : Bool := A.length == k && A.all (fun r => r.length == k)

/-- A row of `W` with the same row of `B`, in the working pair of `MatInv` (R130). -/
abbrev RowPair := List Byte × List Byte

/-- The least `r` in `col..` with `W[r][col] ≠ 0` (R130). -/
def findPivot (col : Nat) (rows : List RowPair) : Option Nat :=
  (List.range rows.length).find? (fun r => decide (col ≤ r) && (rows.getD r ([], [])).1.getD col 0 != 0)

/-- Rows `i` and `j` exchanged. -/
def swapRows (i j : Nat) (rows : List RowPair) : List RowPair :=
  (rows.set i (rows.getD j ([], []))).set j (rows.getD i ([], []))

/-- The pivot row normalized: both halves times `ginv(W[col][col])` (R130). -/
def normalize (F : GfField) (col : Nat) (row : RowPair) : RowPair :=
  (scaleRow F (ginv F (row.1.getD col 0)) row.1, scaleRow F (ginv F (row.1.getD col 0)) row.2)

/-- Row `r` with `f` times the pivot row added, `f = W[r][col]` (R130). -/
def eliminate (F : GfField) (col : Nat) (pivot row : RowPair) : RowPair :=
  (addMul F row.1 pivot.1 (row.1.getD col 0), addMul F row.2 pivot.2 (row.1.getD col 0))

/-- The pass of `MatInv` for one column; `none` is `Singular`. -/
def gaussStep (F : GfField) (rows : List RowPair) (col : Nat) : Option (List RowPair) :=
  match findPivot col rows with
  | none => none
  | some p =>
    let swapped := swapRows col p rows
    let pivot := normalize F col (swapped.getD col ([], []))
    some (swapped.mapIdx (fun r row => if r = col then pivot else eliminate F col pivot row))

/-- The passes of `MatInv` for a list of columns. -/
def gaussSteps (F : GfField) : List Nat → List RowPair → Option (List RowPair)
  | [], rows => some rows
  | col :: cols, rows =>
    match gaussStep F rows col with
    | none => none
    | some rows' => gaussSteps F cols rows'

/-- `MatInv(A)` for a k×k matrix (R130): `some B` is `Inverse(B)`, `none` is `Singular`. -/
def matInv (F : GfField) (k : Nat) (A : Matrix8) : Option Matrix8 :=
  (gaussSteps F (List.range k) (A.zip (identity k))).map (fun rows => rows.map Prod.snd)

end Sys2Proof.Machine
end

