-- ==== Sys2Proof/Machine/Ece.lean ====
section
/-! DEFINITION. The erasure coding engine (spec/41_erasure_engine.md R140 to R163). The engine's
functions take the field parameters and `gf_ready`; they read no other state (R26). -/

namespace Sys2Proof.Machine

/-- The factor of R146 for block `r`, column `c` and point `j`. -/
def lagrangeFactor (P : GfParams) (r c j : Nat) : Byte :=
  gmul P.field (P.xpt r ^^^ P.xpt j) (ginv P.field (P.xpt c ^^^ P.xpt j))

/-- A parity coefficient: `ENC(k,n)[r][c]` for `k ≤ r < n` (R146). -/
def parityCoeff (P : GfParams) (k r c : Nat) : Byte :=
  gprod P.field (((List.range k).filter (fun j => j != c)).map (lagrangeFactor P r c))

/-- Row `r` of `ENC(k, n)` (R146); it does not depend on `n`. -/
def encRow (P : GfParams) (k r : Nat) : List Byte :=
  if r < k then unitRow k r else (List.range k).map (parityCoeff P k r)

/-- `ENC(k, n)` (R146). -/
def enc (P : GfParams) (k n : Nat) : Matrix8 := (List.range n).map (encRow P k)

/-- Rows k..n-1 of `ENC(k, n)` (R145). -/
def parityRows (P : GfParams) (k n : Nat) : Matrix8 := (enc P k n).drop k

/-- `VDM(n, k)` (R143): powers of the evaluation points. -/
def vandermonde (P : GfParams) (n k : Nat) : Matrix8 :=
  (List.range n).map (fun i => (List.range k).map (gpow P.field (P.xpt i)))

/-- Parity block number `r` of the data rows (R150). -/
def parityBlock (P : GfParams) (k blen : Nat) (data : List Bytes) (r : Nat) : Bytes :=
  combine P.field blen (encRow P k r) data

/-- Encode (R150): the tests in their order, then one row for each requested block number. -/
def engineEncode (P : GfParams) (ready : Bool) (k n blen : Nat) (blocks : List Nat)
    (data : List Bytes) : Except Status (List Bytes) :=
  if ready = false then .error .eNoinit
  else if validKN k n = false then .error .eKn
  else if data.length ≠ k then .error .eRows
  else if blocks.any (fun r => decide (r < k) || decide (n ≤ r)) then .error .eIndex
  else .ok (blocks.map (parityBlock P k blen data))

/-- Row `i` of `DecInput` (R156): the identity row at a primary index, else the encoding row. -/
def decInputRow (P : GfParams) (k i x : Nat) : List Byte :=
  if x < k then unitRow k i else encRow P k x

/-- `DecInput(k, n, idx)` (R156). -/
def decInput (P : GfParams) (k : Nat) (idx : List Nat) : Matrix8 := idx.mapIdx (decInputRow P k)

/-- `DecMat(k, n, idx)` (R156). -/
def decMat (P : GfParams) (k : Nat) (idx : List Nat) : Option Matrix8 :=
  matInv P.field k (decInput P k idx)

/-- `CheckIdx(k, n, idx)` (R157): every index below `n`, every primary index at its own position. -/
def checkIdx (k n : Nat) (idx : List Nat) : Bool :=
  idx.zipIdx.all (fun xi => decide (xi.1 < n) && (decide (k ≤ xi.1) || decide (xi.1 = xi.2)))

/-- BuildDecodeMatrix (R155): the tests in their order, then the inverse. -/
def engineBuildDec (P : GfParams) (ready : Bool) (k n : Nat) (idx : List Nat) :
    Except Status Matrix8 :=
  if ready = false then .error .eNoinit
  else if validKN k n = false then .error .eKn
  else if idx.length ≠ k then .error .eRows
  else if checkIdx k n idx = false then .error .eIndex
  else
    match decMat P k idx with
    | none => .error .eSingular
    | some B => .ok B

/-- Output row `i` of Decode (R162): passed through at a primary index, else recomputed from row `i`
of the decode matrix. -/
def decodeRow (P : GfParams) (k blen : Nat) (idx : List Nat) (ins : List Bytes) (B : Matrix8)
    (i : Nat) : Bytes :=
  if idx.getD i 0 < k then ins.getD i [] else combine P.field blen (B.getD i []) ins

/-- `EngineDecode(k, n, blen, idx, in)` (R162). -/
def engineDecode (P : GfParams) (ready : Bool) (k n blen : Nat) (idx : List Nat)
    (ins : List Bytes) : Except Status (List Bytes) :=
  if ready = false then .error .eNoinit
  else if validKN k n = false then .error .eKn
  else if idx.length ≠ k ∨ ins.length ≠ k then .error .eRows
  else if checkIdx k n idx = false then .error .eIndex
  else
    match decMat P k idx with
    | none => .error .eSingular
    | some B => .ok ((List.range k).map (decodeRow P k blen idx ins B))

/-- The end of an engine command: the record it emits, or its rejection (R150, R155, R159). -/
def engineDone {α : Type} (opcode : Byte) (record : α → Record) (r : Except Status α)
    (s : State) : State :=
  match r with
  | .error st => reject opcode st s
  | .ok a => finish opcode .ok (emitAll [record a] s)

/-- ECE.NEWMATRIX after the E_FAULTED test (R145): E_KN sets `fatal`. -/
def newMatrix (P : GfParams) (k n : BitVec 9) (s : State) : State :=
  if s.gf.gfReady = false then reject 0x02 .eNoinit s
  else if validKN k.toNat n.toNat = false then reject 0x02 .eKn { s with fatal := true }
  else finish 0x02 .ok (emitAll [.matrix k n (parityRows P k.toNat n.toNat)] s)

/-- ECE.NEWMATRIX k, n (R145) for any parameters. -/
def execEceNewmatrixWith (P : Params) (k n : BitVec 9) (s : State) :
    Host.Outcome State Fault Refusal :=
  .next (unlessFatal 0x02 (newMatrix P.gf k n) s)

/-- ECE.NEWMATRIX k, n (R145). -/
def execEceNewmatrix (k n : BitVec 9) (s : State) : Host.Outcome State Fault Refusal :=
  execEceNewmatrixWith paramsDefault k n s

/-- ECE.ENCODE k, n, blen, blocks, data (R150) for any parameters. -/
def execEceEncodeWith (P : Params) (k n : BitVec 9) (blen : BitVec 16) (blocks : List (BitVec 16))
    (rows : List Bytes) (s : State) : Host.Outcome State Fault Refusal :=
  .next (unlessFatal 0x03
    (fun s => engineDone 0x03 (.rows (BitVec.ofNat 16 blocks.length) blen blocks)
      (engineEncode P.gf s.gf.gfReady k.toNat n.toNat blen.toNat (blocks.map BitVec.toNat) rows)
      s) s)

/-- ECE.ENCODE k, n, blen, blocks, data (R150). -/
def execEceEncode (k n : BitVec 9) (blen : BitVec 16) (blocks : List (BitVec 16))
    (rows : List Bytes) (s : State) : Host.Outcome State Fault Refusal :=
  execEceEncodeWith paramsDefault k n blen blocks rows s

/-- ECE.BUILDDEC k, n, idx (R155) for any parameters. -/
def execEceBuilddecWith (P : Params) (k n : BitVec 9) (idx : List (BitVec 16)) (s : State) :
    Host.Outcome State Fault Refusal :=
  .next (unlessFatal 0x04
    (fun s => engineDone 0x04 (.decMatrix k)
      (engineBuildDec P.gf s.gf.gfReady k.toNat n.toNat (idx.map BitVec.toNat)) s) s)

/-- ECE.BUILDDEC k, n, idx (R155). -/
def execEceBuilddec (k n : BitVec 9) (idx : List (BitVec 16)) (s : State) :
    Host.Outcome State Fault Refusal :=
  execEceBuilddecWith paramsDefault k n idx s

/-- The row numbers `[0, 1, ..., k-1]` of a decoded `Rows` record (R159). -/
def rowNumbers (k : Nat) : List (BitVec 16) := (List.range k).map (BitVec.ofNat 16)

/-- ECE.DECODE k, n, blen, idx, in (R159) for any parameters. -/
def execEceDecodeWith (P : Params) (k n : BitVec 9) (blen : BitVec 16) (idx : List (BitVec 16))
    (rows : List Bytes) (s : State) : Host.Outcome State Fault Refusal :=
  .next (unlessFatal 0x05
    (fun s => engineDone 0x05 (.rows (k.setWidth 16) blen (rowNumbers k.toNat))
      (engineDecode P.gf s.gf.gfReady k.toNat n.toNat blen.toNat (idx.map BitVec.toNat) rows)
      s) s)

/-- ECE.DECODE k, n, blen, idx, in (R159). -/
def execEceDecode (k n : BitVec 9) (blen : BitVec 16) (idx : List (BitVec 16))
    (rows : List Bytes) (s : State) : Host.Outcome State Fault Refusal :=
  execEceDecodeWith paramsDefault k n blen idx rows s

end Sys2Proof.Machine
end

