-- ==== Sys2Proof/Machine/Gf.lean ====
section
/-! DEFINITION. GF.INIT and the contents of the four tables (spec/40_gf_arithmetic.md R121 to R128;
spec/10_state.md R24). -/

namespace Sys2Proof.Machine

/-- A table whose contents are unspecified (R24). -/
def unbuiltTable (t size : Nat) : List Byte := (List.range size).map (Config.unbuiltEntry t)

/-- `EXP[0..509]`. -/
def expOf : GfTables → List Byte
  | .unbuilt => unbuiltTable 0 510
  | .built F => expTable F

/-- `LOG[0..255]`. -/
def logOf : GfTables → List Byte
  | .unbuilt => unbuiltTable 1 256
  | .built F => logTable F

/-- `INV[0..255]`. -/
def invOf : GfTables → List Byte
  | .unbuilt => unbuiltTable 2 256
  | .built F => invTable F

/-- `MUL[0..255][0..255]`. -/
def mulOf : GfTables → List (List Byte)
  | .unbuilt => (List.range 256).map (fun a => unbuiltTable (3 + a) 256)
  | .built F => mulTable F

/-- The product by `EXP` and `LOG` (R124): the index is a sum of two logarithms. -/
def mulByLog (t : GfTables) (a b : Byte) : Byte :=
  if a = 0 ∨ b = 0 then 0x00
  else (expOf t).getD (((logOf t).getD a.toNat 0).toNat + ((logOf t).getD b.toNat 0).toNat) 0

/-- The product by `MUL` (R124). -/
def mulByTable (t : GfTables) (a b : Byte) : Byte := ((mulOf t).getD a.toNat []).getD b.toNat 0

/-- The unit after the tables are built (R128). -/
def gfBuilt (F : GfField) : GfUnit := { gfReady := true, tables := .built F }

/-- The single-init guard of R128: a second GF.INIT changes nothing. -/
def gfInit (F : GfField) (g : GfUnit) : GfUnit := if g.gfReady then g else gfBuilt F

/-- GF.INIT (R128) for any parameters. -/
def execGfInitWith (P : Params) (s : State) : Host.Outcome State Fault Refusal :=
  .next (unlessFatal 0x01 (fun s => finish 0x01 .ok { s with gf := gfInit P.gf.field s.gf }) s)

/-- GF.INIT (R128). -/
def execGfInit (s : State) : Host.Outcome State Fault Refusal := execGfInitWith paramsDefault s

end Sys2Proof.Machine
end

