-- ==== Sys2Proof/Machine/Group.lean ====
section
/-! DEFINITION. The FEC group assembler (spec/44_fec_group.md R220 to R244). A procedure that emits
works on the unit's state with the records emitted so far. -/

namespace Sys2Proof.Machine

/-- The group assembler with the records a command has emitted so far, in order. -/
abbrev GrpOut := Grp × List Record

/-- The record of a group id, if any (R220). -/
def groupOf (gid : W32) (groups : List Group) : Option Group :=
  groups.find? (fun g => g.gid == gid)

/-- A block index is present in the record (R228). -/
def hasBlock (g : Group) (i : Nat) : Bool := kvHas (BitVec.ofNat 16 i) g.blocks

/-- The payload recorded at a block index. -/
def blockAt (g : Group) (i : Nat) : Bytes := (kvGet (BitVec.ofNat 16 i) g.blocks).getD []

/-- `P` of FlushGroup (R228): the received primary indices, ascending. -/
def primaries (g : Group) : List Nat := (List.range g.k.toNat).filter (hasBlock g)

/-- `Q` of FlushGroup (R228): the received parity indices, ascending. -/
def parities (g : Group) : List Nat :=
  (List.range' g.k.toNat (g.n.toNat - g.k.toNat)).filter (hasBlock g)

/-- `missing` of FlushGroup (R228): the primary indices not received, ascending. -/
def missing (g : Group) : List Nat := (List.range g.k.toNat).filter (fun i => !hasBlock g i)

/-- The index list for the engine (R231, R232): a received primary row takes its own index, each
missing row in turn the next parity index not yet used. (The list of parity indices does not run out,
R233: FlushGroup has compared the counts.) -/
def assignRows (received : Nat → Bool) : List Nat → List Nat → List Nat
  | [], _ => []
  | i :: rest, q =>
    if received i then i :: assignRows received rest q
    else
      match q with
      | [] => i :: assignRows received rest []
      | j :: q' => j :: assignRows received rest q'

/-- `idx` of FlushGroup (R228). -/
def groupIdx (g : Group) : List Nat := assignRows (hasBlock g) (List.range g.k.toNat) (parities g)

/-- `in` of FlushGroup (R228, R237): each chosen block padded to the group's maximum length. -/
def groupRows (g : Group) : List Bytes :=
  (groupIdx g).map (fun i => pad (blockAt g i) g.maxlen.toNat)

/-- One block emitted as received (R230). -/
def notRecoveredBlock (g : Group) (i : Nat) : Record :=
  .groupBlock
    { gid := g.gid, index := BitVec.ofNat 8 i, tag := .notRecovered
      origLen := len16 (blockAt g i), data := blockAt g i }

/-- One row emitted after a decode (R235, R238). -/
def recoveredBlock (g : Group) (i : Nat) (row : Bytes) : Record :=
  .groupBlock
    { gid := g.gid, index := BitVec.ofNat 8 i, tag := .recovered
      origLen := if hasBlock g i then len16 (blockAt g i) else g.maxlen, data := row }

/-- The number of received blocks, `|rec.blocks|`, as the 8-bit field of `GroupDone`. -/
def receivedCount (g : Group) : BitVec 8 := BitVec.ofNat 8 g.blocks.length

/-- The closing record of a flush (R228). -/
def groupDone (g : Group) (tag : Tag) (cause : Cause) (why : Status) : Record :=
  .groupDone g.gid g.k g.n (receivedCount g) tag cause why

/-- EmitNotRecovered (R228, R230, R236). -/
def emitNotRecovered (g : Group) (cause : Cause) (why : Status) (x : GrpOut) : GrpOut :=
  ({ x.1 with fecFailed := x.1.fecFailed + 1 },
    x.2 ++ (primaries g).map (notRecoveredBlock g) ++ [groupDone g .notRecovered cause why])

/-- The emission of a successful decode (R228, R235). -/
def emitRecovered (g : Group) (cause : Cause) (out : List Bytes) (x : GrpOut) : GrpOut :=
  ({ x.1 with fecRecovered := x.1.fecRecovered + 1 },
    x.2 ++ (List.range g.k.toNat).map (fun i => recoveredBlock g i (out.getD i []))
      ++ [groupDone g .recovered cause .ok])

/-- The engine call of FlushGroup (R234). -/
def groupDecode (P : GfParams) (ready : Bool) (g : Group) : Except Status (List Bytes) :=
  engineDecode P ready g.k.toNat g.n.toNat g.maxlen.toNat (groupIdx g) (groupRows g)

/-- What FlushGroup emits for a record that has left `groups` (R228). -/
def emitGroup (P : GfParams) (ready : Bool) (g : Group) (cause : Cause) (x : GrpOut) : GrpOut :=
  if g.blocks.length < g.k.toNat then emitNotRecovered g cause .sInsufficient x
  else if (parities g).length < (missing g).length then emitNotRecovered g cause .sInsufficient x
  else
    match groupDecode P ready g with
    | .error code => emitNotRecovered g cause code x
    | .ok out => emitRecovered g cause out x

/-- The record leaves `groups`; its timer ceases to be armed (R228). -/
def removeGroup (gid : W32) (g : Grp) : Grp :=
  { g with groups := g.groups.filter (fun r => r.gid != gid) }

/-- FlushGroup(rec, cause) (R228). -/
def flushGroup (P : GfParams) (ready : Bool) (g : Group) (cause : Cause) (x : GrpOut) : GrpOut :=
  emitGroup P ready g cause (removeGroup g.gid x.1, x.2)

/-- The eviction loop (R223): while `|groups| ≥ GRP_MAX_GROUPS` the oldest record is flushed. -/
def evictLoop (P : GfParams) (ready : Bool) (maxGroups : Nat) : Nat → GrpOut → GrpOut
  | 0, x => x
  | fuel + 1, x =>
    match x.1.groups with
    | [] => x
    | oldest :: _ =>
      if x.1.groups.length < maxGroups then x
      else evictLoop P ready maxGroups fuel (flushGroup P ready oldest .eviction x)

/-- The eviction of R223: each round removes a record. -/
def evict (P : GfParams) (ready : Bool) (maxGroups : Nat) (x : GrpOut) : GrpOut :=
  evictLoop P ready maxGroups x.1.groups.length x

/-- The payload is recorded at `index` (R225): replaced if present; `maxlen` never shrinks. -/
def recordBlock (index : BitVec 16) (payload : Bytes) (g : Group) : Group :=
  { g with
    blocks := kvPut index payload g.blocks
    maxlen := BitVec.ofNat 16 (max g.maxlen.toNat payload.length) }

/-- The changed record in its place in `groups`. -/
def updateGroup (g : Group) (x : Grp) : Grp :=
  { x with groups := x.groups.map (fun r => if r.gid = g.gid then g else r) }

/-- Recording into the record `g`, and the flush when the count reaches k (R220, R224). -/
def addToGroup (P : GfParams) (ready : Bool) (index : BitVec 16) (payload : Bytes) (g : Group)
    (x : GrpOut) : GrpOut :=
  let g' := recordBlock index payload g
  let x' := (updateGroup g' x.1, x.2)
  if g'.k.toNat ≤ g'.blocks.length then flushGroup P ready g' .countReached x' else x'

/-- A new record (R222): empty, its expiry timer starts here. -/
def newGroup (gid : W32) (k n : BitVec 8) : Group :=
  { gid := gid, k := k, n := n, blocks := [], maxlen := 0 }

/-- The metadata test of a creating command (R226). -/
def badMeta (index : BitVec 16) (k n : BitVec 8) : Bool :=
  k.toNat < 1 || n.toNat < k.toNat || n.toNat ≤ index.toNat

/-- AddPacket (R220): `none` is the E_META failure. -/
def groupAdd (P : GfParams) (ready : Bool) (maxGroups : Nat) (gid : W32) (index : BitVec 16)
    (k n : BitVec 8) (payload : Bytes) (g : Grp) : Option GrpOut :=
  match groupOf gid g.groups with
  | none =>
    if badMeta index k n then none
    else
      let x := evict P ready maxGroups (g, [])
      some (addToGroup P ready index payload (newGroup gid k n)
        ({ x.1 with groups := x.1.groups ++ [newGroup gid k n] }, x.2))
  | some r =>
    if r.n.toNat ≤ index.toNat then none
    else some (addToGroup P ready index payload r (g, []))

/-- GRP.ADD after the E_FAULTED test (R220). -/
def addBlock (P : GfParams) (gid : W32) (index : BitVec 16) (k n : BitVec 8) (payload : Bytes)
    (s : State) : State :=
  if payload = [] then reject 0x30 .eOperand s
  else
    match groupAdd P s.gf.gfReady s.csr.grpMaxGroups.toNat gid index k n payload s.grp with
    | none => reject 0x30 .eMeta (emitAll [.drop .grp .eMeta] s)
    | some x => finish 0x30 .ok (emitAll x.2 { s with grp := x.1 })

/-- GRP.ADD gid, index, k, n, payload (R220) for any parameters. -/
def execGrpAddWith (P : Params) (gid : W32) (index : BitVec 16) (k n : BitVec 8) (payload : Bytes)
    (s : State) : Host.Outcome State Fault Refusal :=
  .next (unlessFatal 0x30 (addBlock P.gf gid index k n payload) s)

/-- GRP.ADD gid, index, k, n, payload (R220). -/
def execGrpAdd (gid : W32) (index : BitVec 16) (k n : BitVec 8) (payload : Bytes) (s : State) :
    Host.Outcome State Fault Refusal :=
  execGrpAddWith paramsDefault gid index k n payload s

/-- GRP.EXPIRE after the E_FAULTED test (R229). -/
def expireGroup (P : GfParams) (gid : W32) (s : State) : State :=
  match groupOf gid s.grp.groups with
  | none => finish 0x31 .sNotArmed s
  | some g =>
    let x := flushGroup P s.gf.gfReady g .expiry (s.grp, [])
    finish 0x31 .ok (emitAll x.2 { s with grp := x.1 })

/-- GRP.EXPIRE gid (R229) for any parameters. -/
def execGrpExpireWith (P : Params) (gid : W32) (s : State) : Host.Outcome State Fault Refusal :=
  .next (unlessFatal 0x31 (expireGroup P.gf gid) s)

/-- GRP.EXPIRE gid (R229). -/
def execGrpExpire (gid : W32) (s : State) : Host.Outcome State Fault Refusal :=
  execGrpExpireWith paramsDefault gid s

end Sys2Proof.Machine
end

