-- ==== Sys2Proof/Machine/Reorder.lean ====
section
/-! DEFINITION. The reorder buffer (spec/43_reorder_buffer.md R185 to R210). A procedure that emits
works on the unit's state with the records emitted so far. -/

namespace Sys2Proof.Machine

/-- The reorder buffer with the records a command has emitted so far, in order. -/
abbrev RobOut := Rob × List Record

/-- The absolute value of a signed 32-bit difference (R205). -/
def absDiff (d : W32) : W32 := if d.getLsbD 31 then -d else d

/-- The new estimate, scaled by 16, from the old one and the deviation (R205). All of it in 32-bit
arithmetic, the sum `jitter_q4 + 8` included. DEDUCED, log 13. -/
def jitterNext (j d : W32) : W32 := j + d - ((j + 8) >>> 4)

/-- UpdateJitter(ts, arrival) (R205). -/
def updateJitter (ts arrival : W32) (r : Rob) : Rob :=
  { r with
    jitterQ4 :=
      if r.jitValid then jitterNext r.jitterQ4 (absDiff ((arrival - ts) - r.prevTransit))
      else r.jitterQ4
    prevTransit := arrival - ts
    jitValid := true }

/-- The loss estimate and `highest` (R203, R204). -/
def updateLoss (restartGap : BitVec 16) (seq : Seq) (first : Bool) (r : Rob) : Rob :=
  if first then { r with highest := seq }
  else if newer seq r.highest then
    { r with
      lost :=
        if sdist seq r.highest < restartGap.toNat
        then r.lost + BitVec.ofNat 32 (sdist seq r.highest - 1) else r.lost
      highest := seq }
  else r

/-- UpdateStats(pkt, arrival, first) (R202 to R205). -/
def updateStats (restartGap : BitVec 16) (pkt : Packet) (arrival : W32) (first : Bool) (r : Rob) :
    Rob :=
  updateJitter pkt.ts arrival
    (updateLoss restartGap pkt.seq first
      { r with received := r.received + 1, bytes := r.bytes + BitVec.ofNat 32 pkt.payload.length })

/-- FlushInOrder (R193), `fuel` iterations at most. -/
def flushLoop : Nat → RobOut → RobOut
  | 0, x => x
  | fuel + 1, (r, out) =>
    match kvGet r.expected r.buf with
    | none => (r, out)
    | some e =>
      flushLoop fuel
        ({ r with buf := kvDel r.expected r.buf, expected := r.expected + 1 },
          out ++ [.robEmit e.pkt e.arrival])

/-- FlushInOrder (R193): it ends after at most `|buf|` iterations. -/
def flushInOrder (x : RobOut) : RobOut := flushLoop x.1.buf.length x

/-- The distance ahead that ForceAdvance looks at (R194). -/
def isAhead (expected k : Seq) : Bool := 1 ≤ sdist k expected && sdist k expected ≤ 32768

/-- The key of least forward distance among those ahead (R194, R195). -/
def nearestAhead (expected : Seq) : List (BitVec 16 × RobEntry) → Option Seq
  | [] => none
  | (k, _) :: m =>
    match nearestAhead expected m with
    | none => if isAhead expected k then some k else none
    | some t => if isAhead expected k && sdist k expected < sdist t expected then some k else some t

/-- The first half of ForceAdvance (R194): skip to the nearest entry ahead and flush from there. -/
def advance (x : RobOut) : RobOut :=
  match nearestAhead x.1.expected x.1.buf with
  | none => x
  | some t => flushInOrder ({ x.1 with expected := t }, x.2 ++ [.robSkip x.1.expected t])

/-- The entry is behind `expected` (R197). -/
def isBehind (expected k : Seq) : Bool := 0 < sdist expected k && sdist expected k < 32768

/-- The second half of ForceAdvance (R197): entries behind `expected` are discarded, silently. -/
def discardBehind (r : Rob) : Rob :=
  { r with buf := r.buf.filter (fun e => !isBehind r.expected e.1) }

/-- ForceAdvance (R194). -/
def forceAdvance (x : RobOut) : RobOut := ((discardBehind (advance x).1), (advance x).2)

/-- The first packet initialises `expected` (R188). -/
def robStart (seq : Seq) (r : Rob) : Rob :=
  if r.started then r else { r with started := true, expected := seq }

/-- `behind` is in the irrecoverably late class (R189, R192). -/
def isLate (lateThreshold : BitVec 16) (expected seq : Seq) : Bool :=
  lateThreshold.toNat < sdist expected seq && sdist expected seq < 32768

/-- The window test, made once after the insertion and the flush (R196). -/
def windowFlush (robWindow : BitVec 16) (x : RobOut) : RobOut :=
  if x.1.buf.length > robWindow.toNat then forceAdvance x else x

/-- An accepted packet (R187): statistics, insertion, FlushInOrder, window test, timer. -/
def robInsert (c : Csr) (pkt : Packet) (arrival : W32) (first : Bool) (r : Rob) : RobOut :=
  let r1 := updateStats c.restartGap pkt arrival first r
  let r2 := { r1 with buf := kvPut pkt.seq { pkt := pkt, arrival := arrival } r1.buf }
  let x := windowFlush c.robWindow (flushInOrder (r2, []))
  (rearm x.1, x.2)

/-- The late drop (R192). -/
def robLateDrop (seq : Seq) (r : Rob) : RobOut :=
  ({ r with lateDropped := r.lateDropped + 1 }, [.robLate seq (r.expected - seq)])

/-- ROB.ACCEPT after the operand tests (R187). -/
def acceptPacket (pkt : Packet) (arrival : W32) (s : State) : State :=
  let r := robStart pkt.seq s.rob
  if isLate s.csr.lateThreshold r.expected pkt.seq then
    finish 0x20 .sLate (emitAll (robLateDrop pkt.seq r).2 { s with rob := (robLateDrop pkt.seq r).1 })
  else
    let x := robInsert s.csr pkt arrival (!s.rob.started) r
    finish 0x20 .ok (emitAll x.2 { s with rob := x.1 })

/-- ROB.ACCEPT pkt, arrival (R187). -/
def execRobAccept (pkt : Packet) (arrival : W32) (s : State) : Host.Outcome State Fault Refusal :=
  .next (unlessFatal 0x20
    (fun s => if pkt.payload = [] then reject 0x20 .eOperand s else acceptPacket pkt arrival s) s)

/-- The flush timer fires (R199): disarm, ForceAdvance, re-arm if entries are left. -/
def timerFlush (r : Rob) : RobOut :=
  let x := forceAdvance ({ r with timer := false }, [])
  (rearm x.1, x.2)

/-- ROB.TIMER after the E_FAULTED test (R199). -/
def robTimer (s : State) : State :=
  if s.rob.timer = false then finish 0x21 .sNotArmed s
  else finish 0x21 .ok (emitAll (timerFlush s.rob).2 { s with rob := (timerFlush s.rob).1 })

/-- ROB.TIMER (R199). -/
def execRobTimer (s : State) : Host.Outcome State Fault Refusal :=
  .next (unlessFatal 0x21 robTimer s)

/-- What ROB.RESTART leaves (R208): every element it names is cleared, and the unit has no other. -/
def robRestart (r : Rob) : Rob :=
  { r with
    started := false, buf := [], timer := false, expected := 0
    highest := 0, received := 0, lost := 0, bytes := 0, lateDropped := 0
    jitterQ4 := 0, jitValid := false, prevTransit := 0 }

/-- ROB.RESTART (R208). -/
def execRobRestart (s : State) : Host.Outcome State Fault Refusal :=
  .next (unlessFatal 0x22 (fun s => finish 0x22 .ok { s with rob := robRestart s.rob }) s)

end Sys2Proof.Machine
end

