-- ==== Sys2Proof/Machine/Rtp.lean ====
section
/-! DEFINITION. RTP.PARSE (spec/42_rtp_parser.md R170 to R182; the header layout is
spec/30_encoding.md R103 to R105). -/

namespace Sys2Proof.Machine

/-- `hdr` after the CSRC list (R174). -/
def rtpCsrcEnd (B : Bytes) : Nat := 12 + 4 * ((byteAt B 0).extractLsb' 0 4).toNat

/-- The extension flag (R103). -/
def rtpX (B : Bytes) : Bool := (byteAt B 0).getLsbD 4

/-- The padding flag (R103). -/
def rtpP (B : Bytes) : Bool := (byteAt B 0).getLsbD 5

/-- `hdr` with the extension, when there is one (R104, R174). -/
def rtpHdr (B : Bytes) : Nat :=
  if rtpX B then rtpCsrcEnd B + 4 + 4 * (be16 B (rtpCsrcEnd B + 2)).toNat else rtpCsrcEnd B

/-- `plen` as an integer, less the padding count when the flag is set (R105, R177). -/
def rtpPlen (B : Bytes) : Int :=
  (B.length : Int) - rtpHdr B - (if rtpP B then ((byteAt B (B.length - 1)).toNat : Int) else 0)

/-- The fields of R103 with the payload range of R180. -/
def rtpFields (B : Bytes) : ParsedRtp :=
  { v := (byteAt B 0).extractLsb' 6 2
    p := rtpP B
    x := rtpX B
    cc := (byteAt B 0).extractLsb' 0 4
    m := (byteAt B 1).getLsbD 7
    pt := (byteAt B 1).extractLsb' 0 7
    seq := be16 B 2
    ts := be32 B 4
    ssrc := be32 B 8
    payloadOff := BitVec.ofNat 16 (rtpHdr B)
    payloadLen := BitVec.ofNat 16 (rtpPlen B).toNat }

/-- The parser (R170): the tests in the order of R179. -/
def rtpParse (B : Bytes) : Except Status ParsedRtp :=
  if B.length < 12 then .error .eRtpShort
  else if (byteAt B 0).extractLsb' 6 2 ≠ 2#2 then .error .eRtpVersion
  else if rtpX B = true ∧ rtpCsrcEnd B + 4 > B.length then .error .eRtpHdrlen
  else if rtpHdr B > B.length then .error .eRtpHdrlen
  else if rtpPlen B ≤ 0 then .error .eRtpPayload
  else .ok (rtpFields B)

/-- RTP.PARSE after the E_FAULTED test (R170). -/
def parseDatagram (B : Bytes) (s : State) : State :=
  match rtpParse B with
  | .error st =>
      reject 0x10 st (emitAll [.drop .rtp st] { s with rtpMalformed := s.rtpMalformed + 1 })
  | .ok h => finish 0x10 .ok (emitAll [.parsed h] s)

/-- RTP.PARSE B (R170). -/
def execRtpParse (datagram : Bytes) (s : State) : Host.Outcome State Fault Refusal :=
  .next (unlessFatal 0x10 (parseDatagram datagram) s)

end Sys2Proof.Machine
end

