-- ==== Sys2Proof/Machine/System.lean ====
section
/-! DEFINITION. CSR.RD, CSR.WR, SYS.TEARDOWN, SYS.RESET (spec/46_system.md R285 to R290; the register
map is spec/10_state.md R40 to R42). -/

namespace Sys2Proof.Machine

/-- The value CSR.RD returns, for the numbers of R40 and R41; `none` for reserved numbers. -/
def csrRead (reg : BitVec 8) (s : State) : Option W32 :=
  match reg.toNat with
  | 0x00 => some (s.csr.lateThreshold.setWidth 32)
  | 0x01 => some (s.csr.robWindow.setWidth 32)
  | 0x02 => some (s.csr.robFlushDelayMs.setWidth 32)
  | 0x03 => some (s.csr.grpMaxGroups.setWidth 32)
  | 0x04 => some (s.csr.grpExpiryMs.setWidth 32)
  | 0x05 => some (s.csr.restartGap.setWidth 32)
  | 0x06 => some (s.csr.fuGapThreshold.setWidth 32)
  | 0x07 => some s.csr.clockRateHz
  | 0x10 => some (statusWord s)
  | 0x11 => some (s.lastStatus.setWidth 32)
  | 0x12 => some (if s.rob.started then s.rob.expected.setWidth 32 else 0)
  | 0x13 => some (if s.rob.started then s.rob.highest.setWidth 32 else 0)
  | 0x14 => some (BitVec.ofNat 32 s.rob.buf.length)
  | 0x15 => some s.rob.received
  | 0x16 => some s.rob.lost
  | 0x17 => some s.rob.bytes
  | 0x18 => some s.rob.jitterQ4
  | 0x19 => some s.rob.lateDropped
  | 0x1A => some (BitVec.ofNat 32 s.grp.groups.length)
  | 0x1B => some s.grp.fecRecovered
  | 0x1C => some s.grp.fecFailed
  | 0x1D => some s.rtpMalformed
  | 0x1E => some s.dep.malformed
  | 0x1F => some s.dep.discont
  | 0x20 => some (if s.dep.started then s.dep.lastSeq.setWidth 32 else 0)
  | _ => none

/-- The legal values of a configuration register (R40); `false` for every other number. -/
def csrLegal (reg : BitVec 8) (value : W32) : Bool :=
  match reg.toNat with
  | 0x00 => value.toNat ≤ 32767
  | 0x01 => value.toNat ≤ 65535
  | 0x02 => value.toNat ≤ 65535
  | 0x03 => 1 ≤ value.toNat && value.toNat ≤ 65535
  | 0x04 => value.toNat ≤ 65535
  | 0x05 => 2 ≤ value.toNat && value.toNat ≤ 32767
  | 0x06 => value.toNat ≤ 32768
  | 0x07 => 1 ≤ value.toNat
  | _ => false

/-- `register[reg] <- value` for a legal value (R287). -/
def csrWrite (reg : BitVec 8) (value : W32) (c : Csr) : Csr :=
  match reg.toNat with
  | 0x00 => { c with lateThreshold := value.setWidth 16 }
  | 0x01 => { c with robWindow := value.setWidth 16 }
  | 0x02 => { c with robFlushDelayMs := value.setWidth 16 }
  | 0x03 => { c with grpMaxGroups := value.setWidth 16 }
  | 0x04 => { c with grpExpiryMs := value.setWidth 16 }
  | 0x05 => { c with restartGap := value.setWidth 16 }
  | 0x06 => { c with fuGapThreshold := value.setWidth 16 }
  | 0x07 => { c with clockRateHz := value }
  | _ => c

/-- CSR.RD reg (R286): no state change, not even `last_status` (R43); it runs while `fatal = 1`. -/
def execCsrRd (reg : BitVec 8) (s : State) : Host.Outcome State Fault Refusal :=
  .next (match csrRead reg s with
    | none => emitAll [.done 0x70 .eCsr] s
    | some value => emitAll [.csrValue reg value, .done 0x70 .ok] s)

/-- CSR.WR reg, value (R287). -/
def execCsrWr (reg : BitVec 8) (value : W32) (s : State) : Host.Outcome State Fault Refusal :=
  .next (unlessFatal 0x71
    (fun s =>
      if csrLegal reg value then finish 0x71 .ok { s with csr := csrWrite reg value s.csr }
      else reject 0x71 .eCsr s) s)

/-- The reorder buffer after SYS.TEARDOWN (R290): timer cancelled, buffer emptied, counters kept. -/
def robTeardown (r : Rob) : Rob :=
  { r with timer := false, buf := [], started := false, jitValid := false }

/-- The depacketizer after SYS.TEARDOWN (R290). -/
def depTeardown (d : Dep) : Dep :=
  { d with
    started := false, fuActive := false, fuBuf := []
    auOpen := false, auNals := [], auKey := false, auSps := false, auPps := false }

/-- SYS.TEARDOWN (R290): every timer cancelled and every buffer emptied in one step, nothing
emitted. -/
def teardown (s : State) : State :=
  { s with
    rob := robTeardown s.rob, grp := { s.grp with groups := [] }, dep := depTeardown s.dep }

/-- SYS.TEARDOWN (R290). -/
def execSysTeardown (s : State) : Host.Outcome State Fault Refusal :=
  .next (unlessFatal 0x7E (fun s => finish 0x7E .ok (teardown s)) s)

/-- Hardware reset (R340): every state element takes its value of R54. The command port is the host's
input, no state element of the block (R38), and keeps its bytes. DEDUCED, log 12. The end-of-stream
mark `portEnd`, of which the spec says nothing here, is kept too. DESIGN CHOICE, log 25. unsafe -/
def hardReset (s : State) : State :=
  { State.reset with port := s.port, portEnd := s.portEnd }

/-- SYS.RESET (R289): it executes in every state; OQ then holds its own record alone. -/
def execSysReset (s : State) : Host.Outcome State Fault Refusal :=
  .next (finish 0x7F .ok (hardReset s))

end Sys2Proof.Machine
end

