-- ==== Sys2Proof/Machine/Dispatch.lean ====
section
/-! DEFINITION. The dispatch of a command to its meaning, one arm per row of the opcode table
(spec/30_encoding.md R83). -/

namespace Sys2Proof.Machine

def exec (i : Instr) (s : State) : Host.Outcome State Fault Refusal :=
  match i with
  | .gfInit => Sys2Proof.Machine.execGfInit s
  | .eceNewmatrix k n => Sys2Proof.Machine.execEceNewmatrix k n s
  | .eceEncode k n blen blocks rows => Sys2Proof.Machine.execEceEncode k n blen blocks rows s
  | .eceBuilddec k n idx => Sys2Proof.Machine.execEceBuilddec k n idx s
  | .eceDecode k n blen idx rows => Sys2Proof.Machine.execEceDecode k n blen idx rows s
  | .rtpParse datagram => Sys2Proof.Machine.execRtpParse datagram s
  | .robAccept pkt arrival => Sys2Proof.Machine.execRobAccept pkt arrival s
  | .robTimer => Sys2Proof.Machine.execRobTimer s
  | .robRestart => Sys2Proof.Machine.execRobRestart s
  | .grpAdd gid index k n payload => Sys2Proof.Machine.execGrpAdd gid index k n payload s
  | .grpExpire gid => Sys2Proof.Machine.execGrpExpire gid s
  | .depPacket seq ts m payload => Sys2Proof.Machine.execDepPacket seq ts m payload s
  | .csrRd reg => Sys2Proof.Machine.execCsrRd reg s
  | .csrWr reg value => Sys2Proof.Machine.execCsrWr reg value s
  | .sysTeardown => Sys2Proof.Machine.execSysTeardown s
  | .sysReset => Sys2Proof.Machine.execSysReset s

end Sys2Proof.Machine
end

