-- ==== Sys2Proof/WellFormed.lean ====
section
/-! DEFINITION. Which commands have an encoding that the decode layer accepts: every counted list
fits its 16-bit count, every row has the block length, no length field is above MAX_LEN
(spec/30_encoding.md rules R88 to R95, R98 (b)). -/

namespace Sys2Proof

/-- A list whose length fits a 16-bit count field (`cnt`, `rows`; R88 to R90). -/
def countFits {α : Type} (l : List α) : Bool := l.length < 65536

/-- A byte string whose length fits its 16-bit length field and is at most `MAX_LEN` (R98 (b)). -/
def lengthFits (maxLen : Nat) (b : Bytes) : Bool := b.length < 65536 && b.length ≤ maxLen

/-- `rows` data rows of `blen` bytes each (R88, R90), `blen` at most `MAX_LEN` (R98 (b)). -/
def rowsFit (maxLen : Nat) (blen : BitVec 16) (rows : List Bytes) : Bool :=
  countFits rows && rows.all (fun r => r.length == blen.toNat) && blen.toNat ≤ maxLen

/-- The command has an encoding that the decode layer accepts at this `MAX_LEN`. -/
def Instr.wellFormed (maxLen : Nat) : Instr → Bool
  | .gfInit => true
  | .eceNewmatrix _ _ => true
  | .eceEncode _ _ blen blocks rows => countFits blocks && rowsFit maxLen blen rows
  | .eceBuilddec _ _ idx => countFits idx
  | .eceDecode _ _ blen idx rows =>
      countFits idx && rowsFit maxLen blen rows && idx.length == rows.length
  | .rtpParse datagram => lengthFits maxLen datagram
  | .robAccept pkt _ => lengthFits maxLen pkt.payload
  | .robTimer => true
  | .robRestart => true
  | .grpAdd _ _ _ _ payload => lengthFits maxLen payload
  | .grpExpire _ => true
  | .depPacket _ _ _ payload => lengthFits maxLen payload
  | .csrRd _ => true
  | .csrWr _ _ => true
  | .sysTeardown => true
  | .sysReset => true

end Sys2Proof
end

