-- ==== Sys2Proof/Decode.lean ====
section
/-! DEFINITION. The decode layer of the command port: opcodes, formats, command length, framing
errors, and the encoder (spec/30_encoding.md rules R80 to R100). -/

namespace Sys2Proof

/-- The assigned opcodes (R83), one per command. -/
inductive Opcode where
  | gfInit | eceNewmatrix | eceEncode | eceBuilddec | eceDecode | rtpParse
  | robAccept | robTimer | robRestart | grpAdd | grpExpire | depPacket
  | csrRd | csrWr | sysTeardown | sysReset
deriving DecidableEq, Repr

/-- The opcode numbers of R83. -/
def Opcode.code : Opcode → Byte
  | .gfInit => 0x01
  | .eceNewmatrix => 0x02
  | .eceEncode => 0x03
  | .eceBuilddec => 0x04
  | .eceDecode => 0x05
  | .rtpParse => 0x10
  | .robAccept => 0x20
  | .robTimer => 0x21
  | .robRestart => 0x22
  | .grpAdd => 0x30
  | .grpExpire => 0x31
  | .depPacket => 0x40
  | .csrRd => 0x70
  | .csrWr => 0x71
  | .sysTeardown => 0x7E
  | .sysReset => 0x7F

/-- Every assigned opcode, in the order of R83. -/
def Opcode.all : List Opcode :=
  [.gfInit, .eceNewmatrix, .eceEncode, .eceBuilddec, .eceDecode, .rtpParse, .robAccept, .robTimer,
   .robRestart, .grpAdd, .grpExpire, .depPacket, .csrRd, .csrWr, .sysTeardown, .sysReset]

/-- The opcode a header's first byte names; `none` for the values R100 lists as illegal. -/
def Opcode.ofByte (b : Byte) : Option Opcode := Opcode.all.find? (fun o => o.code == b)

/-- The twelve command formats (R84 to R95). -/
inductive Format where
  | Z | R | W | M | E | B | D | P | A | G | X | H
deriving DecidableEq, Repr

/-- The format of each command (R83). -/
def Opcode.format : Opcode → Format
  | .gfInit => .Z
  | .eceNewmatrix => .M
  | .eceEncode => .E
  | .eceBuilddec => .B
  | .eceDecode => .D
  | .rtpParse => .P
  | .robAccept => .A
  | .robTimer => .Z
  | .robRestart => .Z
  | .grpAdd => .G
  | .grpExpire => .X
  | .depPacket => .H
  | .csrRd => .R
  | .csrWr => .W
  | .sysTeardown => .Z
  | .sysReset => .Z

/-- Bytes of the header word and the extension words of a format (R84 to R95). -/
def Format.headBytes : Format → Nat
  | .Z => 4
  | .R => 4
  | .W => 8
  | .M => 4
  | .E => 12
  | .B => 8
  | .D => 8
  | .P => 4
  | .A => 20
  | .G => 12
  | .X => 8
  | .H => 12

/-- `cnt`, bits 31:16 of extension word 1 (R88, R89, R90). -/
def cntField (B : Bytes) : Nat := (be16 B 4).toNat

/-- `blen`, bits 15:0 of extension word 1 (R88, R90). -/
def blenField (B : Bytes) : Nat := (be16 B 6).toNat

/-- `rows`, bits 31:16 of extension word 2 (R88). -/
def rowsField (B : Bytes) : Nat := (be16 B 8).toNat

/-- `len` of format P, bits 15:0 of the header (R91). -/
def lenFieldP (B : Bytes) : Nat := (be16 B 2).toNat

/-- `plen` of format A, bits 15:0 of word 4 (R92). R81 says that a length is a function of the first
4, 8 or 12 bytes; format A's is a function of its first 20. DEDUCED, log 5. -/
def plenFieldA (B : Bytes) : Nat := (be16 B 18).toNat

/-- `plen` of formats G and H, bits 15:0 of word 2 (R93, R95). -/
def plenFieldGH (B : Bytes) : Nat := (be16 B 10).toNat

/-- In-line operand bytes after the words, from the command's own length fields (R81, R88 to R95). -/
def Format.bodyBytes (B : Bytes) : Format → Nat
  | .Z => 0
  | .R => 0
  | .W => 0
  | .M => 0
  | .E => 2 * cntField B + rowsField B * blenField B
  | .B => 2 * cntField B
  | .D => 2 * cntField B + cntField B * blenField B
  | .P => lenFieldP B
  | .A => plenFieldA B
  | .G => plenFieldGH B
  | .X => 0
  | .H => plenFieldGH B

/-- The reserved bits of a format are all zero (R82, R84 to R95). -/
def Format.reservedClear (B : Bytes) : Format → Bool
  | .Z => (be32 B 0).extractLsb' 0 24 == 0
  | .R => (be32 B 0).extractLsb' 8 16 == 0
  | .W => (be32 B 0).extractLsb' 8 16 == 0
  | .M => (be32 B 0).extractLsb' 18 6 == 0
  | .E => (be32 B 0).extractLsb' 18 6 == 0 && (be32 B 8).extractLsb' 0 16 == 0
  | .B => (be32 B 0).extractLsb' 18 6 == 0 && (be32 B 4).extractLsb' 0 16 == 0
  | .D => (be32 B 0).extractLsb' 18 6 == 0
  | .P => (be32 B 0).extractLsb' 16 8 == 0
  | .A => (be32 B 16).extractLsb' 16 8 == 0
  | .G => (be32 B 0).extractLsb' 16 8 == 0
  | .X => (be32 B 0).extractLsb' 0 24 == 0
  | .H => (be32 B 0).extractLsb' 16 7 == 0 && (be32 B 8).extractLsb' 16 16 == 0

/-- A length field (`len`, `plen` or `blen`; not the counts) exceeds MAX_LEN (R98 (b)). -/
def Format.tooLong (maxLen : Nat) (B : Bytes) : Format → Bool
  | .Z => false
  | .R => false
  | .W => false
  | .M => false
  | .E => maxLen < blenField B
  | .B => false
  | .D => maxLen < blenField B
  | .P => maxLen < lenFieldP B
  | .A => maxLen < plenFieldA B
  | .G => maxLen < plenFieldGH B
  | .X => false
  | .H => maxLen < plenFieldGH B

/-- `k`, bits 17:9 of the header word (R87). -/
def kField (B : Bytes) : BitVec 9 := (be32 B 0).extractLsb' 9 9

/-- `n`, bits 8:0 of the header word (R87). -/
def nField (B : Bytes) : BitVec 9 := (be32 B 0).extractLsb' 0 9

/-- The `Packet` of format A (R92). -/
def packetFields (B : Bytes) : Packet :=
  { v := (be32 B 16).extractLsb' 30 2
    p := (be32 B 16).getLsbD 29
    x := (be32 B 16).getLsbD 28
    cc := (be32 B 16).extractLsb' 24 4
    m := (be32 B 0).getLsbD 23
    pt := (be32 B 0).extractLsb' 16 7
    seq := (be32 B 0).extractLsb' 0 16
    ts := be32 B 4
    ssrc := be32 B 8
    payload := B.drop 20 }

/-- The operands of a command from its complete bytes `B` (R84 to R96): every field is an unsigned
number taken from the stated bits. -/
def decodeFields (B : Bytes) : Opcode → Instr
  | .gfInit => .gfInit
  | .eceNewmatrix => .eceNewmatrix (kField B) (nField B)
  | .eceEncode =>
      .eceEncode (kField B) (nField B) (be16 B 6) (readList16 (cntField B) (B.drop 12))
        (readRows (rowsField B) (blenField B) (B.drop (12 + 2 * cntField B)))
  | .eceBuilddec => .eceBuilddec (kField B) (nField B) (readList16 (cntField B) (B.drop 8))
  | .eceDecode =>
      .eceDecode (kField B) (nField B) (be16 B 6) (readList16 (cntField B) (B.drop 8))
        (readRows (cntField B) (blenField B) (B.drop (8 + 2 * cntField B)))
  | .rtpParse => .rtpParse (B.drop 4)
  | .robAccept => .robAccept (packetFields B) (be32 B 12)
  | .robTimer => .robTimer
  | .robRestart => .robRestart
  | .grpAdd =>
      .grpAdd (be32 B 4) ((be32 B 0).extractLsb' 0 16) ((be32 B 8).extractLsb' 24 8)
        ((be32 B 8).extractLsb' 16 8) (B.drop 12)
  | .grpExpire => .grpExpire (be32 B 4)
  | .depPacket =>
      .depPacket ((be32 B 0).extractLsb' 0 16) (be32 B 4) ((be32 B 0).getLsbD 23) (B.drop 12)
  | .csrRd => .csrRd ((be32 B 0).extractLsb' 0 8)
  | .csrWr => .csrWr ((be32 B 0).extractLsb' 0 8) (be32 B 4)
  | .sysTeardown => .sysTeardown
  | .sysReset => .sysReset

/-- Why the decode layer rejects (R98): by name. -/
inductive FrameError where
  /-- unassigned opcode or reserved bit set: E_ILLEGAL -/
  | illegal
  /-- stream ended inside the command, or a length field above MAX_LEN: E_LENGTH -/
  | badLength
deriving DecidableEq, Repr

/-- What the command port finds at its head. -/
inductive Framed where
  /-- no complete command yet and the stream is still open: nothing to do -/
  | wait
  /-- a decode-layer rejection: the first byte as received, the reason, the bytes left -/
  | reject (opcode : Byte) (why : FrameError) (rest : Bytes)
  /-- a command, and the bytes left -/
  | command (i : Instr) (rest : Bytes)
deriving DecidableEq, Repr

/-- The bytes end before the command does: R98 (a) when the stream has ended there (the partial bytes
are discarded), else the port waits for the rest (R61). DEDUCED, log 2, log 3. -/
def frameShort (opcode : Byte) (ended : Bool) : Framed :=
  if ended then .reject opcode .badLength [] else .wait

/-- The length in bytes that a command's own words call for (R81). -/
def Opcode.commandBytes (op : Opcode) (B : Bytes) : Nat :=
  op.format.headBytes + op.format.bodyBytes B

/-- The command at the head of the port's bytes (R81, R98). `ended`: the stream ends after `B`.
The order of the tests is R98's: (a) before (c), (c) before (b). -/
def frame (maxLen : Nat) (B : Bytes) (ended : Bool) : Framed :=
  match B with
  | [] => .wait
  | b :: _ =>
    if B.length < 4 then frameShort b ended
    else
      match Opcode.ofByte b with
      | none => .reject b .illegal (B.drop 4)
      | some op =>
        if B.length < op.format.headBytes then frameShort b ended
        else if B.length < op.commandBytes B then frameShort b ended
        else if op.format.reservedClear B = false then
          .reject b .illegal (B.drop (op.commandBytes B))
        else if op.format.tooLong maxLen B then
          .reject b .badLength (B.drop (op.commandBytes B))
        else
          .command (decodeFields (B.take (op.commandBytes B)) op) (B.drop (op.commandBytes B))

/-! The encoder, from the same formats. -/

/-- The opcode of a command (R83). -/
def Instr.opcode : Instr → Opcode
  | .gfInit => .gfInit
  | .eceNewmatrix .. => .eceNewmatrix
  | .eceEncode .. => .eceEncode
  | .eceBuilddec .. => .eceBuilddec
  | .eceDecode .. => .eceDecode
  | .rtpParse .. => .rtpParse
  | .robAccept .. => .robAccept
  | .robTimer => .robTimer
  | .robRestart => .robRestart
  | .grpAdd .. => .grpAdd
  | .grpExpire .. => .grpExpire
  | .depPacket .. => .depPacket
  | .csrRd .. => .csrRd
  | .csrWr .. => .csrWr
  | .sysTeardown => .sysTeardown
  | .sysReset => .sysReset

/-- Header word of formats M, E, B, D: `opcode | 0[23:18] | k[17:9] | n[8:0]` (R87). -/
def headM (op : Opcode) (k n : BitVec 9) : Bytes := toBe32 (op.code ++ 0#6 ++ k ++ n)

/-- Header word of formats Z and X: `opcode | 0[23:0]` (R84, R94). -/
def headZ (op : Opcode) : Bytes := toBe32 (op.code ++ 0#24)

/-- Header word of formats R and W: `opcode | 0[23:8] | reg[7:0]` (R85, R86). -/
def headR (op : Opcode) (reg : BitVec 8) : Bytes := toBe32 (op.code ++ 0#16 ++ reg)

/-- The bytes of a command (R80, R84 to R95). -/
def encode : Instr → Bytes
  | .gfInit => headZ .gfInit
  | .eceNewmatrix k n => headM .eceNewmatrix k n
  | .eceEncode k n blen blocks rows =>
      headM .eceEncode k n ++ toBe32 (len16 blocks ++ blen) ++ toBe32 (len16 rows ++ 0#16)
        ++ blocks.flatMap toBe16 ++ rows.flatten
  | .eceBuilddec k n idx =>
      headM .eceBuilddec k n ++ toBe32 (len16 idx ++ 0#16) ++ idx.flatMap toBe16
  | .eceDecode k n blen idx rows =>
      headM .eceDecode k n ++ toBe32 (len16 idx ++ blen) ++ idx.flatMap toBe16 ++ rows.flatten
  | .rtpParse datagram => toBe32 (Opcode.rtpParse.code ++ 0#8 ++ len16 datagram) ++ datagram
  | .robAccept pkt arrival =>
      toBe32 (Opcode.robAccept.code ++ BitVec.ofBool pkt.m ++ pkt.pt ++ pkt.seq)
        ++ toBe32 pkt.ts ++ toBe32 pkt.ssrc ++ toBe32 arrival
        ++ toBe32 (pkt.v ++ BitVec.ofBool pkt.p ++ BitVec.ofBool pkt.x ++ pkt.cc ++ 0#8
            ++ len16 pkt.payload)
        ++ pkt.payload
  | .robTimer => headZ .robTimer
  | .robRestart => headZ .robRestart
  | .grpAdd gid index k n payload =>
      toBe32 (Opcode.grpAdd.code ++ 0#8 ++ index) ++ toBe32 gid
        ++ toBe32 (k ++ n ++ len16 payload) ++ payload
  | .grpExpire gid => headZ .grpExpire ++ toBe32 gid
  | .depPacket seq ts m payload =>
      toBe32 (Opcode.depPacket.code ++ BitVec.ofBool m ++ 0#7 ++ seq) ++ toBe32 ts
        ++ toBe32 (0#16 ++ len16 payload) ++ payload
  | .csrRd reg => headR .csrRd reg
  | .csrWr reg value => headR .csrWr reg ++ toBe32 value
  | .sysTeardown => headZ .sysTeardown
  | .sysReset => headZ .sysReset

/-! The opcode table's numbering of a command's bits. -/

/-- The first `count` 32-bit words of `w`, bit 0 of `w` being bit 0 of the first word, each word in
the port's byte order (R80). -/
def tableWords : Nat → Nat → Bytes
  | 0, _ => []
  | count + 1, w => toBe32 (BitVec.ofNat 32 w) ++ tableWords count (w >>> 32)

/-- The bytes of the one command whose low `nbits` bits are `w` and whose other bits are zero: the
words of `w`, zero bytes up to the longest word part of a format, cut or extended with zero bytes to
the length its own words call for. Four bytes when the opcode is unassigned. -/
def tableBytes (nbits w : Nat) : Bytes :=
  let given := tableWords ((nbits + 31) / 32) (w % 2 ^ nbits)
  let words := given ++ zeros (20 - given.length)
  let len := match Opcode.ofByte (byteAt words 0) with
    | none => 4
    | some op => op.commandBytes words
  words.take len ++ zeros (len - words.length)

/-- The instruction the decoder reads from the bits `w` of an opcode-table row. -/
def decodeTableWord (nbits w : Nat) : Option Instr :=
  match frame Config.maxLen (tableBytes nbits w) true with
  | .wait => none
  | .reject _ _ _ => none
  | .command i _ => some i

end Sys2Proof
end

