-- ==== Sys2Proof/Machine/Port.lean ====
section
/-! DEFINITION. The command port and the output queue as the block and its host use them
(spec/30_encoding.md R80, R98; spec/10_state.md R37; spec/70_reset_and_hazards.md R340). -/

namespace Sys2Proof.Machine

/-- The status of a decode-layer rejection (R98). -/
def frameStatus : FrameError → Status
  | .illegal => .eIllegal
  | .badLength => .eLength

/-- A decode-layer rejection (R98): `Done(opcode, status)` and `last_status`, nothing else; it comes
before the E_FAULTED test (R310). A rejected CSR.RD sets `last_status` too. DEDUCED, log 4. -/
def portReject (opcode : Byte) (why : FrameError) (s : State) : State :=
  reject opcode (frameStatus why) s

/-- The command bytes are consumed. -/
def consume (rest : Bytes) (s : State) : State := { s with port := rest }

/-- The host offers command bytes (R80). -/
def State.offer (s : State) (bytes : Bytes) : State := { s with port := s.port ++ bytes }

/-- The host ends the stream (R98 (a)). -/
def State.endStream (s : State) : State := { s with portEnd := true }

/-- The host removes the oldest record from OQ, if there is one (R37, R65). -/
def State.takeRecord (s : State) : Option (Record × State) :=
  match s.oq with
  | [] => none
  | r :: rest => some (r, { s with oq := rest })

/-- The bytes that the port must hold for the next step to run the command with the table bits `w`. -/
def fetchBytes (nbits w : Nat) : Bytes := tableBytes nbits w

end Sys2Proof.Machine
end

