-- ==== Sys2Proof/Machine/Step.lean ====
section
/-! DEFINITION. One step of the block: the command at the head of the port is executed to completion
(spec/10_state.md R21, spec/30_encoding.md R81, R98). -/

namespace Sys2Proof.Machine

/-- One step. With no complete command at the port the block is idle and keeps all state (R54, R327;
log 1, log 2); a decode-layer rejection is a command end like any other (R98). -/
def step (s : State) : Host.Outcome State Fault Refusal :=
  match frame Config.maxLen s.port s.portEnd with
  | .wait => .next s
  | .reject opcode why rest => .next (portReject opcode why (consume rest s))
  | .command i rest => exec i (consume rest s)

/-- `s` with the command whose table bits are `w` at the head of its port, so that the next step
runs it; it stands for the host offering those bytes (log 1). -/
def State.withFetchWord (s : State) (nbits w : Nat) : State :=
  consume (fetchBytes nbits w ++ s.port) s

end Sys2Proof.Machine
end

