-- ==== Sys2Proof/Machine/Parametric.lean ====
section
/-! DEFINITION. The machine with its parameters as an argument (spec/00_scope.md R9, spec/10_state.md
R38): `GF_POLY`, `GF_ALPHA`, `XPT` and `MAX_LEN` may have any value, fixed for a run. `exec`, `step` and
`Sys2Proof.core` are this machine at the default parameters. -/

namespace Sys2Proof.Machine

/-- A command's meaning (R83) at the parameters `P`. -/
def execWith (P : Params) (i : Instr) (s : State) : Host.Outcome State Fault Refusal :=
  match i with
  | .gfInit => execGfInitWith P s
  | .eceNewmatrix k n => execEceNewmatrixWith P k n s
  | .eceEncode k n blen blocks rows => execEceEncodeWith P k n blen blocks rows s
  | .eceBuilddec k n idx => execEceBuilddecWith P k n idx s
  | .eceDecode k n blen idx rows => execEceDecodeWith P k n blen idx rows s
  | .rtpParse datagram => execRtpParse datagram s
  | .robAccept pkt arrival => execRobAccept pkt arrival s
  | .robTimer => execRobTimer s
  | .robRestart => execRobRestart s
  | .grpAdd gid index k n payload => execGrpAddWith P gid index k n payload s
  | .grpExpire gid => execGrpExpireWith P gid s
  | .depPacket seq ts m payload => execDepPacket seq ts m payload s
  | .csrRd reg => execCsrRd reg s
  | .csrWr reg value => execCsrWr reg value s
  | .sysTeardown => execSysTeardown s
  | .sysReset => execSysReset s

/-- One step at the parameters `P`: the command at the head of the port, framed with `P`'s `MAX_LEN`
(R81, R98), is executed to completion (R21). -/
def stepWith (P : Params) (s : State) : Host.Outcome State Fault Refusal :=
  match frame P.maxLen s.port s.portEnd with
  | .wait => .next s
  | .reject opcode why rest => .next (portReject opcode why (consume rest s))
  | .command i rest => execWith P i (consume rest s)

/-- The model with its parameters as an argument (R38). -/
def coreWith (P : Params) : Host.Core :=
  { State := State, Fault := Fault, Refusal := Refusal, step := stepWith P, reset := State.reset }

end Sys2Proof.Machine
end

