-- ==== Sys2Proof/Machine/Records.lean ====
section
/-! DEFINITION. The binary form of the output records (spec/30_encoding.md R99). -/

namespace Sys2Proof.Machine

/-- A length or count field of `w` bits: the number, or a free value when it does not fit (log 15). -/
def lenField (w n : Nat) : BitVec w :=
  if n < 2 ^ w then BitVec.ofNat w n else Config.freeLenField w n

/-- The unit numbers of a `Drop` record (R99). -/
def DropUnit.code : DropUnit → Byte
  | .rtp => 1
  | .rob => 2
  | .grp => 3
  | .dep => 4

/-- The tag numbers (R99). -/
def Tag.code : Tag → Byte
  | .recovered => 1
  | .notRecovered => 0

/-- The cause numbers (R99). -/
def Cause.code : Cause → Byte
  | .countReached => 0
  | .expiry => 1
  | .eviction => 2

/-- The two flag bytes of `Parsed` and `RobEmit` (R99): `v:2 p:1 x:1 cc:4`, `m:1 pt:7`. -/
def flagBytes (v : BitVec 2) (p x : Bool) (cc : BitVec 4) (m : Bool) (pt : BitVec 7) : Bytes :=
  [v ++ BitVec.ofBool p ++ BitVec.ofBool x ++ cc, BitVec.ofBool m ++ pt]

/-- The kind number of a record (R99). -/
def Record.kind : Record → Byte
  | .done .. => 0x01
  | .parsed .. => 0x02
  | .matrix .. => 0x03
  | .rows .. => 0x04
  | .decMatrix .. => 0x05
  | .robEmit .. => 0x06
  | .robLate .. => 0x07
  | .robSkip .. => 0x08
  | .groupBlock .. => 0x09
  | .groupDone .. => 0x0A
  | .nal .. => 0x0B
  | .discontinuity .. => 0x0C
  | .accessUnit .. => 0x0D
  | .drop .. => 0x0E
  | .csrValue .. => 0x0F

/-- The body of a record (R99): fields big-endian, packed, in the order written. -/
def Record.body : Record → Bytes
  | .done opcode status => [opcode, status.code]
  | .parsed h =>
      flagBytes h.v h.p h.x h.cc h.m h.pt ++ toBe16 h.seq ++ toBe32 h.ts ++ toBe32 h.ssrc
        ++ toBe16 h.payloadOff ++ toBe16 h.payloadLen
  | .matrix k n parity => toBe16 (k.setWidth 16) ++ toBe16 (n.setWidth 16) ++ parity.flatten
  | .rows count blen numbers data =>
      toBe16 count ++ toBe16 blen ++ numbers.flatMap toBe16 ++ data.flatten
  | .decMatrix k mat => toBe16 (k.setWidth 16) ++ toBe16 0 ++ mat.flatten
  | .robEmit pkt arrival =>
      flagBytes pkt.v pkt.p pkt.x pkt.cc pkt.m pkt.pt ++ toBe16 pkt.seq ++ toBe32 pkt.ts
        ++ toBe32 pkt.ssrc ++ toBe32 arrival ++ toBe16 (lenField 16 pkt.payload.length)
        ++ pkt.payload
  | .robLate seq behind => toBe16 seq ++ toBe16 behind
  | .robSkip oldExpected newExpected => toBe16 oldExpected ++ toBe16 newExpected
  | .groupBlock b =>
      toBe32 b.gid ++ [b.index, b.tag.code] ++ toBe16 b.origLen
        ++ toBe16 (lenField 16 b.data.length) ++ b.data
  | .groupDone gid k n received tag cause why =>
      toBe32 gid ++ [k, n, received, tag.code, cause.code, why.code]
  | .nal ts bytes => toBe32 ts ++ toBe32 (lenField 32 bytes.length) ++ bytes
  | .discontinuity lastSeq seq gap => toBe16 lastSeq ++ toBe16 seq ++ toBe16 gap
  | .accessUnit ts keyframe hasParamSets nals =>
      toBe32 ts ++ [0#6 ++ BitVec.ofBool hasParamSets ++ BitVec.ofBool keyframe]
        ++ toBe16 (lenField 16 nals.length)
        ++ nals.flatMap (fun b => toBe32 (lenField 32 b.length) ++ b)
  | .drop unit code => [unit.code, code.code]
  | .csrValue reg value => [reg] ++ toBe32 value

/-- The binary form of a record (R99): a word `kind[31:24] | 0[23:0]`, a word with the number of body
bytes, the body. -/
def Record.encode (r : Record) : Bytes :=
  toBe32 (r.kind ++ 0#24) ++ toBe32 (lenField 32 r.body.length) ++ r.body

end Sys2Proof.Machine
end

