-- ==== Sys2Proof/Safety.lean ====
section
/-! DEFINITION. What a good state and a safe step are: the invariants the spec states between commands
(spec/10_state.md R30, R32, R35, R40; spec/40_gf_arithmetic.md R121 to R123). -/

namespace Sys2Proof.Machine

/-- The step goes on: no fault and no refusal. -/
def Completes (s : State) : Prop := ∃ t, step s = .next t

/-- GF (R24, R25): the tables are built, for the machine's field, exactly when `gf_ready` is set. -/
def GfInv (P : Params) (g : GfUnit) : Prop :=
  g.tables = if g.gfReady then .built P.gf.field else .unbuilt

/-- ROB (R28, R30 (a), (b)). -/
structure RobInv (r : Rob) : Prop where
  /-- `buf` is in canonical form -/
  sorted : KvSorted r.buf
  /-- each entry stands under its own sequence number -/
  keyed : ∀ e ∈ r.buf, e.2.pkt.seq = e.1
  /-- every buffered packet has a payload (R15) -/
  filled : ∀ e ∈ r.buf, e.2.pkt.payload ≠ []
  /-- R30 (a) -/
  expectedFree : kvGet r.expected r.buf = none
  /-- R30 (b) -/
  timerArmed : r.timer = !r.buf.isEmpty
  /-- before the first packet nothing is buffered (R28, R208, R290) -/
  idleEmpty : r.started = false → r.buf = []
  /-- nor is there a previous transit value (R23, R208, R290) -/
  idleJitter : r.started = false → r.jitValid = false

/-- A group record between commands (R31, R32 (b), R226). -/
structure GroupInv (g : Group) : Prop where
  /-- `blocks` is in canonical form -/
  sorted : KvSorted g.blocks
  /-- `1 ≤ k` (R31) -/
  kPos : 1 ≤ g.k.toNat
  /-- `k ≤ n` (R31) -/
  kLeN : g.k.toNat ≤ g.n.toNat
  /-- indices are below `n` (R31) -/
  indexBelow : ∀ e ∈ g.blocks, e.1.toNat < g.n.toNat
  /-- payloads are not empty and no longer than `maxlen` (R32 (c)) -/
  lengths : ∀ e ∈ g.blocks, e.2 ≠ [] ∧ e.2.length ≤ g.maxlen.toNat
  /-- `1 ≤ |blocks|` (R32 (b)) -/
  countPos : 1 ≤ g.blocks.length
  /-- `|blocks| < k` (R32 (b)) -/
  countBelow : g.blocks.length < g.k.toNat

/-- GRP (R31, R32): distinct group ids, every record good. -/
structure GrpInv (g : Grp) : Prop where
  distinct : (g.groups.map Group.gid).Nodup
  records : ∀ r ∈ g.groups, GroupInv r

/-- A NAL of type `t` is in the list (R34). -/
def hasNal (t : Nat) (nals : List Bytes) : Bool := nals.any (fun b => nalType (byteAt b 0) == t)

/-- DEP (R33, R34, R35). -/
structure DepInv (d : Dep) : Prop where
  /-- the open unit is not empty, and a closed one is (R34, R271) -/
  openNonempty : d.auOpen = !d.auNals.isEmpty
  /-- no NAL is empty (R15) -/
  nalsFilled : ∀ b ∈ d.auNals, b ≠ []
  /-- the flags say what the list holds (R34) -/
  keyFlag : d.auKey = hasNal 5 d.auNals
  spsFlag : d.auSps = hasNal 7 d.auNals
  ppsFlag : d.auPps = hasNal 8 d.auNals
  /-- an accumulation in progress holds its header byte at least, a cleared one nothing (R33) -/
  fuBufActive : d.fuActive = !d.fuBuf.isEmpty

/-- The configuration registers hold legal values (R40). -/
structure CsrInv (c : Csr) : Prop where
  late : c.lateThreshold.toNat ≤ 32767
  groups : 1 ≤ c.grpMaxGroups.toNat
  restartLow : 2 ≤ c.restartGap.toNat
  restartHigh : c.restartGap.toNat ≤ 32767
  fuGap : c.fuGapThreshold.toNat ≤ 32768
  clock : 1 ≤ c.clockRateHz.toNat

/-- `last_status` holds the code of a status a command ends with (R36, R300); S_INSUFFICIENT is
never one. -/
def StatusInv (v : BitVec 8) : Prop := ∃ st : Status, st ≠ .sInsufficient ∧ v = st.code

/-- The invariant between commands of the block with the parameters `P`. -/
structure Inv (P : Params) (s : State) : Prop where
  gf : GfInv P s.gf
  rob : RobInv s.rob
  grp : GrpInv s.grp
  dep : DepInv s.dep
  csr : CsrInv s.csr
  status : StatusInv s.lastStatus

/-! The terms the statements use. -/

/-- `s` after a command that changes nothing else: it has emitted `recs` and its closing record, and
`last_status` holds its status (R36, R300). -/
def State.ended (s : State) (opcode : Byte) (recs : List Record) (st : Status) : State :=
  { s with lastStatus := st.code, oq := s.oq ++ recs ++ [.done opcode st] }

/-- The command `i` answers the next state `t` in `s`, at the parameters `P`; and so does `exec`, where
`P` is the default. -/
def Answers (P : Params) (i : Instr) (s t : State) : Prop :=
  execWith P i s = .next t ∧ (P = paramsDefault → exec i s = .next t)

/-- Commands executed one after another (R68 (a), (b)). -/
def runAll : List Instr → State → Host.Outcome State Fault Refusal
  | [], s => .next s
  | i :: is, s =>
    match exec i s with
    | .next t => runAll is t
    | .fault r => .fault r
    | .refused r => .refused r

/-- `out[j] = Σ⊕_c coeffs[c] ⊗ rows[c][j]` for each offset `j` (R150, R162). -/
def laneRow (F : GfField) (k blen : Nat) (coeffs : List Byte) (rows : List Bytes) : Bytes :=
  (List.range blen).map (fun j =>
    gsum ((List.range k).map (fun c => gmul F (coeffs.getD c 0) (byteAt (rows.getD c []) j))))

/-- `b[r]` of R160: block `r` of the code word of the data rows `d`. -/
def codeBlock (P : GfParams) (k blen : Nat) (d : List Bytes) (r : Nat) : Bytes :=
  if r < k then d.getD r [] else laneRow P.field k blen (encRow P k r) d

/-- The parity indices of an index list are pairwise distinct (R158). -/
def parityDistinct (k : Nat) (idx : List Nat) : Prop := (idx.filter (fun x => decide (k ≤ x))).Nodup

/-- The records read as a walk of `expected` (R200): a `RobEmit` must carry it and moves it by one, a
`RobSkip` must start at it and moves it forward by 1 to 32768; `none` when a record does not fit. -/
def robTrace : Seq → List Record → Option Seq
  | e, [] => some e
  | e, .robEmit pkt _ :: rest => if pkt.seq = e then robTrace (e + 1) rest else none
  | e, .robSkip a b :: rest =>
    if a = e ∧ 1 ≤ sdist b a ∧ sdist b a ≤ 32768 then robTrace b rest else none
  | e, _ :: rest => robTrace e rest

/-- An `AccessUnit` record is not empty and its flags say what its list holds (R271, R273); any other
record passes. -/
def goodUnit : Record → Prop
  | .accessUnit _ keyframe hasParamSets nals =>
    nals ≠ [] ∧ keyframe = hasNal 5 nals ∧ hasParamSets = (hasNal 7 nals && hasNal 8 nals)
  | _ => True

end Sys2Proof.Machine
end

