-- ==== Sys2Proof/Certificates/Slice0/Obligations.lean ====
section
/-! DEFINITION. The statements for the provers. `State.ended` (Safety.lean) is the state that differs
from its argument only in `last_status` and the records appended to OQ, so an equation with it states
the frame of a command as well. `Answers P i s t` (Safety.lean) says that the command `i` answers the
next state `t` in `s` at the parameters `P` (R9, R38), and so does `exec`, the machine at the default
parameters, when `P` is the default. -/

open Sys2Proof Sys2Proof.Machine

/-! ## GF -/

/-- GF.INIT (R128): the tables are built once, for the machine's field; nothing else but `last_status`
and OQ changes. -/
def Obligations.GfInitBuildsTablesOnce : Prop :=
  ∀ (P : Params) (s : State),
    (s.fatal = true → Answers P .gfInit s (s.ended 0x01 [] .eFaulted)) ∧
    (s.fatal = false → s.gf.gfReady = true → Answers P .gfInit s (s.ended 0x01 [] .ok)) ∧
    (s.fatal = false → s.gf.gfReady = false →
      Answers P .gfInit s
        ({ s with gf := { gfReady := true, tables := .built P.gf.field } }.ended 0x01 [] .ok))

/-- What the built tables hold (R121, R122, R123), for every legal field. -/
def Obligations.TablesHoldFieldValues : Prop :=
  ∀ F : GfField, FieldLegal F →
    ((expOf (.built F)).length = 510 ∧
      (∀ i, i ≤ 254 → (expOf (.built F)).getD i 0 = gpow F F.alpha i) ∧
      (∀ i, 255 ≤ i → i ≤ 509 → (expOf (.built F)).getD i 0 = (expOf (.built F)).getD (i - 255) 0) ∧
      (∀ i, i ≤ 254 → (expOf (.built F)).getD i 0 ≠ 0) ∧
      (∀ a : Byte, a ≠ 0 → ∃ i, i ≤ 254 ∧ (expOf (.built F)).getD i 0 = a) ∧
      (∀ i j, i ≤ 254 → j ≤ 254 →
        (expOf (.built F)).getD i 0 = (expOf (.built F)).getD j 0 → i = j)) ∧
    ((logOf (.built F)).length = 256 ∧
      (∀ a : Byte, a ≠ 0 → ((logOf (.built F)).getD a.toNat 0).toNat ≤ 254 ∧
        (expOf (.built F)).getD ((logOf (.built F)).getD a.toNat 0).toNat 0 = a)) ∧
    ((invOf (.built F)).length = 256 ∧
      (∀ a : Byte, a ≠ 0 → (invOf (.built F)).getD a.toNat 0 = ginv F a ∧
        gmul F a ((invOf (.built F)).getD a.toNat 0) = 0x01)) ∧
    ((mulOf (.built F)).length = 256 ∧ (∀ row ∈ mulOf (.built F), row.length = 256) ∧
      (∀ a b : Byte, ((mulOf (.built F)).getD a.toNat []).getD b.toNat 0 = gmul F a b) ∧
      (∀ a : Byte, ((mulOf (.built F)).getD 0 []).getD a.toNat 0 = 0 ∧
        ((mulOf (.built F)).getD a.toNat []).getD 0 0 = 0))

/-- The product is the polynomial product reduced modulo `GF_POLY`, and the two table forms give the
same byte (R124, which marks that equality as its own inference: "[derived: from rules R121, R122,
R123]"). `clmul` is the product of polynomials without reduction. -/
def Obligations.ProductFormsAgree : Prop :=
  ∀ F : GfField, FieldLegal F → ∀ a b : Byte,
    (∃ q : Nat, q < 128 ∧
      clmul a.toNat b.toNat = clmul F.poly.toNat q ^^^ (gmul F a b).toNat) ∧
    mulByLog (.built F) a b = gmul F a b ∧
    mulByTable (.built F) a b = gmul F a b ∧
    (a ≠ 0x00 → b ≠ 0x00 →
      ((logOf (.built F)).getD a.toNat 0).toNat + ((logOf (.built F)).getD b.toNat 0).toNat ≤ 508) ∧
    gmul F a 0x00 = 0x00 ∧ gmul F 0x00 a = 0x00 ∧ gmul F a 0x01 = a

/-- The field axioms (R127). -/
def Obligations.FieldLawsHold : Prop :=
  ∀ F : GfField, FieldLegal F → ∀ a b c : Byte,
    gadd (gadd a b) c = gadd a (gadd b c) ∧ gadd a b = gadd b a ∧
    gmul F (gmul F a b) c = gmul F a (gmul F b c) ∧ gmul F a b = gmul F b a ∧
    gmul F a (gadd b c) = gadd (gmul F a b) (gmul F a c) ∧
    gadd a 0x00 = a ∧ gmul F a 0x01 = a ∧ gadd a a = 0x00 ∧
    (a ≠ 0x00 → ∃ x : Byte, gmul F a x = 0x01 ∧ ∀ y : Byte, gmul F a y = 0x01 → y = x) ∧
    (gmul F a b = 0x00 → a = 0x00 ∨ b = 0x00)

/-- `MatInv` gives the unique two-sided inverse, or `Singular` when there is none (R130). -/
def Obligations.MatInvIsTheInverse : Prop :=
  ∀ F : GfField, FieldLegal F → ∀ (k : Nat) (A : Matrix8), square k A = true →
    (∀ B : Matrix8, matInv F k A = some B →
      square k B = true ∧ matMul F k k A B = identity k ∧ matMul F k k B A = identity k ∧
      ∀ C : Matrix8, square k C = true → matMul F k k A C = identity k →
        matMul F k k C A = identity k → C = B) ∧
    (matInv F k A = none →
      ∀ C : Matrix8, square k C = true →
        ¬(matMul F k k A C = identity k ∧ matMul F k k C A = identity k))

/-! ## ECE -/

/-- The encoding matrix is the systematic Vandermonde construction (R144): the first k rows are the
identity, the others the product of the lower Vandermonde block and the inverse of the upper one. -/
def Obligations.EncodingMatrixIsVandermonde : Prop :=
  ∀ P : GfParams, GfLegal P → ∀ k n : Nat, 1 ≤ k → k ≤ n → n ≤ 256 →
    (enc P k n).length = n ∧ (enc P k n).take k = identity k ∧
    ∃ T : Matrix8, matInv P.field k ((vandermonde P n k).take k) = some T ∧
      (enc P k n).drop k = matMul P.field k k ((vandermonde P n k).drop k) T

/-- Any k rows of the encoding matrix form an invertible matrix (R147). -/
def Obligations.AnyKRowsAreInvertible : Prop :=
  ∀ P : GfParams, GfLegal P → ∀ k n : Nat, 1 ≤ k → k ≤ n → n ≤ 256 →
    ∀ rows : List Nat, rows.length = k → rows.Nodup → (∀ r ∈ rows, r < n) →
      ∃ B : Matrix8, matInv P.field k (rows.map (fun r => (enc P k n).getD r [])) = some B

/-- The round-trip law (R160): decoding any k blocks of a code word gives the data rows back. -/
def Obligations.RoundTripLaw : Prop :=
  ∀ P : GfParams, GfLegal P → ∀ (k n blen : Nat) (d : List Bytes) (idx : List Nat),
    1 ≤ k → k ≤ n → n ≤ 256 → d.length = k → (∀ r ∈ d, r.length = blen) → idx.length = k →
    (∀ i, i < k → idx.getD i 0 < n ∧ (idx.getD i 0 < k → idx.getD i 0 = i)) →
    parityDistinct k idx →
    engineDecode P true k n blen idx (idx.map (codeBlock P k blen d)) = .ok d

/-- ECE.NEWMATRIX (R145). -/
def Obligations.NewMatrixEmitsParityRows : Prop :=
  ∀ (P : Params) (k n : BitVec 9) (s : State),
    (s.fatal = true → Answers P (.eceNewmatrix k n) s (s.ended 0x02 [] .eFaulted)) ∧
    (s.fatal = false → s.gf.gfReady = false →
      Answers P (.eceNewmatrix k n) s (s.ended 0x02 [] .eNoinit)) ∧
    (s.fatal = false → s.gf.gfReady = true →
      ¬(1 ≤ k.toNat ∧ k.toNat ≤ n.toNat ∧ n.toNat ≤ 256) →
      Answers P (.eceNewmatrix k n) s ({ s with fatal := true }.ended 0x02 [] .eKn)) ∧
    (s.fatal = false → s.gf.gfReady = true → 1 ≤ k.toNat → k.toNat ≤ n.toNat → n.toNat ≤ 256 →
      Answers P (.eceNewmatrix k n) s
        (s.ended 0x02 [.matrix k n ((enc P.gf k.toNat n.toNat).drop k.toNat)] .ok))

/-- ECE.ENCODE (R150): each byte of a requested row is the sum over the data rows. -/
def Obligations.EncodeComputesParityRows : Prop :=
  ∀ (P : Params) (k n : BitVec 9) (blen : BitVec 16) (blocks : List (BitVec 16)) (rows : List Bytes)
    (s : State),
    (∀ r ∈ rows, r.length = blen.toNat) →
    (s.fatal = true →
      Answers P (.eceEncode k n blen blocks rows) s (s.ended 0x03 [] .eFaulted)) ∧
    (s.fatal = false → s.gf.gfReady = false →
      Answers P (.eceEncode k n blen blocks rows) s (s.ended 0x03 [] .eNoinit)) ∧
    (s.fatal = false → s.gf.gfReady = true →
      ¬(1 ≤ k.toNat ∧ k.toNat ≤ n.toNat ∧ n.toNat ≤ 256) →
      Answers P (.eceEncode k n blen blocks rows) s (s.ended 0x03 [] .eKn)) ∧
    (s.fatal = false → s.gf.gfReady = true → 1 ≤ k.toNat → k.toNat ≤ n.toNat → n.toNat ≤ 256 →
      (rows.length ≠ k.toNat →
        Answers P (.eceEncode k n blen blocks rows) s (s.ended 0x03 [] .eRows)) ∧
      (rows.length = k.toNat → (∃ b ∈ blocks, b.toNat < k.toNat ∨ n.toNat ≤ b.toNat) →
        Answers P (.eceEncode k n blen blocks rows) s (s.ended 0x03 [] .eIndex)) ∧
      (rows.length = k.toNat → (∀ b ∈ blocks, k.toNat ≤ b.toNat ∧ b.toNat < n.toNat) →
        Answers P (.eceEncode k n blen blocks rows) s
          (s.ended 0x03
            [.rows (BitVec.ofNat 16 blocks.length) blen blocks
              (blocks.map (fun b => laneRow P.gf.field k.toNat blen.toNat
                ((enc P.gf k.toNat n.toNat).getD b.toNat []) rows))] .ok)))

/-- ECE.BUILDDEC (R155): the decode matrix is the inverse of `DecInput`, with the identity row at
every primary position; and its rejections in their order. For every legal choice of the parameters. -/
def Obligations.BuildDecEmitsInverse : Prop :=
  ∀ (P : Params) (k n : BitVec 9) (idx : List (BitVec 16)) (s : State), GfLegal P.gf →
    (s.fatal = true → Answers P (.eceBuilddec k n idx) s (s.ended 0x04 [] .eFaulted)) ∧
    (s.fatal = false → s.gf.gfReady = false →
      Answers P (.eceBuilddec k n idx) s (s.ended 0x04 [] .eNoinit)) ∧
    (s.fatal = false → s.gf.gfReady = true →
      ¬(1 ≤ k.toNat ∧ k.toNat ≤ n.toNat ∧ n.toNat ≤ 256) →
      Answers P (.eceBuilddec k n idx) s (s.ended 0x04 [] .eKn)) ∧
    (s.fatal = false → s.gf.gfReady = true → 1 ≤ k.toNat → k.toNat ≤ n.toNat → n.toNat ≤ 256 →
      (idx.length ≠ k.toNat →
        Answers P (.eceBuilddec k n idx) s (s.ended 0x04 [] .eRows)) ∧
      (idx.length = k.toNat →
        (∃ i, i < k.toNat ∧ (n.toNat ≤ (idx.getD i 0).toNat ∨
          ((idx.getD i 0).toNat < k.toNat ∧ (idx.getD i 0).toNat ≠ i))) →
        Answers P (.eceBuilddec k n idx) s (s.ended 0x04 [] .eIndex)) ∧
      (idx.length = k.toNat →
        (∀ i, i < k.toNat → (idx.getD i 0).toNat < n.toNat ∧
          ((idx.getD i 0).toNat < k.toNat → (idx.getD i 0).toNat = i)) →
        (¬parityDistinct k.toNat (idx.map BitVec.toNat) →
          Answers P (.eceBuilddec k n idx) s (s.ended 0x04 [] .eSingular)) ∧
        (parityDistinct k.toNat (idx.map BitVec.toNat) →
          ∃ B : Matrix8, Answers P (.eceBuilddec k n idx) s (s.ended 0x04 [.decMatrix k B] .ok) ∧
            square k.toNat B = true ∧
            matMul P.gf.field k.toNat k.toNat
              (decInput P.gf k.toNat (idx.map BitVec.toNat)) B = identity k.toNat ∧
            matMul P.gf.field k.toNat k.toNat B
              (decInput P.gf k.toNat (idx.map BitVec.toNat)) = identity k.toNat ∧
            ∀ i, i < k.toNat → (idx.getD i 0).toNat < k.toNat → B.getD i [] = unitRow k.toNat i)))

/-- ECE.DECODE (R159, R162): a row received at its own index passes through, every other row is the
sum of the input rows weighted by the row of the decode matrix. For every legal choice of
the parameters. -/
def Obligations.DecodeRecomputesMissingRows : Prop :=
  ∀ (P : Params) (k n : BitVec 9) (blen : BitVec 16) (idx : List (BitVec 16)) (ins : List Bytes)
    (s : State),
    GfLegal P.gf → (∀ r ∈ ins, r.length = blen.toNat) →
    (s.fatal = true → Answers P (.eceDecode k n blen idx ins) s (s.ended 0x05 [] .eFaulted)) ∧
    (s.fatal = false → s.gf.gfReady = false →
      Answers P (.eceDecode k n blen idx ins) s (s.ended 0x05 [] .eNoinit)) ∧
    (s.fatal = false → s.gf.gfReady = true →
      ¬(1 ≤ k.toNat ∧ k.toNat ≤ n.toNat ∧ n.toNat ≤ 256) →
      Answers P (.eceDecode k n blen idx ins) s (s.ended 0x05 [] .eKn)) ∧
    (s.fatal = false → s.gf.gfReady = true → 1 ≤ k.toNat → k.toNat ≤ n.toNat → n.toNat ≤ 256 →
      (idx.length ≠ k.toNat ∨ ins.length ≠ k.toNat →
        Answers P (.eceDecode k n blen idx ins) s (s.ended 0x05 [] .eRows)) ∧
      (idx.length = k.toNat → ins.length = k.toNat →
        (∃ i, i < k.toNat ∧ (n.toNat ≤ (idx.getD i 0).toNat ∨
          ((idx.getD i 0).toNat < k.toNat ∧ (idx.getD i 0).toNat ≠ i))) →
        Answers P (.eceDecode k n blen idx ins) s (s.ended 0x05 [] .eIndex)) ∧
      (idx.length = k.toNat → ins.length = k.toNat →
        (∀ i, i < k.toNat → (idx.getD i 0).toNat < n.toNat ∧
          ((idx.getD i 0).toNat < k.toNat → (idx.getD i 0).toNat = i)) →
        (¬parityDistinct k.toNat (idx.map BitVec.toNat) →
          Answers P (.eceDecode k n blen idx ins) s (s.ended 0x05 [] .eSingular)) ∧
        (parityDistinct k.toNat (idx.map BitVec.toNat) →
          ∃ B : Matrix8, decMat P.gf k.toNat (idx.map BitVec.toNat) = some B ∧
            Answers P (.eceDecode k n blen idx ins) s
              (s.ended 0x05
                [.rows (BitVec.ofNat 16 k.toNat) blen ((List.range k.toNat).map (BitVec.ofNat 16))
                  ((List.range k.toNat).map (fun i =>
                    if (idx.getD i 0).toNat < k.toNat then ins.getD i []
                    else laneRow P.gf.field k.toNat blen.toNat (B.getD i []) ins))] .ok))))

/-! ## RTP -/

/-- `hdr` of R170: the fixed header, the CSRC list, and the extension when there is one. -/
abbrev rtpHeaderBytes (B : Bytes) : Nat :=
  12 + 4 * ((byteAt B 0).extractLsb' 0 4).toNat +
    (if (byteAt B 0).getLsbD 4
      then 4 + 4 * (be16 B (12 + 4 * ((byteAt B 0).extractLsb' 0 4).toNat + 2)).toNat else 0)

/-- The padding count of R177. -/
abbrev rtpPadding (B : Bytes) : Nat :=
  if (byteAt B 0).getLsbD 5 then (byteAt B (B.length - 1)).toNat else 0

/-- RTP.PARSE (R170), whole: the tests in their order, and the parsed fields. -/
def Obligations.ParserTestsAndFields : Prop :=
  ∀ (B : Bytes) (s : State),
    (s.fatal = true → exec (.rtpParse B) s = .next (s.ended 0x10 [] .eFaulted)) ∧
    (s.fatal = false →
      (B.length < 12 →
        exec (.rtpParse B) s =
          .next ({ s with rtpMalformed := s.rtpMalformed + 1 }.ended 0x10 [.drop .rtp .eRtpShort]
            .eRtpShort)) ∧
      (12 ≤ B.length → (byteAt B 0).extractLsb' 6 2 ≠ 2#2 →
        exec (.rtpParse B) s =
          .next ({ s with rtpMalformed := s.rtpMalformed + 1 }.ended 0x10 [.drop .rtp .eRtpVersion]
            .eRtpVersion)) ∧
      (12 ≤ B.length → (byteAt B 0).extractLsb' 6 2 = 2#2 →
        (B.length < rtpHeaderBytes B →
          exec (.rtpParse B) s =
            .next ({ s with rtpMalformed := s.rtpMalformed + 1 }.ended 0x10
              [.drop .rtp .eRtpHdrlen] .eRtpHdrlen)) ∧
        (rtpHeaderBytes B ≤ B.length → B.length ≤ rtpHeaderBytes B + rtpPadding B →
          exec (.rtpParse B) s =
            .next ({ s with rtpMalformed := s.rtpMalformed + 1 }.ended 0x10
              [.drop .rtp .eRtpPayload] .eRtpPayload)) ∧
        (rtpHeaderBytes B + rtpPadding B < B.length →
          exec (.rtpParse B) s =
            .next (s.ended 0x10
              [.parsed
                { v := 2#2, p := (byteAt B 0).getLsbD 5, x := (byteAt B 0).getLsbD 4
                  cc := (byteAt B 0).extractLsb' 0 4, m := (byteAt B 1).getLsbD 7
                  pt := (byteAt B 1).extractLsb' 0 7, seq := be16 B 2, ts := be32 B 4
                  ssrc := be32 B 8, payloadOff := BitVec.ofNat 16 (rtpHeaderBytes B)
                  payloadLen :=
                    BitVec.ofNat 16 (B.length - rtpHeaderBytes B - rtpPadding B) }] .ok))))

/-- The payload range lies inside the datagram and is not empty (R62). -/
def Obligations.PayloadRangeInsideDatagram : Prop :=
  ∀ (B : Bytes) (s t : State) (h : ParsedRtp), B.length ≤ Config.maxLen →
    exec (.rtpParse B) s = .next t → t.oq = s.oq ++ [.parsed h, .done 0x10 .ok] →
    h.payloadOff.toNat + h.payloadLen.toNat ≤ B.length ∧ 1 ≤ h.payloadLen.toNat

/-! ## ROB -/

/-- ROB.ACCEPT (R187), whole, over the procedures R193, R194 and R203 define. -/
def Obligations.AcceptRunsItsProcedure : Prop :=
  ∀ (pkt : Packet) (arrival : W32) (s : State) (r : Rob),
    r = (if s.rob.started then s.rob else { s.rob with started := true, expected := pkt.seq }) →
    (s.fatal = true → exec (.robAccept pkt arrival) s = .next (s.ended 0x20 [] .eFaulted)) ∧
    (s.fatal = false → pkt.payload = [] →
      exec (.robAccept pkt arrival) s = .next (s.ended 0x20 [] .eOperand)) ∧
    (s.fatal = false → pkt.payload ≠ [] →
      s.csr.lateThreshold.toNat < sdist r.expected pkt.seq → sdist r.expected pkt.seq < 32768 →
      exec (.robAccept pkt arrival) s =
        .next ({ s with rob := { r with lateDropped := r.lateDropped + 1 } }.ended 0x20
          [.robLate pkt.seq (BitVec.ofNat 16 (sdist r.expected pkt.seq))] .sLate)) ∧
    (s.fatal = false → pkt.payload ≠ [] →
      ¬(s.csr.lateThreshold.toNat < sdist r.expected pkt.seq ∧
        sdist r.expected pkt.seq < 32768) →
      ∀ (r1 : Rob) (x y : RobOut),
        r1 = updateStats s.csr.restartGap pkt arrival (!s.rob.started) r →
        x = flushInOrder
          ({ r1 with buf := kvPut pkt.seq { pkt := pkt, arrival := arrival } r1.buf }, []) →
        y = (if x.1.buf.length > s.csr.robWindow.toNat then forceAdvance x else x) →
        exec (.robAccept pkt arrival) s =
          .next ({ s with rob := { y.1 with timer := !y.1.buf.isEmpty } }.ended 0x20 y.2 .ok))

/-- The first packet initialises `expected` and is emitted at once (R188); the statistics follow. -/
def Obligations.FirstPacketEmittedAtOnce : Prop :=
  ∀ (pkt : Packet) (arrival : W32) (s : State), s.fatal = false → pkt.payload ≠ [] →
    RobInv s.rob → s.rob.started = false →
    exec (.robAccept pkt arrival) s =
      .next ({ s with
        rob := { s.rob with
          started := true, expected := pkt.seq + 1, buf := [], timer := false
          highest := pkt.seq, received := s.rob.received + 1
          bytes := s.rob.bytes + BitVec.ofNat 32 pkt.payload.length
          jitValid := true, prevTransit := arrival - pkt.ts } }.ended 0x20
        [.robEmit pkt arrival] .ok)

/-- A packet ahead of `expected` that the window has room for waits in `buf` and arms the timer (R189,
R190, R198). -/
def Obligations.PacketAheadWaits : Prop :=
  ∀ (pkt : Packet) (arrival : W32) (s : State), s.fatal = false → pkt.payload ≠ [] →
    RobInv s.rob → s.rob.started = true → 1 ≤ sdist pkt.seq s.rob.expected →
    sdist pkt.seq s.rob.expected ≤ 32768 → s.rob.buf.length < s.csr.robWindow.toNat →
    ∃ t : State, exec (.robAccept pkt arrival) s = .next t ∧
      t.oq = s.oq ++ [.done 0x20 .ok] ∧ t.lastStatus = 0x00 ∧
      t.rob.expected = s.rob.expected ∧ t.rob.timer = true ∧ t.rob.started = true ∧
      kvGet pkt.seq t.rob.buf = some { pkt := pkt, arrival := arrival } ∧
      (∀ q : Seq, q ≠ pkt.seq → kvGet q t.rob.buf = kvGet q s.rob.buf) ∧
      t.rob.lateDropped = s.rob.lateDropped ∧
      t.gf = s.gf ∧ t.grp = s.grp ∧ t.dep = s.dep ∧ t.rtpMalformed = s.rtpMalformed ∧
      t.fatal = s.fatal ∧ t.csr = s.csr ∧ t.port = s.port ∧ t.portEnd = s.portEnd

/-- FlushInOrder (R193) emits the run of entries from `expected` on, removes them, and stops where the
run does. -/
def Obligations.FlushEmitsTheRun : Prop :=
  ∀ (r : Rob) (out : List Record), KvSorted r.buf →
    ∃ n : Nat, n ≤ r.buf.length ∧
      (∀ i, i < n → (kvGet (r.expected + BitVec.ofNat 16 i) r.buf).isSome = true) ∧
      flushInOrder (r, out) =
        ({ r with
            expected := r.expected + BitVec.ofNat 16 n
            buf := r.buf.filter (fun e =>
              !((List.range n).any (fun i => e.1 == r.expected + BitVec.ofNat 16 i))) },
          out ++ (List.range n).filterMap (fun i =>
            (kvGet (r.expected + BitVec.ofNat 16 i) r.buf).map
              (fun e => Record.robEmit e.pkt e.arrival))) ∧
      kvGet (flushInOrder (r, out)).1.expected (flushInOrder (r, out)).1.buf = none

/-- ForceAdvance (R194, R195, R197): skip to the entry of least forward distance, flush from there,
discard what is then behind; with no entry ahead only the discard happens. -/
def Obligations.ForceAdvanceSkipsToNearest : Prop :=
  ∀ (r : Rob) (out : List Record), KvSorted r.buf →
    ((∀ e ∈ r.buf, ¬(1 ≤ sdist e.1 r.expected ∧ sdist e.1 r.expected ≤ 32768)) →
      forceAdvance (r, out) =
        ({ r with buf := r.buf.filter (fun e =>
            !(decide (0 < sdist r.expected e.1) && decide (sdist r.expected e.1 < 32768))) },
          out)) ∧
    (∀ e ∈ r.buf, 1 ≤ sdist e.1 r.expected → sdist e.1 r.expected ≤ 32768 →
      (∀ q ∈ r.buf, 1 ≤ sdist q.1 r.expected → sdist q.1 r.expected ≤ 32768 →
        sdist e.1 r.expected ≤ sdist q.1 r.expected) →
      ∀ x : RobOut,
        x = flushInOrder ({ r with expected := e.1 }, out ++ [.robSkip r.expected e.1]) →
        forceAdvance (r, out) =
          ({ x.1 with buf := x.1.buf.filter (fun q =>
              !(decide (0 < sdist x.1.expected q.1) && decide (sdist x.1.expected q.1 < 32768))) },
            x.2))

/-- UpdateStats: counting, loss and `highest` (R202, R203, R204), and the jitter update of R205 while
`jitter_q4 + 8` does not wrap (what happens beyond is the model's choice, log 13). -/
def Obligations.StatisticsFollowRules : Prop :=
  ∀ (restartGap : BitVec 16) (pkt : Packet) (arrival : W32) (first : Bool) (r r' : Rob),
    r' = updateStats restartGap pkt arrival first r →
    r'.received = r.received + 1 ∧
    r'.bytes = r.bytes + BitVec.ofNat 32 pkt.payload.length ∧
    (first = true → r'.highest = pkt.seq ∧ r'.lost = r.lost) ∧
    (first = false → 0 < sdist pkt.seq r.highest → sdist pkt.seq r.highest < 32768 →
      r'.highest = pkt.seq ∧
      r'.lost = (if sdist pkt.seq r.highest < restartGap.toNat
        then r.lost + BitVec.ofNat 32 (sdist pkt.seq r.highest - 1) else r.lost)) ∧
    (first = false → ¬(0 < sdist pkt.seq r.highest ∧ sdist pkt.seq r.highest < 32768) →
      r'.highest = r.highest ∧ r'.lost = r.lost) ∧
    r'.prevTransit = arrival - pkt.ts ∧ r'.jitValid = true ∧
    (r.jitValid = false → r'.jitterQ4 = r.jitterQ4) ∧
    (r.jitValid = true → r.jitterQ4.toNat + 8 < 2 ^ 32 →
      r'.jitterQ4 = BitVec.ofNat 32
        (r.jitterQ4.toNat + (arrival - pkt.ts - r.prevTransit).toInt.natAbs
          - (r.jitterQ4.toNat + 8) / 16)) ∧
    r'.started = r.started ∧ r'.expected = r.expected ∧ r'.buf = r.buf ∧ r'.timer = r.timer ∧
    r'.lateDropped = r.lateDropped

/-- ROB.TIMER (R199), whole, over ForceAdvance. -/
def Obligations.TimerForcesAdvance : Prop :=
  ∀ s : State,
    (s.fatal = true → exec .robTimer s = .next (s.ended 0x21 [] .eFaulted)) ∧
    (s.fatal = false → s.rob.timer = false →
      exec .robTimer s = .next (s.ended 0x21 [] .sNotArmed)) ∧
    (s.fatal = false → s.rob.timer = true →
      ∀ x : RobOut, x = forceAdvance ({ s.rob with timer := false }, []) →
        exec .robTimer s =
          .next ({ s with rob := { x.1 with timer := !x.1.buf.isEmpty } }.ended 0x21 x.2 .ok))

/-- ROB.RESTART (R208), whole: the unit returns to its reset values, every other unit is untouched. -/
def Obligations.RestartClearsReorderBuffer : Prop :=
  ∀ s : State,
    (s.fatal = true → exec .robRestart s = .next (s.ended 0x22 [] .eFaulted)) ∧
    (s.fatal = false →
      exec .robRestart s =
        .next ({ s with
          rob := { started := false, buf := [], timer := false, expected := 0, highest := 0
                   received := 0, lost := 0, bytes := 0, lateDropped := 0, jitterQ4 := 0
                   jitValid := false, prevTransit := 0 } }.ended 0x22 [] .ok))

/-- Every emitted packet carries the `expected` of its moment, which moves only by one or by a skip
forward of 1 to 32768 (R200): over any commands without reset, restart and teardown. -/
def Obligations.EmissionFollowsExpected : Prop :=
  ∀ (cmds : List Instr) (s t : State), RobInv s.rob →
    (∀ i ∈ cmds, i ≠ .sysReset ∧ i ≠ .robRestart ∧ i ≠ .sysTeardown) →
    runAll cmds s = .next t →
    ∃ (recs : List Record) (e : Seq), t.oq = s.oq ++ recs ∧
      (s.rob.started = true → e = s.rob.expected) ∧ robTrace e recs = some t.rob.expected

/-- `|buf|` stays within ROB_WINDOW between commands while ROB_WINDOW is not rewritten (R196, R30 (c)). -/
def Obligations.WindowBoundsTheBuffer : Prop :=
  ∀ (i : Instr) (s t : State), (∀ v : W32, i ≠ .csrWr 0x01 v) → RobInv s.rob →
    s.rob.buf.length ≤ s.csr.robWindow.toNat → exec i s = .next t →
    t.rob.buf.length ≤ t.csr.robWindow.toNat

/-! ## GRP -/

/-- The first block of a new group opens its record when there is room (R220, R222): nothing is
emitted but `Done`. -/
def Obligations.NewGroupOpensRecord : Prop :=
  ∀ (P : Params) (gid : W32) (index : BitVec 16) (k n : BitVec 8) (payload : Bytes) (s : State),
    s.fatal = false → payload ≠ [] → payload.length ≤ Config.maxLen →
    (∀ r ∈ s.grp.groups, r.gid ≠ gid) → s.grp.groups.length < s.csr.grpMaxGroups.toNat →
    2 ≤ k.toNat → k.toNat ≤ n.toNat → index.toNat < n.toNat →
    Answers P (.grpAdd gid index k n payload) s
      ({ s with
        grp := { s.grp with
          groups := s.grp.groups ++
            [({ gid := gid, k := k, n := n, blocks := [(index, payload)]
                maxlen := BitVec.ofNat 16 payload.length } : Group)] } }.ended 0x30 [] .ok)

/-- A block of an existing group below its k-th is recorded (R225): a repeated index replaces and does
not count, `maxlen` never shrinks; the operands k and n are not looked at. -/
def Obligations.BlockIsRecorded : Prop :=
  ∀ (P : Params) (gid : W32) (index : BitVec 16) (k n : BitVec 8) (payload : Bytes) (s : State)
    (before after : List Group) (r : Group),
    s.fatal = false → payload ≠ [] → payload.length ≤ Config.maxLen → GrpInv s.grp →
    s.grp.groups = before ++ r :: after → r.gid = gid → index.toNat < r.n.toNat →
    (kvGet index r.blocks = none → r.blocks.length + 1 < r.k.toNat) →
    ∃ r' : Group,
      Answers P (.grpAdd gid index k n payload) s
        ({ s with grp := { s.grp with groups := before ++ r' :: after } }.ended 0x30 [] .ok) ∧
      r'.gid = gid ∧ r'.k = r.k ∧ r'.n = r.n ∧
      r'.maxlen.toNat = max r.maxlen.toNat payload.length ∧
      kvGet index r'.blocks = some payload ∧
      (∀ j : BitVec 16, j ≠ index → kvGet j r'.blocks = kvGet j r.blocks) ∧
      r'.blocks.length =
        (if (kvGet index r.blocks).isSome then r.blocks.length else r.blocks.length + 1)

/-- The operand and metadata tests (R220, R226). -/
def Obligations.MetadataIsTested : Prop :=
  ∀ (P : Params) (gid : W32) (index : BitVec 16) (k n : BitVec 8) (payload : Bytes) (s : State),
    s.fatal = false →
    (payload = [] → Answers P (.grpAdd gid index k n payload) s (s.ended 0x30 [] .eOperand)) ∧
    (payload ≠ [] → (∀ r ∈ s.grp.groups, r.gid ≠ gid) →
      ¬(1 ≤ k.toNat ∧ k.toNat ≤ n.toNat ∧ index.toNat < n.toNat) →
      Answers P (.grpAdd gid index k n payload) s (s.ended 0x30 [.drop .grp .eMeta] .eMeta)) ∧
    (payload ≠ [] → ∀ r ∈ s.grp.groups, GrpInv s.grp → r.gid = gid →
      (r.n.toNat ≤ index.toNat →
        Answers P (.grpAdd gid index k n payload) s (s.ended 0x30 [.drop .grp .eMeta] .eMeta)) ∧
      (∀ k' n' : BitVec 8,
        execWith P (.grpAdd gid index k n payload) s =
          execWith P (.grpAdd gid index k' n' payload) s ∧
        exec (.grpAdd gid index k n payload) s = exec (.grpAdd gid index k' n' payload) s))

/-- The block that brings the count to k flushes the group inside the same command (R224): the record
leaves, and what FlushGroup emits for it with cause 0 precedes `Done`. -/
def Obligations.ReachingKFlushes : Prop :=
  ∀ (P : Params) (gid : W32) (index : BitVec 16) (k n : BitVec 8) (payload : Bytes) (s : State)
    (r r' : Group) (x : GrpOut),
    s.fatal = false → payload ≠ [] → GrpInv s.grp → r ∈ s.grp.groups → r.gid = gid →
    index.toNat < r.n.toNat → kvGet index r.blocks = none → r.blocks.length + 1 = r.k.toNat →
    r' = { r with
      blocks := kvPut index payload r.blocks
      maxlen := BitVec.ofNat 16 (max r.maxlen.toNat payload.length) } →
    x = emitGroup P.gf s.gf.gfReady r' .countReached
      ({ s.grp with groups := s.grp.groups.filter (fun q => q.gid != gid) }, []) →
    Answers P (.grpAdd gid index k n payload) s ({ s with grp := x.1 }.ended 0x30 x.2 .ok)

/-- A group with k = 1 is complete with its first block, whatever its index (R224, R146: a repetition
code): the block comes out RECOVERED inside the same command, or, without tables, NOT_RECOVERED with
E_NOINIT (R236) when it is the primary one. -/
def Obligations.GroupOfOneFlushesAtOnce : Prop :=
  ∀ (P : Params) (gid : W32) (index : BitVec 16) (n : BitVec 8) (payload : Bytes) (s : State),
    s.fatal = false → payload ≠ [] → payload.length ≤ Config.maxLen →
    (∀ r ∈ s.grp.groups, r.gid ≠ gid) → s.grp.groups.length < s.csr.grpMaxGroups.toNat →
    index.toNat < n.toNat →
    (s.gf.gfReady = true →
      Answers P (.grpAdd gid index 1 n payload) s
        ({ s with grp := { s.grp with fecRecovered := s.grp.fecRecovered + 1 } }.ended 0x30
          [.groupBlock { gid := gid, index := 0, tag := .recovered
                         origLen := BitVec.ofNat 16 payload.length, data := payload },
           .groupDone gid 1 n 1 .recovered .countReached .ok] .ok)) ∧
    (s.gf.gfReady = false →
      Answers P (.grpAdd gid index 1 n payload) s
        ({ s with grp := { s.grp with fecFailed := s.grp.fecFailed + 1 } }.ended 0x30
          ((if index = 0 then
              [Record.groupBlock { gid := gid, index := 0, tag := .notRecovered
                                   origLen := BitVec.ofNat 16 payload.length, data := payload }]
            else []) ++
            [Record.groupDone gid 1 n 1 .notRecovered .countReached .eNoinit]) .ok))

/-- A creating command at the group bound or above it (R223: above it once CSR.WR has lowered
GRP_MAX_GROUPS) first flushes the oldest records, one after another, as NOT_RECOVERED, until the new one
has room: `old` is what leaves, `kept` what stays. Then the new record is appended, or, with k = 1,
flushed at once with its only block (R224). -/
def Obligations.EvictionFlushesOldest : Prop :=
  ∀ (P : Params) (gid : W32) (index : BitVec 16) (k n : BitVec 8) (payload : Bytes) (s : State)
    (old kept : List Group) (new : Group) (evicted : List Record) (g : Grp),
    s.fatal = false → payload ≠ [] → payload.length ≤ Config.maxLen → GrpInv s.grp →
    s.grp.groups = old ++ kept → old ≠ [] → kept.length + 1 = s.csr.grpMaxGroups.toNat →
    (∀ r ∈ s.grp.groups, r.gid ≠ gid) →
    1 ≤ k.toNat → k.toNat ≤ n.toNat → index.toNat < n.toNat →
    new = { gid := gid, k := k, n := n, blocks := [(index, payload)]
            maxlen := BitVec.ofNat 16 payload.length } →
    evicted = old.flatMap (fun r =>
      (primaries r).map (notRecoveredBlock r) ++
        [Record.groupDone r.gid r.k r.n (BitVec.ofNat 8 r.blocks.length) .notRecovered .eviction
          .sInsufficient]) →
    g = { s.grp with
      groups := kept
      fecFailed := s.grp.fecFailed + BitVec.ofNat 32 old.length } →
    (2 ≤ k.toNat →
      Answers P (.grpAdd gid index k n payload) s
        ({ s with grp := { g with groups := kept ++ [new] } }.ended 0x30 evicted .ok)) ∧
    (k.toNat = 1 → ∀ x : GrpOut,
      x = emitGroup P.gf s.gf.gfReady new .countReached (g, evicted) →
      Answers P (.grpAdd gid index k n payload) s ({ s with grp := x.1 }.ended 0x30 x.2 .ok))

/-- GRP_MAX_GROUPS bounds the open groups between commands while it is not rewritten (R32 (a), R223). -/
def Obligations.OpenGroupsAreBounded : Prop :=
  ∀ (i : Instr) (s t : State), (∀ v : W32, i ≠ .csrWr 0x03 v) → CsrInv s.csr → GrpInv s.grp →
    s.grp.groups.length ≤ s.csr.grpMaxGroups.toNat → exec i s = .next t →
    t.grp.groups.length ≤ t.csr.grpMaxGroups.toNat

/-- GRP.EXPIRE (R229, R230): the received primary blocks come out as received, in ascending order; no
record means nothing armed. -/
def Obligations.ExpiryEmitsReceivedPrimaries : Prop :=
  ∀ (P : Params) (gid : W32) (s : State),
    (s.fatal = true → Answers P (.grpExpire gid) s (s.ended 0x31 [] .eFaulted)) ∧
    (s.fatal = false → (∀ r ∈ s.grp.groups, r.gid ≠ gid) →
      Answers P (.grpExpire gid) s (s.ended 0x31 [] .sNotArmed)) ∧
    (s.fatal = false → GrpInv s.grp → ∀ r ∈ s.grp.groups, r.gid = gid →
      Answers P (.grpExpire gid) s
        ({ s with
          grp := { s.grp with
            groups := s.grp.groups.filter (fun q => q.gid != gid)
            fecFailed := s.grp.fecFailed + 1 } }.ended 0x31
          ((List.range r.k.toNat).filterMap (fun i =>
              (kvGet (BitVec.ofNat 16 i) r.blocks).map (fun (b : Bytes) =>
                Record.groupBlock
                  { gid := gid, index := BitVec.ofNat 8 i, tag := .notRecovered
                    origLen := BitVec.ofNat 16 b.length, data := b })) ++
            [Record.groupDone gid r.k r.n (BitVec.ofNat 8 r.blocks.length) .notRecovered .expiry
              .sInsufficient]) .ok))

/-- A flush with k blocks and built tables is never rejected: it emits k rows of `maxlen` bytes tagged
RECOVERED, the received primaries among them padded (R234, R235, R237, R238). -/
def Obligations.CompleteGroupIsRecovered : Prop :=
  ∀ P : GfParams, GfLegal P → ∀ (g : Group) (cause : Cause) (x : GrpOut),
    KvSorted g.blocks → 1 ≤ g.k.toNat → g.k.toNat ≤ g.n.toNat → (∀ e ∈ g.blocks, e.1.toNat < g.n.toNat) →
    (∀ e ∈ g.blocks, e.2.length ≤ g.maxlen.toNat) → g.k.toNat ≤ g.blocks.length →
    ∃ rows : List Bytes, rows.length = g.k.toNat ∧ (∀ r ∈ rows, r.length = g.maxlen.toNat) ∧
      (∀ i b, i < g.k.toNat → kvGet (BitVec.ofNat 16 i) g.blocks = some b →
        rows.getD i [] = b ++ zeros (g.maxlen.toNat - b.length)) ∧
      emitGroup P true g cause x =
        ({ x.1 with fecRecovered := x.1.fecRecovered + 1 },
          x.2 ++ (List.range g.k.toNat).map (fun i =>
              Record.groupBlock
                { gid := g.gid, index := BitVec.ofNat 8 i, tag := .recovered
                  origLen := match kvGet (BitVec.ofNat 16 i) g.blocks with
                    | some b => BitVec.ofNat 16 b.length
                    | none => g.maxlen
                  data := rows.getD i [] }) ++
            [.groupDone g.gid g.k g.n (BitVec.ofNat 8 g.blocks.length) .recovered cause .ok])

/-- A group whose k received blocks are blocks of one code word gives the original data rows back,
bit for bit (R241 (a), for every k and n). -/
def Obligations.GroupRecoversOriginalData : Prop :=
  ∀ P : GfParams, GfLegal P → ∀ (g : Group) (cause : Cause) (x : GrpOut) (d : List Bytes),
    KvSorted g.blocks → 1 ≤ g.k.toNat → g.k.toNat ≤ g.n.toNat → (∀ e ∈ g.blocks, e.1.toNat < g.n.toNat) →
    (∀ e ∈ g.blocks, e.2.length ≤ g.maxlen.toNat) → g.k.toNat ≤ g.blocks.length →
    d.length = g.k.toNat → (∀ r ∈ d, r.length = g.maxlen.toNat) →
    (∀ e ∈ g.blocks, e.2 ++ zeros (g.maxlen.toNat - e.2.length) =
      codeBlock P g.k.toNat g.maxlen.toNat d e.1.toNat) →
    emitGroup P true g cause x =
      ({ x.1 with fecRecovered := x.1.fecRecovered + 1 },
        x.2 ++ (List.range g.k.toNat).map (fun i =>
            Record.groupBlock
              { gid := g.gid, index := BitVec.ofNat 8 i, tag := .recovered
                origLen := match kvGet (BitVec.ofNat 16 i) g.blocks with
                  | some b => BitVec.ofNat 16 b.length
                  | none => g.maxlen
                data := d.getD i [] }) ++
          [Record.groupDone g.gid g.k g.n (BitVec.ofNat 8 g.blocks.length) .recovered cause .ok])

/-- Without tables a complete group falls back to NOT_RECOVERED with E_NOINIT (R236, R343). -/
def Obligations.NoTablesFallsBack : Prop :=
  ∀ (P : GfParams) (g : Group) (cause : Cause) (x : GrpOut), KvSorted g.blocks → 1 ≤ g.k.toNat →
    g.k.toNat ≤ g.n.toNat → (∀ e ∈ g.blocks, e.1.toNat < g.n.toNat) →
    g.k.toNat ≤ g.blocks.length →
    emitGroup P false g cause x =
      ({ x.1 with fecFailed := x.1.fecFailed + 1 },
        x.2 ++ (primaries g).map (notRecoveredBlock g) ++
          [.groupDone g.gid g.k g.n (BitVec.ofNat 8 g.blocks.length) .notRecovered cause .eNoinit])

/-! ## DEP -/

/-- DEP.PACKET (R250), whole, over CheckSeq, AddNal, StapA, FuA and CloseAU. -/
def Obligations.PacketRunsDispatch : Prop :=
  ∀ (seq : Seq) (ts : W32) (m : Bool) (payload : Bytes) (s : State),
    (s.fatal = true → exec (.depPacket seq ts m payload) s = .next (s.ended 0x40 [] .eFaulted)) ∧
    (s.fatal = false → payload = [] →
      exec (.depPacket seq ts m payload) s = .next (s.ended 0x40 [] .eOperand)) ∧
    (s.fatal = false → payload ≠ [] →
      ∀ (x z w : DepOut) (y : DepOut × Status) (typ : Nat),
        x = checkSeq s.csr.fuGapThreshold seq (s.dep, []) →
        typ = ((byteAt payload 0).extractLsb' 0 5).toNat →
        y = (if 1 ≤ typ ∧ typ ≤ 23 then (addNal ts payload x, .ok)
          else if typ = 24 then stapA ts payload x
          else if typ = 28 then fuA ts payload x
          else (x, .eNalType)) →
        z = (if y.2 = .ok then y.1
          else ({ y.1.1 with malformed := y.1.1.malformed + 1 }, y.1.2 ++ [.drop .dep y.2])) →
        w = (if m = true ∧ z.1.auOpen = true then closeAu z else z) →
        exec (.depPacket seq ts m payload) s =
          .next ({ s with dep := w.1 }.ended 0x40 w.2 y.2))

/-- CheckSeq (R256): a packet that is not the next one is a discontinuity, reported with the smaller
of the two distances; a gap above the threshold drops the accumulation. -/
def Obligations.SequenceGapsAreReported : Prop :=
  ∀ (threshold : BitVec 16) (seq : Seq) (d : Dep) (out : List Record),
    (d.started = false ∨ seq = d.lastSeq + 1 →
      checkSeq threshold seq (d, out) = ({ d with started := true, lastSeq := seq }, out)) ∧
    (d.started = true → seq ≠ d.lastSeq + 1 →
      ∀ gap : Nat, gap = min (sdist seq d.lastSeq) (sdist d.lastSeq seq) →
        (gap ≤ threshold.toNat →
          checkSeq threshold seq (d, out) =
            ({ d with discont := d.discont + 1, started := true, lastSeq := seq },
              out ++ [.discontinuity d.lastSeq seq (BitVec.ofNat 16 gap)])) ∧
        (threshold.toNat < gap →
          checkSeq threshold seq (d, out) =
            ({ d with
                discont := d.discont + 1, started := true, lastSeq := seq
                fuActive := false, fuBuf := [] },
              out ++ [.discontinuity d.lastSeq seq (BitVec.ofNat 16 gap)])))

/-- AddNal (R268) with CloseAU (R272): a NAL joins the open unit of its timestamp, or a new one after
the open unit of another timestamp has been emitted. -/
def Obligations.NalJoinsItsUnit : Prop :=
  ∀ (ts : W32) (bytes : Bytes) (d : Dep) (out : List Record) (typ : Nat),
    typ = ((byteAt bytes 0).extractLsb' 0 5).toNat →
    (d.auOpen = true → d.auTs = ts →
      addNal ts bytes (d, out) =
        ({ d with
            auNals := d.auNals ++ [bytes], auKey := d.auKey || typ == 5
            auSps := d.auSps || typ == 7, auPps := d.auPps || typ == 8 },
          out ++ [.nal ts bytes])) ∧
    (d.auOpen = false →
      addNal ts bytes (d, out) =
        ({ d with
            auOpen := true, auTs := ts, auNals := [bytes], auKey := typ == 5
            auSps := typ == 7, auPps := typ == 8 },
          out ++ [.nal ts bytes])) ∧
    (d.auOpen = true → d.auTs ≠ ts →
      addNal ts bytes (d, out) =
        ({ d with
            auOpen := true, auTs := ts, auNals := [bytes], auKey := typ == 5
            auSps := typ == 7, auPps := typ == 8 },
          out ++ [.accessUnit d.auTs d.auKey (d.auSps && d.auPps) d.auNals, .nal ts bytes]))

/-- STAP-A (R259, R260): a payload is a header byte, whole entries, and a tail that is empty or cut.
The entries that are not empty are added in order, and a cut tail is E_STAP_TRUNC. -/
def Obligations.AggregateUnpacksInOrder : Prop :=
  ∀ (ts : W32) (header : Byte) (nals : List Bytes) (tail : Bytes) (x : DepOut),
    (∀ b ∈ nals, b.length < 65536) →
    (tail = [] ∨ tail.length = 1 ∨ (2 ≤ tail.length ∧ tail.length - 2 < (be16 tail 0).toNat)) →
    stapA ts (header :: nals.flatMap (fun b => toBe16 (BitVec.ofNat 16 b.length) ++ b) ++ tail) x =
      ((nals.filter (fun b => !b.isEmpty)).foldl (fun y b => addNal ts b y) x,
        if tail = [] then .ok else .eStapTrunc)

/-- FU-A (R262 to R266): every kind of fragment. -/
def Obligations.FragmentKinds : Prop :=
  ∀ (ts : W32) (ind fh : Byte) (body : Bytes) (d : Dep) (out : List Record),
    fuA ts [ind] (d, out) = ((d, out), .eFuaShort) ∧
    (fh.getLsbD 7 = false → d.fuActive = false →
      fuA ts (ind :: fh :: body) (d, out) = ((d, out), .eFuaOrphan)) ∧
    (fh.getLsbD 7 = false → d.fuActive = true → ts ≠ d.fuTs →
      fuA ts (ind :: fh :: body) (d, out) =
        (({ d with fuActive := false, fuBuf := [] }, out), .eFuaTs)) ∧
    (∀ d1 : Dep,
      (fh.getLsbD 7 = true ∧
        d1 = { d with fuActive := true, fuTs := ts
                      fuBuf := ((ind &&& 0xE0) ||| (fh &&& 0x1F)) :: body }) ∨
      (fh.getLsbD 7 = false ∧ d.fuActive = true ∧ ts = d.fuTs ∧
        d1 = { d with fuBuf := d.fuBuf ++ body }) →
      (fh.getLsbD 6 = false → fuA ts (ind :: fh :: body) (d, out) = ((d1, out), .ok)) ∧
      (fh.getLsbD 6 = true → ∀ y : DepOut, y = addNal ts d1.fuBuf (d1, out) →
        fuA ts (ind :: fh :: body) (d, out) =
          (({ y.1 with fuActive := false, fuBuf := [] }, y.2), .ok)))

/-- The packets of one fragmented NAL unit: a start fragment, continuations, an end fragment, with
consecutive sequence numbers and one timestamp; `m` is the marker of the last one (R276). -/
abbrev fragmentPackets (seq : Seq) (ts : W32) (ind typ : Byte) (first : Bytes) (mids : List Bytes)
    (last : Bytes) (m : Bool) : List Instr :=
  .depPacket seq ts false (ind :: (0x80 ||| typ) :: first) ::
    (mids.mapIdx (fun i body =>
        Instr.depPacket (seq + 1 + BitVec.ofNat 16 i) ts false (ind :: typ :: body)) ++
      [.depPacket (seq + 1 + BitVec.ofNat 16 mids.length) ts m (ind :: (0x40 ||| typ) :: last)])

/-- A fragmented unit reassembles into one NAL (R276): one header byte, then the fragment bodies in
order; its type is the original one. It joins the open access unit of its timestamp, which a marker on
the last packet closes. -/
def Obligations.FragmentsReassemble : Prop :=
  ∀ (s : State) (seq : Seq) (ts : W32) (ind typ : Byte) (first : Bytes) (mids : List Bytes)
    (last : Bytes) (m : Bool),
    s.fatal = false → (ind.extractLsb' 0 5).toNat = 28 → typ.toNat < 32 →
    (s.dep.started = true → seq = s.dep.lastSeq + 1) →
    (s.dep.auOpen = true → s.dep.auTs = ts) →
    ∃ (t : State) (h : Byte) (unit : Bytes) (nals : List Bytes),
      runAll (fragmentPackets seq ts ind typ first mids last m) s = .next t ∧
      h.extractLsb' 0 5 = typ.extractLsb' 0 5 ∧ h.extractLsb' 5 3 = ind.extractLsb' 5 3 ∧
      unit = h :: first ++ mids.flatten ++ last ∧
      nals = (if s.dep.auOpen then s.dep.auNals else []) ++ [unit] ∧
      t.oq = s.oq ++ List.replicate (mids.length + 1) (.done 0x40 .ok) ++ [.nal ts unit] ++
        (if m then
          [Record.accessUnit ts ((s.dep.auOpen && s.dep.auKey) || typ.toNat == 5)
            (((s.dep.auOpen && s.dep.auSps) || typ.toNat == 7) &&
              ((s.dep.auOpen && s.dep.auPps) || typ.toNat == 8)) nals]
        else []) ++ [.done 0x40 .ok] ∧
      t.dep.auOpen = !m ∧ t.dep.auNals = (if m then [] else nals) ∧
      t.dep.fuActive = false ∧ t.dep.fuBuf = [] ∧ t.dep.malformed = s.dep.malformed ∧
      t.dep.discont = s.dep.discont ∧ t.rob = s.rob ∧ t.grp = s.grp ∧ t.gf = s.gf ∧ t.csr = s.csr ∧
      t.rtpMalformed = s.rtpMalformed ∧ t.fatal = false ∧ t.lastStatus = 0x00

/-- No access unit is emitted empty, and its flags say what it contains (R271, R273): for every command
in every state that meets the depacketizer's invariant. -/
def Obligations.EmittedUnitsAreGood : Prop :=
  ∀ (i : Instr) (s t : State) (recs : List Record), DepInv s.dep → exec i s = .next t →
    t.oq = s.oq ++ recs → ∀ r ∈ recs, goodUnit r

/-! ## CSR and SYS -/

/-- The readable registers and their values (R40, R41, R42), in the order of the tables. -/
abbrev csrTable (s : State) : List (BitVec 8 × W32) :=
  [(0x00, s.csr.lateThreshold.setWidth 32), (0x01, s.csr.robWindow.setWidth 32),
   (0x02, s.csr.robFlushDelayMs.setWidth 32), (0x03, s.csr.grpMaxGroups.setWidth 32),
   (0x04, s.csr.grpExpiryMs.setWidth 32), (0x05, s.csr.restartGap.setWidth 32),
   (0x06, s.csr.fuGapThreshold.setWidth 32), (0x07, s.csr.clockRateHz),
   (0x10, BitVec.ofNat 32
      (s.gf.gfReady.toNat + 2 * s.fatal.toNat + 4 * s.rob.started.toNat + 8 * s.rob.timer.toNat +
        16 * s.dep.started.toNat + 32 * s.dep.fuActive.toNat + 64 * s.dep.auOpen.toNat +
        128 * s.rob.jitValid.toNat)),
   (0x11, s.lastStatus.setWidth 32),
   (0x12, if s.rob.started then s.rob.expected.setWidth 32 else 0),
   (0x13, if s.rob.started then s.rob.highest.setWidth 32 else 0),
   (0x14, BitVec.ofNat 32 s.rob.buf.length), (0x15, s.rob.received), (0x16, s.rob.lost),
   (0x17, s.rob.bytes), (0x18, s.rob.jitterQ4), (0x19, s.rob.lateDropped),
   (0x1A, BitVec.ofNat 32 s.grp.groups.length), (0x1B, s.grp.fecRecovered),
   (0x1C, s.grp.fecFailed), (0x1D, s.rtpMalformed), (0x1E, s.dep.malformed),
   (0x1F, s.dep.discont), (0x20, if s.dep.started then s.dep.lastSeq.setWidth 32 else 0)]

/-- CSR.RD (R286): it emits the register's value, or E_CSR for a number in neither table, and changes
no state at all, whether or not the block is faulted. -/
def Obligations.RegisterReadIsPure : Prop :=
  ∀ (reg : BitVec 8) (s : State),
    (∀ v : W32, (reg, v) ∈ csrTable s →
      exec (.csrRd reg) s =
        .next { s with oq := s.oq ++ [.csrValue reg v, .done 0x70 .ok] }) ∧
    ((∀ e ∈ csrTable s, e.1 ≠ reg) →
      exec (.csrRd reg) s = .next { s with oq := s.oq ++ [.done 0x70 .eCsr] })

/-- The least and the greatest legal value of each configuration register (R40). -/
abbrev csrRange : List (BitVec 8 × Nat × Nat) :=
  [(0x00, 0, 32767), (0x01, 0, 65535), (0x02, 0, 65535), (0x03, 1, 65535), (0x04, 0, 65535),
   (0x05, 2, 32767), (0x06, 0, 32768), (0x07, 1, 2 ^ 32 - 1)]

/-- CSR.WR (R287): a legal value is written and nothing else changes, so that a read then gives it and
every other configuration register reads as before; everything else is E_CSR. -/
def Obligations.RegisterWriteIsSeenByReads : Prop :=
  ∀ (reg : BitVec 8) (value : W32) (s : State),
    (s.fatal = true → exec (.csrWr reg value) s = .next (s.ended 0x71 [] .eFaulted)) ∧
    (s.fatal = false →
      (∀ e ∈ csrRange, e.1 = reg → ¬(e.2.1 ≤ value.toNat ∧ value.toNat ≤ e.2.2)) →
      exec (.csrWr reg value) s = .next (s.ended 0x71 [] .eCsr)) ∧
    (s.fatal = false →
      ∀ e ∈ csrRange, e.1 = reg → e.2.1 ≤ value.toNat → value.toNat ≤ e.2.2 →
        ∃ c : Csr, exec (.csrWr reg value) s = .next ({ s with csr := c }.ended 0x71 [] .ok) ∧
          csrRead reg { s with csr := c } = some value ∧
          ∀ other : BitVec 8, other ≠ reg → csrRead other { s with csr := c } = csrRead other s)

/-- SYS.TEARDOWN (R290), whole. -/
def Obligations.TeardownEmptiesBuffers : Prop :=
  ∀ s : State,
    (s.fatal = true → exec .sysTeardown s = .next (s.ended 0x7E [] .eFaulted)) ∧
    (s.fatal = false →
      exec .sysTeardown s =
        .next ({ s with
          rob := { s.rob with timer := false, buf := [], started := false, jitValid := false }
          grp := { s.grp with groups := [] }
          dep := { s.dep with
            started := false, fuActive := false, fuBuf := [], auOpen := false, auNals := []
            auKey := false, auSps := false, auPps := false } }.ended 0x7E [] .ok))

/-- SYS.RESET (R289) with the table of R54: every element takes its reset value in every state. The
command port is the model's own and keeps its bytes (log 12) and its end mark (log 25). -/
def Obligations.ResetRestoresTable : Prop :=
  ∀ s : State,
    exec .sysReset s = .next
      { gf := { gfReady := false, tables := .unbuilt }
        rob := { started := false, expected := 0, buf := [], timer := false, highest := 0
                 received := 0, lost := 0, bytes := 0, jitterQ4 := 0, jitValid := false
                 prevTransit := 0, lateDropped := 0 }
        grp := { groups := [], fecRecovered := 0, fecFailed := 0 }
        dep := { started := false, lastSeq := 0, fuActive := false, fuTs := 0, fuBuf := []
                 auOpen := false, auTs := 0, auNals := [], auKey := false, auSps := false
                 auPps := false, malformed := 0, discont := 0 }
        rtpMalformed := 0, fatal := false, lastStatus := 0x00
        csr := { lateThreshold := 10, robWindow := 20, robFlushDelayMs := 10, grpMaxGroups := 6
                 grpExpiryMs := 24, restartGap := 100, fuGapThreshold := 5, clockRateHz := 90000 }
        oq := [.done 0x7F .ok], port := s.port, portEnd := s.portEnd }

/-! ## The whole machine -/

/-- While `fatal = 1` every command but CSR.RD and SYS.RESET is rejected with E_FAULTED and changes
nothing else (R308). -/
def Obligations.FaultedBlockRejects : Prop :=
  ∀ (i : Instr) (s : State), s.fatal = true → (∀ reg, i ≠ .csrRd reg) → i ≠ .sysReset →
    exec i s = .next (s.ended i.opcode.code [] .eFaulted)

/-- `fatal` is set by ECE.NEWMATRIX with an invalid pair and by nothing else, and cleared by SYS.RESET
and by nothing else (R308, R23). -/
def Obligations.OnlyBadMatrixIsFatal : Prop :=
  ∀ (i : Instr) (s t : State), exec i s = .next t →
    (s.fatal = false → t.fatal = true →
      s.gf.gfReady = true ∧ t.lastStatus = Status.eKn.code ∧
      ∃ k n : BitVec 9, i = .eceNewmatrix k n ∧
        ¬(1 ≤ k.toNat ∧ k.toNat ≤ n.toNat ∧ n.toNat ≤ 256)) ∧
    (s.fatal = true → t.fatal = false → i = .sysReset)

/-- The status numbers of R300. -/
abbrev statusNumbers : List (Status × BitVec 8) :=
  [(.ok, 0x00), (.eRtpShort, 0x01), (.eRtpVersion, 0x02), (.eRtpHdrlen, 0x03), (.eRtpPayload, 0x04),
   (.eStapTrunc, 0x05), (.eFuaShort, 0x06), (.eNalType, 0x07), (.eFuaOrphan, 0x08), (.eFuaTs, 0x09),
   (.eMeta, 0x0A), (.sLate, 0x10), (.sNotArmed, 0x11), (.sInsufficient, 0x12), (.eKn, 0x20),
   (.eNoinit, 0x21), (.eRows, 0x22), (.eIndex, 0x23), (.eSingular, 0x24), (.eIllegal, 0x30),
   (.eLength, 0x31), (.eFaulted, 0x32), (.eCsr, 0x33), (.eOperand, 0x34)]

/-- Every command ends with its `Done` record, and `last_status` is the number of that status by the
table of R300 unless the command is CSR.RD (R36). S_INSUFFICIENT is never a command's status. -/
def Obligations.DoneClosesEveryCommand : Prop :=
  ∀ (i : Instr) (s t : State), exec i s = .next t →
    ∃ (recs : List Record) (st : Status) (number : BitVec 8),
      t.oq = (if i = .sysReset then [] else s.oq) ++ recs ++ [.done i.opcode.code st] ∧
      (∀ op st', Record.done op st' ∉ recs) ∧ st ≠ .sInsufficient ∧
      (st, number) ∈ statusNumbers ∧ st.code = number ∧
      ((∀ reg, i ≠ .csrRd reg) → t.lastStatus = number) ∧
      ((∃ reg, i = .csrRd reg) → t.lastStatus = s.lastStatus)

/-- Each piece of state changes only by the commands of its unit (R23, R60). That no command changes the
port's bytes and its end mark, the model's own fields, is the model's choice (log 1; for SYS.RESET log 12
and log 25). -/
def Obligations.UnitsDoNotInterfere : Prop :=
  ∀ (i : Instr) (s t : State), exec i s = .next t →
    (t.gf ≠ s.gf → i.opcode ∈ [.gfInit, .sysReset]) ∧
    (t.rob ≠ s.rob → i.opcode ∈ [.robAccept, .robTimer, .robRestart, .sysTeardown, .sysReset]) ∧
    (t.grp ≠ s.grp → i.opcode ∈ [.grpAdd, .grpExpire, .sysTeardown, .sysReset]) ∧
    (t.dep ≠ s.dep → i.opcode ∈ [.depPacket, .sysTeardown, .sysReset]) ∧
    (t.rtpMalformed ≠ s.rtpMalformed → i.opcode ∈ [.rtpParse, .sysReset]) ∧
    (t.csr ≠ s.csr → i.opcode ∈ [.csrWr, .sysReset]) ∧
    t.port = s.port ∧ t.portEnd = s.portEnd

/-- The block never reads OQ (R37): what a command does and emits does not depend on it. -/
def Obligations.OutputQueueIsNeverRead : Prop :=
  ∀ (i : Instr) (s t : State), i ≠ .sysReset → exec i s = .next t →
    ∃ recs : List Record, t.oq = s.oq ++ recs ∧
      ∀ q : List Record, exec i { s with oq := q } = .next { t with oq := q ++ recs }

/-- Every step answers a next state: the block has no fault and refuses no command (R300; log 14), at any
parameters (R9). -/
def Obligations.EveryStepCompletes : Prop :=
  (∀ s : State, Completes s) ∧ ∀ (P : Params) (s : State), ∃ t : State, stepWith P s = .next t

/-- A complete command at the port is executed, its bytes consumed (R81; the port is the model's own
field, log 1), at any parameters (R9, R38); `step` and `exec` are that machine at the default ones, and
the parameters enter the GF, ECE and GRP commands alone. -/
def Obligations.StepRunsTheCommand : Prop :=
  (∀ (s : State) (i : Instr) (rest : Bytes),
    frame Config.maxLen s.port s.portEnd = .command i rest →
    step s = exec i { s with port := rest }) ∧
  (∀ (P : Params) (s : State) (i : Instr) (rest : Bytes),
    frame P.maxLen s.port s.portEnd = .command i rest →
    stepWith P s = execWith P i { s with port := rest }) ∧
  (∀ s : State, step s = stepWith paramsDefault s) ∧
  (∀ (i : Instr) (s : State), exec i s = execWith paramsDefault i s) ∧
  (∀ (P : Params) (i : Instr) (s : State),
    i.opcode ∉ [.gfInit, .eceNewmatrix, .eceEncode, .eceBuilddec, .eceDecode, .grpAdd, .grpExpire] →
    execWith P i s = exec i s)

/-- The decode layer (R98): what it rejects, in the order of its tests, how many bytes it consumes, and
that the rejection changes nothing but `last_status` (and the port, the model's own). That it sets
`last_status` for a rejected CSR.RD too, and that an unknown opcode cut short is E_LENGTH, are the
model's readings (log 4, log 3). -/
def Obligations.FramingErrorsAreRejected : Prop :=
  (∀ (maxLen : Nat) (B tail : Bytes) (b0 : Byte), B = b0 :: tail →
    (B.length < 4 → frame maxLen B true = .reject b0 .badLength []) ∧
    (4 ≤ B.length → (∀ op : Opcode, op.code ≠ b0) →
      ∀ ended, frame maxLen B ended = .reject b0 .illegal (B.drop 4)) ∧
    (∀ op : Opcode, op.code = b0 →
      (B.length < op.commandBytes B → frame maxLen B true = .reject b0 .badLength []) ∧
      (op.commandBytes B ≤ B.length → ∀ ended,
        (op.format.reservedClear B = false →
          frame maxLen B ended = .reject b0 .illegal (B.drop (op.commandBytes B))) ∧
        (op.format.reservedClear B = true → op.format.tooLong maxLen B = true →
          frame maxLen B ended = .reject b0 .badLength (B.drop (op.commandBytes B)))))) ∧
  (∀ (P : Params) (s t : State) (b0 : Byte) (why : FrameError) (rest : Bytes),
    frame P.maxLen s.port s.portEnd = .reject b0 why rest →
    t = { s with port := rest }.ended b0 []
      (match why with
        | .illegal => .eIllegal
        | .badLength => .eLength) →
    stepWith P s = .next t ∧ (P = paramsDefault → step s = .next t))

/-- Decode of encode is the command, whatever bytes follow (R84 to R95). -/
def Obligations.EncodedCommandDecodes : Prop :=
  ∀ (maxLen : Nat) (i : Instr) (rest : Bytes) (ended : Bool), i.wellFormed maxLen = true →
    frame maxLen (encode i ++ rest) ended = .command i rest

/-- Bytes that decode are the encoding of the command they decode to (R84 to R95): every word has one
meaning and no bit is dropped. -/
def Obligations.DecodedBytesAreTheEncoding : Prop :=
  ∀ (maxLen : Nat) (B : Bytes) (ended : Bool) (i : Instr) (rest : Bytes),
    frame maxLen B ended = .command i rest → i.wellFormed maxLen = true ∧ B = encode i ++ rest

/-- A few command words, written out from R83 to R95, decode to what they stand for. -/
def Obligations.SampleWordsDecode : Prop :=
  frame Config.maxLen [0x01, 0, 0, 0] false = .command .gfInit [] ∧
  frame Config.maxLen [0x02, 0x00, 0x04, 0x04] false = .command (.eceNewmatrix 2 4) [] ∧
  frame Config.maxLen [0x10, 0, 0, 2, 0xAB, 0xCD] false = .command (.rtpParse [0xAB, 0xCD]) [] ∧
  frame Config.maxLen [0x31, 0, 0, 0, 0, 0, 0, 9] false = .command (.grpExpire 9) [] ∧
  frame Config.maxLen [0x71, 0, 0, 3, 0, 0, 0, 2] false = .command (.csrWr 3 2) [] ∧
  frame Config.maxLen [0x7F, 0, 0, 0, 0x21] false = .command .sysReset [0x21]

/-- The reset state meets the invariant, whatever the parameters. -/
def Obligations.ResetMeetsInvariant : Prop := ∀ P : Params, Inv P State.reset

/-- Every step keeps the invariant (R25, R30, R31, R32, R34, R40), at any parameters. -/
def Obligations.StepKeepsInvariant : Prop :=
  ∀ (P : Params) (s t : State), Inv P s →
    (stepWith P s = .next t → Inv P t) ∧ (P = paramsDefault → step s = .next t → Inv P t)

/-- The binary form of the eight records of fixed length (R99), big-endian, with the numbers of R99 for
units, tags and causes and of R300 for statuses written out. -/
def Obligations.FixedRecordsBinaryForm : Prop :=
  (∀ a : BitVec 16, toBe16 a = [BitVec.ofNat 8 (a.toNat / 256), BitVec.ofNat 8 a.toNat]) ∧
  (∀ a : W32, toBe32 a =
    [BitVec.ofNat 8 (a.toNat / 2 ^ 24), BitVec.ofNat 8 (a.toNat / 2 ^ 16),
     BitVec.ofNat 8 (a.toNat / 2 ^ 8), BitVec.ofNat 8 a.toNat]) ∧
  (∀ st : Status, ∃ number, (st, number) ∈ statusNumbers) ∧
  (∀ e ∈ statusNumbers, ∀ op : Byte,
    (Record.done op e.1).encode = [0x01, 0, 0, 0, 0, 0, 0, 2, op, e.2] ∧
    (Record.drop .rtp e.1).encode = [0x0E, 0, 0, 0, 0, 0, 0, 2, 1, e.2] ∧
    (Record.drop .rob e.1).encode = [0x0E, 0, 0, 0, 0, 0, 0, 2, 2, e.2] ∧
    (Record.drop .grp e.1).encode = [0x0E, 0, 0, 0, 0, 0, 0, 2, 3, e.2] ∧
    (Record.drop .dep e.1).encode = [0x0E, 0, 0, 0, 0, 0, 0, 2, 4, e.2]) ∧
  (∀ h : ParsedRtp,
    (Record.parsed h).encode =
      [0x02, 0, 0, 0, 0, 0, 0, 16,
        BitVec.ofNat 8 (64 * h.v.toNat + 32 * h.p.toNat + 16 * h.x.toNat + h.cc.toNat),
        BitVec.ofNat 8 (128 * h.m.toNat + h.pt.toNat)] ++
        toBe16 h.seq ++ toBe32 h.ts ++ toBe32 h.ssrc ++ toBe16 h.payloadOff ++
        toBe16 h.payloadLen) ∧
  (∀ a b : BitVec 16,
    (Record.robLate a b).encode = [0x07, 0, 0, 0, 0, 0, 0, 4] ++ toBe16 a ++ toBe16 b ∧
    (Record.robSkip a b).encode = [0x08, 0, 0, 0, 0, 0, 0, 4] ++ toBe16 a ++ toBe16 b) ∧
  (∀ (gid : W32) (k n received : BitVec 8),
    ∀ tag ∈ [(Tag.notRecovered, (0 : Byte)), (.recovered, 1)],
    ∀ cause ∈ [(Cause.countReached, (0 : Byte)), (.expiry, 1), (.eviction, 2)],
    ∀ why ∈ statusNumbers,
      (Record.groupDone gid k n received tag.1 cause.1 why.1).encode =
        [0x0A, 0, 0, 0, 0, 0, 0, 10] ++ toBe32 gid ++ [k, n, received, tag.2, cause.2, why.2]) ∧
  (∀ a b c : BitVec 16,
    (Record.discontinuity a b c).encode =
      [0x0C, 0, 0, 0, 0, 0, 0, 6] ++ toBe16 a ++ toBe16 b ++ toBe16 c) ∧
  (∀ (reg : BitVec 8) (v : W32),
    (Record.csrValue reg v).encode = [0x0F, 0, 0, 0, 0, 0, 0, 5, reg] ++ toBe32 v)
end

