-- ==== Sys2Proof/Laws/Bytes.lean ====
section
/-! SUPPORT. Big-endian reads and writes undo each other, at offset 0 and behind a prefix; so do the
counted lists and rows of the command formats. -/

namespace Sys2Proof

@[simp] theorem length_toBe16 (v : BitVec 16) : (toBe16 v).length = 2 := rfl
@[simp] theorem length_toBe32 (v : BitVec 32) : (toBe32 v).length = 4 := rfl
@[simp] theorem length_zeros (m : Nat) : (zeros m).length = m := by simp [zeros]

theorem length_pad {B : Bytes} {m : Nat} (h : B.length ≤ m) : (pad B m).length = m := by
  simp [pad]; omega

@[simp] theorem byteAt_cons_zero (b : Byte) (B : Bytes) : byteAt (b :: B) 0 = b := rfl

theorem byteAt_append_right (A B : Bytes) (i : Nat) : byteAt (A ++ B) (A.length + i) = byteAt B i := by
  simp [byteAt, List.getD_eq_getElem?_getD, List.getElem?_append_right]

theorem byteAt_append_left {A : Bytes} (B : Bytes) {i : Nat} (h : i < A.length) :
    byteAt (A ++ B) i = byteAt A i := by
  simp [byteAt, List.getD_eq_getElem?_getD, List.getElem?_append_left h]

theorem byteAt_drop (B : Bytes) (n i : Nat) : byteAt (B.drop n) i = byteAt B (n + i) := by
  simp [byteAt, List.getD_eq_getElem?_getD]

theorem byteAt_take {B : Bytes} {n i : Nat} (h : i < n) : byteAt (B.take n) i = byteAt B i := by
  simp [byteAt, List.getD_eq_getElem?_getD, h]

theorem be16_append_right (A B : Bytes) (i : Nat) : be16 (A ++ B) (A.length + i) = be16 B i := by
  simp only [be16, Nat.add_assoc, byteAt_append_right]

theorem be32_append_right (A B : Bytes) (i : Nat) : be32 (A ++ B) (A.length + i) = be32 B i := by
  simp only [be32, Nat.add_assoc, byteAt_append_right]

theorem be16_drop (B : Bytes) (n i : Nat) : be16 (B.drop n) i = be16 B (n + i) := by
  simp only [be16, byteAt_drop, Nat.add_assoc]

theorem be32_drop (B : Bytes) (n i : Nat) : be32 (B.drop n) i = be32 B (n + i) := by
  simp only [be32, byteAt_drop, Nat.add_assoc]

theorem be16_take {B : Bytes} {n i : Nat} (h : i + 1 < n) : be16 (B.take n) i = be16 B i := by
  simp only [be16, byteAt_take h, byteAt_take (Nat.lt_of_succ_lt h)]

theorem be32_take {B : Bytes} {n i : Nat} (h : i + 3 < n) : be32 (B.take n) i = be32 B i := by
  simp only [be32, byteAt_take h, byteAt_take (show i < n by omega),
    byteAt_take (show i + 1 < n by omega), byteAt_take (show i + 2 < n by omega)]

/-- The bytes of a concatenation of two. -/
theorem extract_append2 (a b : Byte) :
    (a ++ b : BitVec 16).extractLsb' 8 8 = a ∧ (a ++ b : BitVec 16).extractLsb' 0 8 = b := by
  refine ⟨?_, ?_⟩ <;> ext i hi <;>
    simp only [BitVec.getElem_extractLsb', BitVec.getLsbD_append] <;> interval_cases i <;> simp

/-- The bytes of a concatenation of four. -/
theorem extract_append4 (a b c d : Byte) :
    (a ++ b ++ c ++ d : BitVec 32).extractLsb' 24 8 = a ∧
    (a ++ b ++ c ++ d : BitVec 32).extractLsb' 16 8 = b ∧
    (a ++ b ++ c ++ d : BitVec 32).extractLsb' 8 8 = c ∧
    (a ++ b ++ c ++ d : BitVec 32).extractLsb' 0 8 = d := by
  refine ⟨?_, ?_, ?_, ?_⟩ <;> ext i hi <;>
    simp only [BitVec.getElem_extractLsb', BitVec.getLsbD_append] <;> interval_cases i <;> simp

/-- A 16-bit number written and read back. -/
@[simp] theorem be16_toBe16 (v : BitVec 16) (B : Bytes) : be16 (toBe16 v ++ B) 0 = v := by
  simp only [be16, toBe16, byteAt, List.cons_append, List.getD_cons_zero, List.getD_cons_succ]
  ext i hi
  simp only [BitVec.getElem_append, BitVec.getElem_extractLsb']
  interval_cases i <;> simp

/-- A 32-bit word written and read back. -/
@[simp] theorem be32_toBe32 (v : BitVec 32) (B : Bytes) : be32 (toBe32 v ++ B) 0 = v := by
  simp only [be32, toBe32, byteAt, List.cons_append, List.getD_cons_zero, List.getD_cons_succ]
  ext i hi
  simp only [BitVec.getElem_append, BitVec.getElem_extractLsb']
  interval_cases i <;> simp

/-- The first word of a byte string, written again. -/
theorem toBe32_be32 {B : Bytes} (h : 4 ≤ B.length) : toBe32 (be32 B 0) ++ B.drop 4 = B := by
  match B, h with
  | a :: b :: c :: d :: C, _ =>
    obtain ⟨h1, h2, h3, h4⟩ := extract_append4 a b c d
    simp only [be32, toBe32, byteAt, List.getD_cons_zero, List.getD_cons_succ, h1, h2, h3, h4]
    rfl

/-- The first 16-bit number of a byte string, written again. -/
theorem toBe16_be16 {B : Bytes} (h : 2 ≤ B.length) : toBe16 (be16 B 0) ++ B.drop 2 = B := by
  match B, h with
  | a :: b :: C, _ =>
    obtain ⟨h1, h2⟩ := extract_append2 a b
    simp only [be16, toBe16, byteAt, List.getD_cons_zero, List.getD_cons_succ, h1, h2]
    rfl

/-! Reads of the words a command starts with. -/

@[simp] theorem byteAt_word (v : BitVec 32) (B : Bytes) :
    byteAt (toBe32 v ++ B) 0 = v.extractLsb' 24 8 := rfl

@[simp] theorem be32_skip_word (v : BitVec 32) (B : Bytes) (i : Nat) :
    be32 (toBe32 v ++ B) (i + 4) = be32 B i := by
  rw [Nat.add_comm, ← length_toBe32 v, be32_append_right]

@[simp] theorem be16_skip_word (v : BitVec 32) (B : Bytes) (i : Nat) :
    be16 (toBe32 v ++ B) (i + 4) = be16 B i := by
  rw [Nat.add_comm, ← length_toBe32 v, be16_append_right]

@[simp] theorem be16_word_high (v : BitVec 32) (B : Bytes) :
    be16 (toBe32 v ++ B) 0 = v.extractLsb' 16 16 := by
  simp only [be16, toBe32, byteAt, List.cons_append, List.getD_cons_zero, List.getD_cons_succ]
  ext i hi
  simp only [BitVec.getElem_append, BitVec.getElem_extractLsb']
  interval_cases i <;> simp

@[simp] theorem be16_word_low (v : BitVec 32) (B : Bytes) :
    be16 (toBe32 v ++ B) 2 = v.extractLsb' 0 16 := by
  simp only [be16, toBe32, byteAt, List.cons_append, List.getD_cons_zero, List.getD_cons_succ]
  ext i hi
  simp only [BitVec.getElem_append, BitVec.getElem_extractLsb']
  interval_cases i <;> simp

@[simp] theorem length_flatMap_toBe16 (l : List (BitVec 16)) :
    (l.flatMap toBe16).length = 2 * l.length := by
  induction l with
  | nil => rfl
  | cons v l ih => simp [ih]; omega

@[simp] theorem length_readList16 (cnt : Nat) (B : Bytes) : (readList16 cnt B).length = cnt := by
  induction cnt generalizing B with
  | zero => rfl
  | succ cnt ih => simp [readList16, ih]

@[simp] theorem length_readRows (rows blen : Nat) (B : Bytes) :
    (readRows rows blen B).length = rows := by
  induction rows generalizing B with
  | zero => rfl
  | succ rows ih => simp [readRows, ih]

/-- A counted list written and read back (R88 to R90). -/
theorem readList16_flatMap (l : List (BitVec 16)) (B : Bytes) :
    readList16 l.length (l.flatMap toBe16 ++ B) = l := by
  induction l with
  | nil => rfl
  | cons v l ih =>
    simp only [List.length_cons, readList16, List.flatMap_cons, List.append_assoc, be16_toBe16]
    rw [show (toBe16 v ++ (l.flatMap toBe16 ++ B)).drop 2 = l.flatMap toBe16 ++ B from rfl, ih]

/-- Rows written and read back (R88, R90). -/
theorem readRows_flatten {blen : Nat} (rows : List Bytes) (B : Bytes)
    (h : ∀ r ∈ rows, r.length = blen) : readRows rows.length blen (rows.flatten ++ B) = rows := by
  induction rows with
  | nil => rfl
  | cons r rows ih =>
    have hr : r.length = blen := h r List.mem_cons_self
    simp only [List.length_cons, readRows, List.flatten_cons, List.append_assoc]
    rw [← hr, List.take_left, List.drop_left, hr, ih fun r' hr' => h r' (List.mem_cons_of_mem _ hr')]

theorem length_flatten_rows {blen : Nat} (rows : List Bytes) (h : ∀ r ∈ rows, r.length = blen) :
    rows.flatten.length = rows.length * blen := by
  induction rows with
  | nil => simp
  | cons r rows ih =>
    simp [h r List.mem_cons_self, ih fun r' hr' => h r' (List.mem_cons_of_mem _ hr'),
      Nat.add_mul, Nat.add_comm]

/-- A list read and written again. -/
theorem flatMap_readList16 {cnt : Nat} {B : Bytes} (h : 2 * cnt ≤ B.length) :
    (readList16 cnt B).flatMap toBe16 = B.take (2 * cnt) := by
  induction cnt generalizing B with
  | zero => rfl
  | succ cnt ih =>
    have h2 := toBe16_be16 (B := B) (by omega)
    simp only [readList16, List.flatMap_cons]
    rw [ih (by rw [List.length_drop]; omega)]
    have h3 : B.take (2 * (cnt + 1)) = B.take 2 ++ (B.drop 2).take (2 * cnt) := by
      rw [← List.take_add]; congr 1; omega
    have h4 : B.take 2 = toBe16 (be16 B 0) := by
      conv_lhs => rw [← h2]
      rfl
    rw [h3, h4]

/-- Rows read and written again. -/
theorem flatten_readRows {rows blen : Nat} {B : Bytes} (h : rows * blen ≤ B.length) :
    (readRows rows blen B).flatten = B.take (rows * blen) := by
  induction rows generalizing B with
  | zero => simp [readRows]
  | succ rows ih =>
    have : rows * blen + blen = (rows + 1) * blen := by rw [Nat.add_mul, Nat.one_mul]
    simp only [readRows, List.flatten_cons]
    rw [ih (by simp; omega), ← this, Nat.add_comm (rows * blen), List.take_add]

theorem length_of_mem_readRows {rows blen : Nat} {B : Bytes} (h : rows * blen ≤ B.length)
    {r : Bytes} (hr : r ∈ readRows rows blen B) : r.length = blen := by
  induction rows generalizing B with
  | zero => simp [readRows] at hr
  | succ rows ih =>
    have : rows * blen + blen = (rows + 1) * blen := by rw [Nat.add_mul, Nat.one_mul]
    rcases List.mem_cons.1 hr with rfl | hr
    · simp; omega
    · exact ih (by simp; omega) hr

end Sys2Proof
end

