-- ==== Sys2Proof/Laws/Depacket.lean ====
section
/-! SUPPORT. What each procedure of the depacketizer can do, said once: it keeps the unit's invariant
and appends only records of the unit, every access unit among them good. -/

namespace Sys2Proof.Machine

/-- A record the depacketizer emits, and a good one. -/
def isDepRecord : Record → Prop
  | .nal _ bytes => bytes ≠ []
  | .discontinuity .. => True
  | .drop u _ => u = .dep
  | .accessUnit ts keyframe hasParamSets nals => goodUnit (.accessUnit ts keyframe hasParamSets nals)
  | _ => False

/-- What a move of the depacketizer does: the invariant holds after it as before it, and it appends
good records. -/
def DepMoves (x y : DepOut) : Prop :=
  DepInv x.1 → DepInv y.1 ∧ ∃ recs : List Record, y.2 = x.2 ++ recs ∧ ∀ r ∈ recs, isDepRecord r

theorem DepMoves.refl (x : DepOut) : DepMoves x x := fun h => ⟨h, [], by simp, by simp⟩

theorem DepMoves.trans {x y z : DepOut} (h : DepMoves x y) (h' : DepMoves y z) : DepMoves x z := by
  intro hx
  obtain ⟨hy, recs, e, hr⟩ := h hx
  obtain ⟨hz, recs', e', hr'⟩ := h' hy
  refine ⟨hz, recs ++ recs', by rw [e', e, List.append_assoc], fun r hm => ?_⟩
  rcases List.mem_append.1 hm with hm | hm
  · exact hr r hm
  · exact hr' r hm

/-- CloseAU on an open access unit (R272). -/
theorem closeAu_moves (x : DepOut) (ho : x.1.auOpen = true) : DepMoves x (closeAu x) := by
  intro h
  have hne : x.1.auNals ≠ [] := by
    have := h.openNonempty
    rw [ho] at this
    intro hn
    simp [hn] at this
  refine ⟨⟨?_, ?_, ?_, ?_, ?_, ?_⟩, [_], rfl, ?_⟩
  · simp [closeAu]
  · simp [closeAu]
  · simp [closeAu, hasNal]
  · simp [closeAu, hasNal]
  · simp [closeAu, hasNal]
  · exact h.fuBufActive
  · simp [isDepRecord, goodUnit, hne, h.keyFlag, h.spsFlag, h.ppsFlag]

/-- AddNal after the timestamp boundary (R268): the NAL joins the unit that `openAu` leaves. -/
theorem openAu_add_inv {d : Dep} {ts : W32} {bytes : Bytes} (h : DepInv d) (hb : bytes ≠ []) :
    DepInv (noteNalType (nalType (byteAt bytes 0))
      { openAu ts d with auNals := (openAu ts d).auNals ++ [bytes] }) := by
  unfold openAu
  split
  · next ho =>
    refine ⟨?_, ?_, ?_, ?_, ?_, ?_⟩
    · simp [noteNalType, ho]
    · intro b hm
      rcases List.mem_append.1 hm with hm | hm
      · exact h.nalsFilled b hm
      · rw [List.mem_singleton.1 hm]; exact hb
    · simp [noteNalType, hasNal, h.keyFlag]
    · simp [noteNalType, hasNal, h.spsFlag]
    · simp [noteNalType, hasNal, h.ppsFlag]
    · exact h.fuBufActive
  · refine ⟨?_, ?_, ?_, ?_, ?_, ?_⟩
    · simp [noteNalType]
    · simpa [noteNalType] using hb
    · simp [noteNalType, hasNal]
    · simp [noteNalType, hasNal]
    · simp [noteNalType, hasNal]
    · exact h.fuBufActive

/-- AddNal on a NAL that is not empty (R268). -/
theorem addNal_moves (ts : W32) {bytes : Bytes} (hb : bytes ≠ []) (x : DepOut) :
    DepMoves x (addNal ts bytes x) := by
  have hboundary : DepMoves x (boundaryByTs ts x) := by
    unfold boundaryByTs
    split
    · next h => exact closeAu_moves x h.1
    · exact DepMoves.refl x
  refine hboundary.trans fun h => ⟨openAu_add_inv h hb, [.nal ts bytes], rfl, ?_⟩
  simpa [isDepRecord] using hb

/-- AddNal leaves the fragment state and the sequence state alone. -/
theorem addNal_frame (ts : W32) (bytes : Bytes) (x : DepOut) :
    (addNal ts bytes x).1.fuActive = x.1.fuActive ∧ (addNal ts bytes x).1.fuTs = x.1.fuTs ∧
    (addNal ts bytes x).1.fuBuf = x.1.fuBuf ∧ (addNal ts bytes x).1.started = x.1.started ∧
    (addNal ts bytes x).1.lastSeq = x.1.lastSeq ∧ (addNal ts bytes x).1.malformed = x.1.malformed ∧
    (addNal ts bytes x).1.discont = x.1.discont := by
  have ho : ∀ d : Dep, openAu ts d = { d with
      auOpen := (openAu ts d).auOpen, auTs := (openAu ts d).auTs, auNals := (openAu ts d).auNals
      auKey := (openAu ts d).auKey, auSps := (openAu ts d).auSps, auPps := (openAu ts d).auPps } := by
    intro d; unfold openAu; split <;> rfl
  simp only [addNal, noteNalType]
  rw [ho]
  unfold boundaryByTs
  split <;> simp [closeAu]

/-- The loop of StapA (R259). -/
theorem stapLoop_moves (ts : W32) (fuel : Nat) (B : Bytes) (x : DepOut) :
    DepMoves x (stapLoop ts fuel B x).1 := by
  induction fuel generalizing B x with
  | zero => exact DepMoves.refl x
  | succ fuel ih =>
    simp only [stapLoop]
    split
    · exact DepMoves.refl x
    · split
      · exact DepMoves.refl x
      · split
        · exact DepMoves.refl x
        · next hlen =>
          refine DepMoves.trans ?_ (ih _ _)
          split
          · exact DepMoves.refl x
          · next hz =>
            refine addNal_moves ts ?_ x
            intro hnil
            have := congrArg List.length hnil
            simp only [List.length_take, List.length_nil] at this
            omega

/-- The accumulation is cleared. -/
theorem clearFu_inv {d : Dep} (h : DepInv d) : DepInv (clearFu d) :=
  ⟨h.openNonempty, h.nalsFilled, h.keyFlag, h.spsFlag, h.ppsFlag, by simp [clearFu]⟩

/-- The end of a fragmented unit whose accumulation is not empty (R266). -/
theorem fuFinish_moves (fh : Byte) (x : DepOut) (hb : x.1.fuBuf ≠ []) :
    DepMoves x (fuFinish fh x) := by
  unfold fuFinish
  split
  · refine (addNal_moves x.1.fuTs hb x).trans fun h => ⟨clearFu_inv h, [], by simp, by simp⟩
  · exact DepMoves.refl x

/-- FuA (R262 to R266). -/
theorem fuA_moves (ts : W32) (payload : Bytes) (x : DepOut) : DepMoves x (fuA ts payload x).1 := by
  unfold fuA
  split
  · exact DepMoves.refl x
  · split
    · refine DepMoves.trans (y := ({ x.1 with
          fuActive := true, fuTs := ts
          fuBuf := fuHeader (byteAt payload 0) (byteAt payload 1) :: payload.drop 2 }, x.2))
        (fun h => ⟨⟨h.openNonempty, h.nalsFilled, h.keyFlag, h.spsFlag, h.ppsFlag, by simp⟩, [],
          by simp, by simp⟩) (fuFinish_moves _ _ (by simp))
    · split
      · exact DepMoves.refl x
      · next ha =>
        split
        · exact fun h => ⟨clearFu_inv h, [], by simp, by simp⟩
        · intro h
          have hne : x.1.fuBuf ≠ [] := by
            intro hn
            have := h.fuBufActive
            rw [hn] at this
            exact ha (by simpa using this)
          have hne' : x.1.fuBuf ++ payload.drop 2 ≠ [] := by simp [hne]
          have hact : x.1.fuActive = true := by simpa using ha
          refine DepMoves.trans (y := ({ x.1 with fuBuf := x.1.fuBuf ++ payload.drop 2 }, x.2))
            (fun h => ⟨⟨h.openNonempty, h.nalsFilled, h.keyFlag, h.spsFlag, h.ppsFlag, ?_⟩, [],
              by simp, by simp⟩) (fuFinish_moves _ _ hne') h
          simp [hact, hne]

/-- CheckSeq (R256, R257). -/
theorem checkSeq_moves (threshold : BitVec 16) (seq : Seq) (x : DepOut) :
    DepMoves x (checkSeq threshold seq x) := by
  intro h
  simp only [checkSeq]
  split
  · refine ⟨?_, [_], rfl, by simp [isDepRecord]⟩
    split
    · exact ⟨h.openNonempty, h.nalsFilled, h.keyFlag, h.spsFlag, h.ppsFlag, by simp [clearFu]⟩
    · exact ⟨h.openNonempty, h.nalsFilled, h.keyFlag, h.spsFlag, h.ppsFlag, h.fuBufActive⟩
  · exact ⟨⟨h.openNonempty, h.nalsFilled, h.keyFlag, h.spsFlag, h.ppsFlag, h.fuBufActive⟩, [],
      by simp, by simp⟩

/-- DEP.PACKET on the unit, for a payload that is not empty (R250). -/
theorem depStep_moves (threshold : BitVec 16) (seq : Seq) (ts : W32) (m : Bool) {payload : Bytes}
    (hp : payload ≠ []) (d : Dep) : DepMoves (d, []) (depStep threshold seq ts m payload d).1 := by
  have hd : ∀ x : DepOut, DepMoves x (dispatchNal ts payload x).1 := by
    intro x
    simp only [dispatchNal]
    split
    · exact addNal_moves ts hp x
    · split
      · exact stapLoop_moves ts _ _ x
      · split
        · exact fuA_moves ts payload x
        · exact DepMoves.refl x
  have hn : ∀ y : DepOut × Status, DepMoves y.1 (noteMalformed y) := by
    intro y
    unfold noteMalformed
    split
    · exact DepMoves.refl _
    · exact fun h => ⟨⟨h.openNonempty, h.nalsFilled, h.keyFlag, h.spsFlag, h.ppsFlag,
        h.fuBufActive⟩, [_], rfl, by simp [isDepRecord]⟩
  have hm : ∀ x : DepOut, DepMoves x (markerClose m x) := by
    intro x
    unfold markerClose
    split
    · next h => exact closeAu_moves x h.2
    · exact DepMoves.refl x
  simp only [depStep]
  exact (((checkSeq_moves threshold seq (d, [])).trans (hd _)).trans (hn _)).trans (hm _)

end Sys2Proof.Machine
end

