-- ==== Sys2Proof/Laws/Ece.lean ====
section
/-! SUPPORT. The row operations of the engine byte by byte, and its index test as a statement about
positions. -/

namespace Sys2Proof.Machine

theorem addMul_length {F : GfField} {dst src : List Byte} {c : Byte} (h : src.length = dst.length) :
    (addMul F dst src c).length = dst.length := by simp [addMul, h]

theorem addMul_getD {F : GfField} {dst src : List Byte} {c : Byte} {j : Nat}
    (h : src.length = dst.length) (hj : j < dst.length) :
    (addMul F dst src c).getD j 0 = dst.getD j 0 ^^^ gmul F c (src.getD j 0) := by
  have hs : j < src.length := by omega
  simp [addMul, List.getD_eq_getElem?_getD, hj, hs]

/-- The accumulation of R150 and R162 from any row: each byte adds its own products. -/
theorem foldl_addMul {F : GfField} (l : List (Byte × Bytes)) (init : Bytes)
    (h : ∀ cr ∈ l, cr.2.length = init.length) :
    (l.foldl (fun out cr => addMul F out cr.2 cr.1) init).length = init.length ∧
    ∀ j, j < init.length →
      (l.foldl (fun out cr => addMul F out cr.2 cr.1) init).getD j 0 =
        init.getD j 0 ^^^ gsum (l.map (fun cr => gmul F cr.1 (cr.2.getD j 0))) := by
  induction l generalizing init with
  | nil => exact ⟨rfl, fun j _ => by simp [gsum]⟩
  | cons cr l ih =>
    have hcr := h cr (by simp)
    have hlen := addMul_length (F := F) (c := cr.1) hcr
    obtain ⟨h1, h2⟩ := ih (addMul F init cr.2 cr.1)
      (fun x hx => by rw [hlen]; exact h x (by simp [hx]))
    refine ⟨by rw [List.foldl_cons, h1, hlen], fun j hj => ?_⟩
    rw [List.foldl_cons, h2 j (by rw [hlen]; exact hj), addMul_getD hcr hj]
    simp [gsum, BitVec.xor_assoc]

/-- The loop of R150 and R162 computes each byte as the sum over the rows. -/
theorem combine_eq_laneRow {F : GfField} {k blen : Nat} {coeffs : List Byte} {rows : List Bytes}
    (hc : coeffs.length = k) (hr : rows.length = k) (hb : ∀ r ∈ rows, r.length = blen) :
    combine F blen coeffs rows = laneRow F k blen coeffs rows := by
  have hz : ∀ cr ∈ coeffs.zip rows, cr.2.length = (zeros blen).length := by
    intro cr hcr
    simpa [zeros] using hb cr.2 (List.of_mem_zip hcr).2
  obtain ⟨h1, h2⟩ := foldl_addMul (F := F) (coeffs.zip rows) (zeros blen) hz
  have hzlen : (zeros blen).length = blen := by simp [zeros]
  rw [hzlen] at h1 h2
  refine List.ext_getElem (by simp [combine, laneRow, h1]) fun j hj hj' => ?_
  have hjb : j < blen := by simpa [laneRow] using hj'
  have := h2 j hjb
  rw [List.getD_eq_getElem _ _ (by omega)] at this
  simp only [combine, this, laneRow, List.getElem_map, List.getElem_range]
  have hz0 : (zeros blen).getD j 0 = 0 := by simp [zeros, List.getD_eq_getElem?_getD, hjb]
  rw [hz0, show ∀ b : Byte, (0 : Byte) ^^^ b = b from fun b => BitVec.zero_xor]
  congr 1
  refine List.ext_getElem (by simp [hc, hr]) fun c h3 h4 => ?_
  have hck : c < k := by simpa using h4
  simp [byteAt, List.getD_eq_getElem?_getD, hc ▸ hck, hr ▸ hck]

theorem laneRow_length {F : GfField} {k blen : Nat} {coeffs : List Byte} {rows : List Bytes} :
    (laneRow F k blen coeffs rows).length = blen := by simp [laneRow]

theorem encRow_length (P : GfParams) (k r : Nat) : (encRow P k r).length = k := by
  unfold encRow unitRow
  split <;> simp

theorem enc_getD {P : GfParams} {k n r : Nat} (h : r < n) : (enc P k n).getD r [] = encRow P k r := by
  simp [enc, List.getD_eq_getElem?_getD, h]

/-- A row of `DecInput` is a row of the encoding matrix when the index passes `CheckIdx` (R156). -/
theorem decInputRow_eq_encRow {P : GfParams} {k i x : Nat} (h : x < k → x = i) :
    decInputRow P k i x = encRow P k x := by
  unfold decInputRow encRow
  split
  · next hx => rw [h hx]
  · rfl

/-- `CheckIdx` position by position (R157). -/
theorem checkIdx_iff {k n : Nat} {idx : List Nat} :
    checkIdx k n idx = true ↔
      ∀ i, i < idx.length → idx.getD i 0 < n ∧ (idx.getD i 0 < k → idx.getD i 0 = i) := by
  simp only [checkIdx, List.all_eq_true, Bool.and_eq_true, Bool.or_eq_true, decide_eq_true_eq]
  constructor
  · intro h i hi
    have hm : (idx[i], i) ∈ idx.zipIdx := by
      rw [List.mem_zipIdx_iff_getElem?]; simp [hi]
    have := h _ hm
    simp only [List.getD_eq_getElem _ _ hi] at this ⊢
    exact ⟨this.1, fun hk => by omega⟩
  · intro h x hx
    obtain ⟨v, i⟩ := x
    rw [List.mem_zipIdx_iff_getElem?] at hx
    simp only at hx
    obtain ⟨hi, rfl⟩ := List.getElem?_eq_some_iff.1 hx
    have := h i hi
    rw [List.getD_eq_getElem _ _ hi] at this
    simp only
    exact ⟨this.1, by omega⟩

theorem validKN_iff {k n : Nat} : validKN k n = true ↔ 1 ≤ k ∧ k ≤ n ∧ n ≤ 256 := by
  simp [validKN, and_assoc]

end Sys2Proof.Machine
end

