-- ==== Sys2Proof/Laws/PerInstr.lean ====
section
/-! SUPPORT. The per-instruction family `EncodedLength`: the encoding of a command starts with its
opcode, and its own words call for exactly its length (R81, R83). -/

set_option linter.unusedSimpArgs false

namespace Sys2Proof

/-- The low half of a word built from two halves. -/
@[simp] theorem low_half (a b : BitVec 16) : (a ++ b : BitVec 32).extractLsb' 0 16 = b := by
  ext i hi; simp only [BitVec.getElem_extractLsb', BitVec.getLsbD_append]; interval_cases i <;> simp

/-- The high half of a word built from two halves. -/
@[simp] theorem high_half (a b : BitVec 16) : (a ++ b : BitVec 32).extractLsb' 16 16 = a := by
  ext i hi; simp only [BitVec.getElem_extractLsb', BitVec.getLsbD_append]; interval_cases i <;> simp

theorem toNat_len16 {α : Type} {l : List α} (h : l.length < 65536) : (len16 l).toNat = l.length := by
  simp [len16, Nat.mod_eq_of_lt h]

theorem lt_of_countFits {α : Type} {l : List α} (h : countFits l = true) : l.length < 65536 := by
  simpa [countFits] using h

theorem lt_of_lengthFits {maxLen : Nat} {b : Bytes} (h : lengthFits maxLen b = true) :
    b.length < 65536 := by
  simp [lengthFits] at h; exact h.1

/-- What `rowsFit` says. -/
theorem rowsFit_iff {maxLen : Nat} {blen : BitVec 16} {rows : List Bytes} :
    rowsFit maxLen blen rows = true ↔
      rows.length < 65536 ∧ (∀ r ∈ rows, r.length = blen.toNat) ∧ blen.toNat ≤ maxLen := by
  simp [rowsFit, countFits, and_assoc]

namespace Laws.EncodedLength

/-- Whatever follows it, an encoded command shows its opcode and its own length. -/
def Statement (i : Instr) : Prop :=
  ∀ (maxLen : Nat) (rest : Bytes), i.wellFormed maxLen = true →
    byteAt (encode i ++ rest) 0 = i.opcode.code ∧
      i.opcode.commandBytes (encode i ++ rest) = (encode i).length

theorem gfInit : Statement .gfInit := fun _ _ _ => ⟨rfl, rfl⟩
theorem robTimer : Statement .robTimer := fun _ _ _ => ⟨rfl, rfl⟩
theorem robRestart : Statement .robRestart := fun _ _ _ => ⟨rfl, rfl⟩
theorem sysTeardown : Statement .sysTeardown := fun _ _ _ => ⟨rfl, rfl⟩
theorem sysReset : Statement .sysReset := fun _ _ _ => ⟨rfl, rfl⟩

theorem eceNewmatrix (k n : BitVec 9) : Statement (.eceNewmatrix k n) := by
  intro maxLen rest h
  constructor
  · simp only [encode, headM, headZ, headR, List.append_assoc, byteAt_word, Instr.opcode]
    ext i hi
    simp only [BitVec.getElem_extractLsb', BitVec.getLsbD_append]
    interval_cases i <;> simp
  · rfl
theorem eceEncode (k n : BitVec 9) (blen : BitVec 16) (blocks : List (BitVec 16))
    (rows : List Bytes) : Statement (.eceEncode k n blen blocks rows) := by
  intro maxLen rest h
  simp only [Instr.wellFormed, Bool.and_eq_true, rowsFit_iff] at h
  have h1 := lt_of_countFits h.1
  constructor
  · simp only [encode, headM, headZ, headR, List.append_assoc, byteAt_word, Instr.opcode]
    ext i hi
    simp only [BitVec.getElem_extractLsb', BitVec.getLsbD_append]
    interval_cases i <;> simp
  · simp only [encode, headM, headZ, headR, List.append_assoc, Instr.opcode, Opcode.commandBytes,
      Opcode.format, Format.headBytes, Format.bodyBytes, cntField, rowsField, blenField, lenFieldP,
      plenFieldA, plenFieldGH]
    simp [toNat_len16, h1, h.2.1, length_flatten_rows rows h.2.2.1]
    omega
theorem eceBuilddec (k n : BitVec 9) (idx : List (BitVec 16)) : Statement (.eceBuilddec k n idx) := by
  intro maxLen rest h
  have h1 := lt_of_countFits h
  constructor
  · simp only [encode, headM, headZ, headR, List.append_assoc, byteAt_word, Instr.opcode]
    ext i hi
    simp only [BitVec.getElem_extractLsb', BitVec.getLsbD_append]
    interval_cases i <;> simp
  · simp only [encode, headM, headZ, headR, List.append_assoc, Instr.opcode, Opcode.commandBytes,
      Opcode.format, Format.headBytes, Format.bodyBytes, cntField, rowsField, blenField, lenFieldP,
      plenFieldA, plenFieldGH]
    simp [toNat_len16, h1]
    omega
theorem eceDecode (k n : BitVec 9) (blen : BitVec 16) (idx : List (BitVec 16))
    (rows : List Bytes) : Statement (.eceDecode k n blen idx rows) := by
  intro maxLen rest h
  simp only [Instr.wellFormed, Bool.and_eq_true, rowsFit_iff, beq_iff_eq] at h
  have h1 := lt_of_countFits h.1.1
  constructor
  · simp only [encode, headM, headZ, headR, List.append_assoc, byteAt_word, Instr.opcode]
    ext i hi
    simp only [BitVec.getElem_extractLsb', BitVec.getLsbD_append]
    interval_cases i <;> simp
  · simp only [encode, headM, headZ, headR, List.append_assoc, Instr.opcode, Opcode.commandBytes,
      Opcode.format, Format.headBytes, Format.bodyBytes, cntField, rowsField, blenField, lenFieldP,
      plenFieldA, plenFieldGH]
    simp only [h.2] at h1 ⊢
    simp [toNat_len16, h1, length_flatten_rows rows h.1.2.2.1, h.2]
    omega
theorem rtpParse (datagram : Bytes) : Statement (.rtpParse datagram) := by
  intro maxLen rest h
  have h1 := lt_of_lengthFits h
  constructor
  · simp only [encode, headM, headZ, headR, List.append_assoc, byteAt_word, Instr.opcode]
    ext i hi
    simp only [BitVec.getElem_extractLsb', BitVec.getLsbD_append]
    interval_cases i <;> simp
  · simp only [encode, headM, headZ, headR, List.append_assoc, Instr.opcode, Opcode.commandBytes,
      Opcode.format, Format.headBytes, Format.bodyBytes, cntField, rowsField, blenField, lenFieldP,
      plenFieldA, plenFieldGH]
    simp [toNat_len16, h1]
theorem robAccept (pkt : Packet) (arrival : W32) : Statement (.robAccept pkt arrival) := by
  intro maxLen rest h
  have h1 := lt_of_lengthFits h
  constructor
  · simp only [encode, headM, headZ, headR, List.append_assoc, byteAt_word, Instr.opcode]
    ext i hi
    simp only [BitVec.getElem_extractLsb', BitVec.getLsbD_append]
    interval_cases i <;> simp
  · simp only [encode, headM, headZ, headR, List.append_assoc, Instr.opcode, Opcode.commandBytes,
      Opcode.format, Format.headBytes, Format.bodyBytes, cntField, rowsField, blenField, lenFieldP,
      plenFieldA, plenFieldGH]
    simp [toNat_len16, h1]
    omega
theorem grpAdd (gid : W32) (index : BitVec 16) (k n : BitVec 8) (payload : Bytes) : Statement (.grpAdd gid index k n payload) := by
  intro maxLen rest h
  have h1 := lt_of_lengthFits h
  constructor
  · simp only [encode, headM, headZ, headR, List.append_assoc, byteAt_word, Instr.opcode]
    ext i hi
    simp only [BitVec.getElem_extractLsb', BitVec.getLsbD_append]
    interval_cases i <;> simp
  · simp only [encode, headM, headZ, headR, List.append_assoc, Instr.opcode, Opcode.commandBytes,
      Opcode.format, Format.headBytes, Format.bodyBytes, cntField, rowsField, blenField, lenFieldP,
      plenFieldA, plenFieldGH]
    simp [toNat_len16, h1]
    omega
theorem grpExpire (gid : W32) : Statement (.grpExpire gid) := by
  intro maxLen rest h
  constructor
  · simp only [encode, headM, headZ, headR, List.append_assoc, byteAt_word, Instr.opcode]
    ext i hi
    simp only [BitVec.getElem_extractLsb', BitVec.getLsbD_append]
    interval_cases i <;> simp
  · rfl
theorem depPacket (seq : Seq) (ts : W32) (m : Bool) (payload : Bytes) : Statement (.depPacket seq ts m payload) := by
  intro maxLen rest h
  have h1 := lt_of_lengthFits h
  constructor
  · simp only [encode, headM, headZ, headR, List.append_assoc, byteAt_word, Instr.opcode]
    ext i hi
    simp only [BitVec.getElem_extractLsb', BitVec.getLsbD_append]
    interval_cases i <;> simp
  · simp only [encode, headM, headZ, headR, List.append_assoc, Instr.opcode, Opcode.commandBytes,
      Opcode.format, Format.headBytes, Format.bodyBytes, cntField, rowsField, blenField, lenFieldP,
      plenFieldA, plenFieldGH]
    simp [toNat_len16, h1]
    omega
theorem csrRd (reg : BitVec 8) : Statement (.csrRd reg) := by
  intro maxLen rest h
  constructor
  · simp only [encode, headM, headZ, headR, List.append_assoc, byteAt_word, Instr.opcode]
    ext i hi
    simp only [BitVec.getElem_extractLsb', BitVec.getLsbD_append]
    interval_cases i <;> simp
  · rfl
theorem csrWr (reg : BitVec 8) (value : W32) : Statement (.csrWr reg value) := by
  intro maxLen rest h
  constructor
  · simp only [encode, headM, headZ, headR, List.append_assoc, byteAt_word, Instr.opcode]
    ext i hi
    simp only [BitVec.getElem_extractLsb', BitVec.getLsbD_append]
    interval_cases i <;> simp
  · rfl

end Laws.EncodedLength

end Sys2Proof
end

