-- ==== Sys2Proof/Laws/Fields.lean ====
section
/-! SUPPORT. The bit fields of the words of each command format, read back from the word the encoder
builds (R84 to R95), and what the decode layer computes from an encoded command. -/

namespace Sys2Proof

theorem headM_fields (c : Byte) (k n : BitVec 9) :
    (c ++ 0#6 ++ k ++ n : BitVec 32).extractLsb' 18 6 = 0 ∧
    (c ++ 0#6 ++ k ++ n : BitVec 32).extractLsb' 9 9 = k ∧
    (c ++ 0#6 ++ k ++ n : BitVec 32).extractLsb' 0 9 = n := by
  refine ⟨?_, ?_, ?_⟩ <;> ext i hi <;>
    simp only [BitVec.getElem_extractLsb', BitVec.getLsbD_append] <;> interval_cases i <;> simp

theorem headZ_fields (c : Byte) : (c ++ 0#24 : BitVec 32).extractLsb' 0 24 = 0 := by
  ext i hi; simp only [BitVec.getElem_extractLsb', BitVec.getLsbD_append]; interval_cases i <;> simp

theorem headR_fields (c reg : Byte) :
    (c ++ 0#16 ++ reg : BitVec 32).extractLsb' 8 16 = 0 ∧
    (c ++ 0#16 ++ reg : BitVec 32).extractLsb' 0 8 = reg := by
  refine ⟨?_, ?_⟩ <;> ext i hi <;>
    simp only [BitVec.getElem_extractLsb', BitVec.getLsbD_append] <;> interval_cases i <;> simp

/-- Headers of formats P and G: a zero byte and a 16-bit field. -/
theorem headP_fields (c : Byte) (l : BitVec 16) :
    (c ++ 0#8 ++ l : BitVec 32).extractLsb' 16 8 = 0 ∧
    (c ++ 0#8 ++ l : BitVec 32).extractLsb' 0 16 = l := by
  refine ⟨?_, ?_⟩ <;> ext i hi <;>
    simp only [BitVec.getElem_extractLsb', BitVec.getLsbD_append] <;> interval_cases i <;> simp

theorem headH_fields (c : Byte) (m : Bool) (l : BitVec 16) :
    (c ++ BitVec.ofBool m ++ 0#7 ++ l : BitVec 32).extractLsb' 16 7 = 0 ∧
    (c ++ BitVec.ofBool m ++ 0#7 ++ l : BitVec 32).extractLsb' 0 16 = l ∧
    (c ++ BitVec.ofBool m ++ 0#7 ++ l : BitVec 32)[23] = m := by
  refine ⟨?_, ?_, ?_⟩
  · ext i hi; simp only [BitVec.getElem_extractLsb', BitVec.getLsbD_append]; interval_cases i <;> simp
  · ext i hi; simp only [BitVec.getElem_extractLsb', BitVec.getLsbD_append]; interval_cases i <;> simp
  · rw [← BitVec.getLsbD_eq_getElem]; simp only [BitVec.getLsbD_append]; simp

/-- Word 2 of format G. -/
theorem wordG_fields (k n : Byte) (l : BitVec 16) :
    (k ++ n ++ l : BitVec 32).extractLsb' 24 8 = k ∧
    (k ++ n ++ l : BitVec 32).extractLsb' 16 8 = n ∧
    (k ++ n ++ l : BitVec 32).extractLsb' 0 16 = l := by
  refine ⟨?_, ?_, ?_⟩ <;> ext i hi <;>
    simp only [BitVec.getElem_extractLsb', BitVec.getLsbD_append] <;> interval_cases i <;> simp

theorem headA_fields (c : Byte) (m : Bool) (pt : BitVec 7) (seq : BitVec 16) :
    (c ++ BitVec.ofBool m ++ pt ++ seq : BitVec 32).extractLsb' 16 7 = pt ∧
    (c ++ BitVec.ofBool m ++ pt ++ seq : BitVec 32).extractLsb' 0 16 = seq ∧
    (c ++ BitVec.ofBool m ++ pt ++ seq : BitVec 32)[23] = m := by
  refine ⟨?_, ?_, ?_⟩
  · ext i hi; simp only [BitVec.getElem_extractLsb', BitVec.getLsbD_append]; interval_cases i <;> simp
  · ext i hi; simp only [BitVec.getElem_extractLsb', BitVec.getLsbD_append]; interval_cases i <;> simp
  · rw [← BitVec.getLsbD_eq_getElem]; simp only [BitVec.getLsbD_append]; simp

/-- Word 4 of format A. -/
theorem wordA_fields (v : BitVec 2) (p x : Bool) (cc : BitVec 4) (l : BitVec 16) (w : BitVec 32)
    (h : w = v ++ BitVec.ofBool p ++ BitVec.ofBool x ++ cc ++ 0#8 ++ l) :
    w.extractLsb' 16 8 = 0 ∧ w.extractLsb' 0 16 = l ∧ w.extractLsb' 30 2 = v ∧
    w.extractLsb' 24 4 = cc ∧ w[29] = p ∧ w[28] = x := by
  subst h
  refine ⟨?_, ?_, ?_, ?_, ?_, ?_⟩
  · ext i hi; simp only [BitVec.getElem_extractLsb', BitVec.getLsbD_append]; interval_cases i <;> simp
  · ext i hi; simp only [BitVec.getElem_extractLsb', BitVec.getLsbD_append]; interval_cases i <;> simp
  · ext i hi; simp only [BitVec.getElem_extractLsb', BitVec.getLsbD_append]; interval_cases i <;> simp
  · ext i hi; simp only [BitVec.getElem_extractLsb', BitVec.getLsbD_append]; interval_cases i <;> simp
  · rw [← BitVec.getLsbD_eq_getElem]; simp only [BitVec.getLsbD_append]; simp
  · rw [← BitVec.getLsbD_eq_getElem]; simp only [BitVec.getLsbD_append]; simp

/-- An opcode byte names its opcode. -/
@[simp] theorem ofByte_code (o : Opcode) : Opcode.ofByte o.code = some o := by cases o <;> rfl

/-- Two opcodes never share a byte. -/
theorem code_injective {o o' : Opcode} (h : o.code = o'.code) : o = o' := by
  have := ofByte_code o
  rw [h, ofByte_code] at this
  exact (Option.some.inj this).symm

/-- The opcode a byte names has that byte. -/
theorem code_of_ofByte {b : Byte} {o : Opcode} (h : Opcode.ofByte b = some o) : o.code = b := by
  simpa using List.find?_some h

/-- The decode layer on a port that is not empty. -/
theorem frame_eq {maxLen : Nat} {B : Bytes} {ended : Bool} (h : B ≠ []) :
    frame maxLen B ended =
      if B.length < 4 then frameShort (byteAt B 0) ended
      else
        match Opcode.ofByte (byteAt B 0) with
        | none => .reject (byteAt B 0) .illegal (B.drop 4)
        | some op =>
          if B.length < op.format.headBytes then frameShort (byteAt B 0) ended
          else if B.length < op.commandBytes B then frameShort (byteAt B 0) ended
          else if op.format.reservedClear B = false then
            .reject (byteAt B 0) .illegal (B.drop (op.commandBytes B))
          else if op.format.tooLong maxLen B then
            .reject (byteAt B 0) .badLength (B.drop (op.commandBytes B))
          else .command (decodeFields (B.take (op.commandBytes B)) op) (B.drop (op.commandBytes B)) := by
  match B, h with
  | _ :: _, _ => rfl

theorem four_le_headBytes (f : Format) : 4 ≤ f.headBytes := by cases f <;> decide

theorem headBytes_le_length (i : Instr) : i.opcode.format.headBytes ≤ (encode i).length := by
  cases i <;> simp [encode, Instr.opcode, Opcode.format, Format.headBytes, headM, headZ, headR] <;>
    omega

end Sys2Proof
end

