-- ==== Sys2Proof/Laws/Kv.lean ====
section
/-! SUPPORT. The keyed stores: every operation keeps the canonical form, and a read after a write gives
the value written and leaves every other key alone. -/

namespace Sys2Proof.Machine

variable {α : Type} {k q : BitVec 16} {v : α} {m : List (BitVec 16 × α)}

theorem kvGet_none_iff : kvGet k m = none ↔ ∀ e ∈ m, e.1 ≠ k := by
  induction m with
  | nil => simp [kvGet]
  | cons e m ih =>
    obtain ⟨k', w⟩ := e
    by_cases h : k' = k <;> simp [kvGet, h, ih]

/-- In a canonical store a key has the value it is listed with, and no other. -/
theorem kvGet_some_iff (hs : KvSorted m) : kvGet k m = some v ↔ (k, v) ∈ m := by
  induction m with
  | nil => simp [kvGet]
  | cons e m ih =>
    obtain ⟨k', w⟩ := e
    rw [KvSorted, List.pairwise_cons] at hs
    by_cases h : k' = k
    · subst h
      have : ∀ x : α, (k', x) ∉ m := fun x hx => by
        have := hs.1 _ hx; simp at this
      simp [kvGet, this, eq_comm]
    · have hne : ¬(k = k') := fun e => h e.symm
      simp [kvGet, h, ih hs.2, hne]

theorem kvGet_mem (h : kvGet k m = some v) : (k, v) ∈ m := by
  induction m with
  | nil => simp [kvGet] at h
  | cons e m ih =>
    obtain ⟨k', w⟩ := e
    by_cases hk : k' = k
    · simp [kvGet, hk] at h; simp [hk, h]
    · simp [kvGet, hk] at h; simp [ih h]

/-- Read after write, same key. -/
@[simp] theorem kvGet_kvPut_self : kvGet k (kvPut k v m) = some v := by
  induction m with
  | nil => simp [kvPut, kvGet]
  | cons e m ih =>
    obtain ⟨k', w⟩ := e
    unfold kvPut
    split
    · simp [kvGet]
    · split
      · simp [kvGet]
      · simp [kvGet, *]

/-- Read after write, another key. -/
theorem kvGet_kvPut_other (h : q ≠ k) : kvGet q (kvPut k v m) = kvGet q m := by
  induction m with
  | nil => simp [kvPut, kvGet, h.symm]
  | cons e m ih =>
    obtain ⟨k', w⟩ := e
    unfold kvPut
    split
    · simp [kvGet, h.symm]
    · split
      · next _ hk => subst hk; simp [kvGet, h.symm]
      · simp [kvGet, ih]

theorem mem_kvPut {e : BitVec 16 × α} (h : e ∈ kvPut k v m) : e = (k, v) ∨ e ∈ m := by
  induction m with
  | nil => simpa [kvPut] using h
  | cons e' m ih =>
    obtain ⟨k', w⟩ := e'
    unfold kvPut at h
    split at h
    · simpa using h
    · split at h
      · rcases List.mem_cons.1 h with h | h
        · exact .inl h
        · exact .inr (List.mem_cons_of_mem _ h)
      · rcases List.mem_cons.1 h with h | h
        · exact .inr (h ▸ List.mem_cons_self)
        · rcases ih h with h | h
          · exact .inl h
          · exact .inr (List.mem_cons_of_mem _ h)

/-- A write keeps the canonical form. -/
theorem kvSorted_kvPut (hs : KvSorted m) : KvSorted (kvPut k v m) := by
  induction m with
  | nil => simp [kvPut, KvSorted]
  | cons e m ih =>
    obtain ⟨k', w⟩ := e
    rw [KvSorted, List.pairwise_cons] at hs
    unfold kvPut
    split
    · next hlt =>
      refine List.pairwise_cons.2 ⟨fun a ha => ?_, List.pairwise_cons.2 hs⟩
      rcases List.mem_cons.1 ha with rfl | ha
      · exact hlt
      · exact BitVec.lt_trans hlt (hs.1 a ha)
    · split
      · next _ hk => subst hk; exact List.pairwise_cons.2 hs
      · next hlt hk =>
        refine List.pairwise_cons.2 ⟨fun a ha => ?_, ih hs.2⟩
        rcases mem_kvPut ha with rfl | ha
        · bv_omega
        · exact hs.1 a ha

/-- Removing entries keeps the canonical form. -/
theorem kvSorted_filter (p : BitVec 16 × α → Bool) (hs : KvSorted m) : KvSorted (m.filter p) :=
  List.Pairwise.filter p hs

theorem kvSorted_kvDel (hs : KvSorted m) : KvSorted (kvDel k m) := kvSorted_filter _ hs

@[simp] theorem kvGet_kvDel_self : kvGet k (kvDel k m) = none := by
  simp [kvGet_none_iff, kvDel]

theorem kvGet_kvDel_other (h : q ≠ k) : kvGet q (kvDel k m) = kvGet q m := by
  induction m with
  | nil => rfl
  | cons e m ih =>
    obtain ⟨k', w⟩ := e
    by_cases hk : k' = k
    · subst hk; simpa [kvDel, kvGet, h.symm] using ih
    · by_cases hq : k' = q
      · subst hq; simp [kvDel, kvGet, hk]
      · simpa [kvDel, kvGet, hk, hq] using ih

/-- A write at an absent key adds one entry, at a present key none. -/
theorem length_kvPut (hs : KvSorted m) :
    (kvPut k v m).length = if (kvGet k m).isSome then m.length else m.length + 1 := by
  induction m with
  | nil => simp [kvPut, kvGet]
  | cons e m ih =>
    obtain ⟨k', w⟩ := e
    rw [KvSorted, List.pairwise_cons] at hs
    unfold kvPut
    split
    · next hlt =>
      have : kvGet k ((k', w) :: m) = none := by
        rw [kvGet_none_iff]
        intro a ha
        rcases List.mem_cons.1 ha with rfl | ha
        · exact fun h => BitVec.lt_irrefl k (h ▸ hlt)
        · intro h; have := BitVec.lt_trans hlt (hs.1 a ha); simp [h] at this
      simp [this]
    · split
      · next _ hk => subst hk; simp [kvGet]
      · next _ hk => simp only [List.length_cons, ih hs.2, kvGet, hk, if_false]; split <;> rfl

/-- Removing a present key removes one entry. -/
theorem length_kvDel (hs : KvSorted m) :
    (kvDel k m).length + (if (kvGet k m).isSome then 1 else 0) = m.length := by
  induction m with
  | nil => simp [kvDel, kvGet]
  | cons e m ih =>
    obtain ⟨k', w⟩ := e
    rw [KvSorted, List.pairwise_cons] at hs
    by_cases hk : k' = k
    · subst hk
      have : kvDel k' m = m := by
        refine List.filter_eq_self.2 fun a ha => ?_
        have := hs.1 a ha
        simp only [ne_eq, decide_eq_true_eq]
        intro h; simp [h] at this
      have h2 : kvDel k' ((k', w) :: m) = kvDel k' m := by simp [kvDel]
      simp [h2, this, kvGet]
    · have := ih hs.2
      simp only [kvDel, kvGet, hk, if_false, List.filter_cons, ne_eq, not_false_eq_true,
        decide_true, if_true, List.length_cons] at this ⊢
      omega

end Sys2Proof.Machine
end

