-- ==== Sys2Proof/Laws/Group.lean ====
section
/-! SUPPORT. What each procedure of the group assembler can do, said once: which records it keeps and
what it appends. -/

namespace Sys2Proof.Machine

/-- A record the group assembler emits. -/
def isGrpRecord : Record → Bool
  | .groupBlock .. => true
  | .groupDone .. => true
  | _ => false

/-- What a flush does to the unit: `groups` is kept, records of the unit are appended; the two counters
alone may change. -/
def GrpEmits (x y : GrpOut) : Prop :=
  y.1.groups = x.1.groups ∧ ∃ recs : List Record, y.2 = x.2 ++ recs ∧
    ∀ r ∈ recs, isGrpRecord r = true

/-- EmitNotRecovered (R228, R230). -/
theorem emitNotRecovered_emits (g : Group) (cause : Cause) (why : Status) (x : GrpOut) :
    GrpEmits x (emitNotRecovered g cause why x) := by
  refine ⟨rfl, _, by simp only [emitNotRecovered, List.append_assoc]; rfl, ?_⟩
  intro r hr
  rcases List.mem_append.1 hr with hr | hr
  · obtain ⟨i, -, rfl⟩ := List.mem_map.1 hr; rfl
  · rw [List.mem_singleton.1 hr]; rfl

/-- The emission of a successful decode (R228, R235). -/
theorem emitRecovered_emits (g : Group) (cause : Cause) (out : List Bytes) (x : GrpOut) :
    GrpEmits x (emitRecovered g cause out x) := by
  refine ⟨rfl, _, by simp only [emitRecovered, List.append_assoc]; rfl, ?_⟩
  intro r hr
  rcases List.mem_append.1 hr with hr | hr
  · obtain ⟨i, -, rfl⟩ := List.mem_map.1 hr; rfl
  · rw [List.mem_singleton.1 hr]; rfl

/-- What FlushGroup emits is one of the two emissions (R228). -/
theorem emitGroup_cases (P : GfParams) (ready : Bool) (g : Group) (cause : Cause) (x : GrpOut) :
    (∃ why : Status, emitGroup P ready g cause x = emitNotRecovered g cause why x) ∨
    (∃ out : List Bytes, groupDecode P ready g = .ok out ∧
      emitGroup P ready g cause x = emitRecovered g cause out x) := by
  unfold emitGroup
  split
  · exact .inl ⟨_, rfl⟩
  · split
    · exact .inl ⟨_, rfl⟩
    · cases groupDecode P ready g with
      | error code => exact .inl ⟨code, rfl⟩
      | ok out => exact .inr ⟨out, rfl, rfl⟩

/-- FlushGroup keeps every other record (R228). -/
theorem emitGroup_emits (P : GfParams) (ready : Bool) (g : Group) (cause : Cause) (x : GrpOut) :
    GrpEmits x (emitGroup P ready g cause x) := by
  rcases emitGroup_cases P ready g cause x with ⟨why, h⟩ | ⟨out, -, h⟩ <;> rw [h]
  · exact emitNotRecovered_emits g cause why x
  · exact emitRecovered_emits g cause out x

/-- FlushGroup (R228): the record leaves, the others stay in order. -/
theorem flushGroup_groups (P : GfParams) (ready : Bool) (g : Group) (cause : Cause) (x : GrpOut) :
    (flushGroup P ready g cause x).1.groups = x.1.groups.filter (fun r => r.gid != g.gid) ∧
    ∃ recs : List Record, (flushGroup P ready g cause x).2 = x.2 ++ recs ∧
      ∀ r ∈ recs, isGrpRecord r = true := by
  obtain ⟨h, recs, e, hr⟩ := emitGroup_emits P ready g cause (removeGroup g.gid x.1, x.2)
  exact ⟨h, recs, e, hr⟩

/-- With distinct group ids the filter that removes the oldest record leaves the rest. -/
theorem filter_oldest {g : Group} {rest : List Group} (h : ((g :: rest).map Group.gid).Nodup) :
    (g :: rest).filter (fun r => r.gid != g.gid) = rest := by
  simp only [List.map_cons, List.nodup_cons, List.mem_map, not_exists, not_and] at h
  rw [List.filter_cons_of_neg (by simp)]
  exact List.filter_eq_self.2 fun r hr => by simpa using h.1 r hr

/-- The eviction (R223): the oldest records leave, one by one; what is left is a suffix, below the bound
when the bound is at least 1. -/
theorem evictLoop_spec (P : GfParams) (ready : Bool) (maxGroups fuel : Nat) (x : GrpOut)
    (hd : (x.1.groups.map Group.gid).Nodup) (hf : x.1.groups.length ≤ fuel) :
    (evictLoop P ready maxGroups fuel x).1.groups <:+ x.1.groups ∧
    (1 ≤ maxGroups → (evictLoop P ready maxGroups fuel x).1.groups.length < maxGroups) ∧
    ∃ recs : List Record, (evictLoop P ready maxGroups fuel x).2 = x.2 ++ recs ∧
      ∀ r ∈ recs, isGrpRecord r = true := by
  induction fuel generalizing x with
  | zero =>
    have : x.1.groups = [] := by simpa using hf
    exact ⟨List.suffix_refl _, fun h => by simp only [evictLoop, this]; exact h, [], by simp [evictLoop], by simp⟩
  | succ fuel ih =>
    simp only [evictLoop]
    split
    · next h => exact ⟨List.suffix_refl _, fun h1 => by rw [h]; exact h1, [], by simp, by simp⟩
    · next oldest rest h =>
      split
      · next hlt => exact ⟨List.suffix_refl _, fun _ => hlt, [], by simp, by simp⟩
      · obtain ⟨hg, recs, e, hr⟩ := flushGroup_groups P ready oldest .eviction x
        rw [h] at hg hd hf
        rw [filter_oldest hd] at hg
        simp only [List.map_cons, List.nodup_cons, List.length_cons] at hd hf
        obtain ⟨h1, h2, recs', e', hr'⟩ := ih (flushGroup P ready oldest .eviction x)
          (by rw [hg]; exact hd.2) (by rw [hg]; omega)
        rw [hg] at h1
        refine ⟨h1.trans (by rw [h]; exact List.suffix_cons _ _), h2, recs ++ recs', ?_, ?_⟩
        · rw [e', e, List.append_assoc]
        · intro r hm
          rcases List.mem_append.1 hm with hm | hm
          · exact hr r hm
          · exact hr' r hm

/-- The eviction of R223. -/
theorem evict_spec (P : GfParams) (ready : Bool) (maxGroups : Nat) (x : GrpOut)
    (hd : (x.1.groups.map Group.gid).Nodup) :
    (evict P ready maxGroups x).1.groups <:+ x.1.groups ∧
    (1 ≤ maxGroups → (evict P ready maxGroups x).1.groups.length < maxGroups) ∧
    ∃ recs : List Record, (evict P ready maxGroups x).2 = x.2 ++ recs ∧
      ∀ r ∈ recs, isGrpRecord r = true :=
  evictLoop_spec P ready maxGroups _ x hd (Nat.le_refl _)

/-- Below the bound nothing is evicted (R223). -/
theorem evict_below (P : GfParams) (ready : Bool) {maxGroups : Nat} {x : GrpOut}
    (h : x.1.groups.length < maxGroups) : evict P ready maxGroups x = x := by
  unfold evict
  cases hl : x.1.groups.length with
  | zero => rfl
  | succ n =>
    simp only [evictLoop]
    split
    · rfl
    · rw [if_pos h]

/-- The record of a group id, when the ids are distinct (R220). -/
theorem groupOf_some {groups : List Group} {g : Group} (hd : (groups.map Group.gid).Nodup)
    (hm : g ∈ groups) : groupOf g.gid groups = some g := by
  induction groups with
  | nil => cases hm
  | cons a groups ih =>
    simp only [List.map_cons, List.nodup_cons, List.mem_map, not_exists, not_and] at hd
    rcases List.mem_cons.1 hm with rfl | hm
    · simp [groupOf]
    · have : (a.gid == g.gid) = false := by simpa using fun h => hd.1 g hm h.symm
      simpa [groupOf, this] using ih hd.2 hm

/-- No record of a group id (R220). -/
theorem groupOf_none {groups : List Group} {gid : W32} :
    groupOf gid groups = none ↔ ∀ g ∈ groups, g.gid ≠ gid := by
  simp [groupOf]

/-- A record changed in its place (R225): ids and order are kept. -/
theorem updateGroup_gids (g : Group) (x : Grp) :
    (updateGroup g x).groups.map Group.gid = x.groups.map Group.gid := by
  simp only [updateGroup, List.map_map]
  refine List.map_congr_left fun r _ => ?_
  simp only [Function.comp]
  split
  · next h => exact h.symm
  · rfl

/-- The indices of a good record are its primaries and its parities (R228). -/
theorem hasBlock_iff {g : Group} {i : Nat} (hi : i < 65536) :
    hasBlock g i = true ↔ ∃ e ∈ g.blocks, e.1.toNat = i := by
  unfold hasBlock kvHas
  constructor
  · intro h
    obtain ⟨v, hv⟩ := Option.isSome_iff_exists.1 h
    exact ⟨_, kvGet_mem hv, by simp [Nat.mod_eq_of_lt hi]⟩
  · rintro ⟨e, he, rfl⟩
    rw [Option.isSome_iff_ne_none]
    intro hn
    exact kvGet_none_iff.1 hn e he (by simp)

end Sys2Proof.Machine
end

