-- ==== Sys2Proof/Laws/Legal.lean ====
section
/-! SUPPORT. The default parameters meet the conditions of spec/00_scope.md R9: `GF_POLY` 0x11D is
irreducible, `GF_ALPHA` 0x02 has order 255, the evaluation points are distinct. -/

namespace Sys2Proof.Machine

/-- The carry-less product as the sum of its eight shifted terms. -/
theorem clmul_unroll (a b : Nat) : clmul a b =
    (if b.testBit 0 then a else 0) ^^^ (if b.testBit 1 then a <<< 1 else 0) ^^^
    (if b.testBit 2 then a <<< 2 else 0) ^^^ (if b.testBit 3 then a <<< 3 else 0) ^^^
    (if b.testBit 4 then a <<< 4 else 0) ^^^ (if b.testBit 5 then a <<< 5 else 0) ^^^
    (if b.testBit 6 then a <<< 6 else 0) ^^^ (if b.testBit 7 then a <<< 7 else 0) := by
  have h : ∀ (c : Bool) (r x : Nat),
      (if c = true then r ^^^ x else r) = r ^^^ (if c then x else 0) := by
    intro c r x; cases c <;> simp
  have h8 : List.range 8 = [0, 1, 2, 3, 4, 5, 6, 7] := by decide
  simp only [clmul, h8, List.foldl, h, Nat.zero_xor, Nat.shiftLeft_zero]

/-- The degree of a carry-less product is the sum of the degrees. -/
theorem clmul_testBit_top {a b i j : Nat} (hi : b.testBit i = true) (hb : b < 2 ^ (i + 1))
    (h8 : i < 8) (hj : a.testBit j = true) (ha : a < 2 ^ (j + 1)) :
    (clmul a b).testBit (i + j) = true := by
  have zb : ∀ k, i < k → b.testBit k = false := fun k hk =>
    Nat.testBit_lt_two_pow (lt_of_lt_of_le hb (Nat.pow_le_pow_right (by omega) hk))
  have za : ∀ k, j < k → a.testBit k = false := fun k hk =>
    Nat.testBit_lt_two_pow (lt_of_lt_of_le ha (Nat.pow_le_pow_right (by omega) hk))
  have term : ∀ k, (if b.testBit k = true then a <<< k else 0).testBit (i + j) = decide (k = i) := by
    intro k
    rcases lt_trichotomy k i with h | h | h
    · split
      · rw [Nat.testBit_shiftLeft, za (i + j - k) (by omega)]; simp; omega
      · simp; omega
    · subst h; simp [hi, Nat.testBit_shiftLeft, hj]
    · simp [zb k h]; omega
  have t0 : (if b.testBit 0 = true then a else 0).testBit (i + j) = decide (0 = i) := by
    simpa using term 0
  rw [clmul_unroll]
  simp only [Nat.testBit_xor, term, t0]
  interval_cases i <;> rfl

/-- The degree of a byte from 32 on is 5, 6 or 7. -/
theorem byte_degree {a : Nat} (h : 32 ≤ a) (h' : a < 256) :
    ∃ j, 5 ≤ j ∧ j < 8 ∧ a.testBit j = true ∧ a < 2 ^ (j + 1) := by
  have := (by decide +kernel : ∀ a : Fin 256, 32 ≤ a.val →
    ∃ j : Fin 8, 5 ≤ j.val ∧ a.val.testBit j = true ∧ a.val < 2 ^ (j.val + 1))
  obtain ⟨j, h5, ht, hl⟩ := this ⟨a, h'⟩ h
  exact ⟨j, h5, j.2, ht, hl⟩

theorem default_no_left_factor : ((List.range 32).all fun a => (List.range 256).all fun b =>
    decide (a < 2) || decide (b < 2) || (clmul a b != 0x11D)) = true := by decide +kernel

theorem default_no_right_factor : ((List.range 32).all fun b => (List.range 256).all fun a =>
    decide (a < 2) || decide (b < 2) || (clmul a b != 0x11D)) = true := by decide +kernel

/-- 0x11D is no product of two polynomials of degree 1 to 7. -/
theorem default_irreducible (a b : Nat) (ha : 2 ≤ a) (ha' : a < 256) (hb : 2 ≤ b) (hb' : b < 256) :
    clmul a b ≠ 0x11D := by
  rcases lt_or_ge a 32 with h | h
  · have := default_no_left_factor
    simp only [List.all_eq_true, List.mem_range, Bool.or_eq_true, decide_eq_true_eq,
      bne_iff_ne] at this
    rcases this a h b hb' with (h1 | h1) | h1
    · omega
    · omega
    · exact h1
  rcases lt_or_ge b 32 with h2 | h2
  · have := default_no_right_factor
    simp only [List.all_eq_true, List.mem_range, Bool.or_eq_true, decide_eq_true_eq,
      bne_iff_ne] at this
    rcases this b h2 a ha' with (h1 | h1) | h1
    · omega
    · omega
    · exact h1
  obtain ⟨j, j5, j8, hj, haj⟩ := byte_degree h ha'
  obtain ⟨i, i5, i8, hi, hbi⟩ := byte_degree h2 hb'
  intro he
  have := clmul_testBit_top hi hbi i8 hj haj
  rw [he, Nat.testBit_lt_two_pow] at this
  · cases this
  · exact lt_of_lt_of_le (by norm_num : 0x11D < 2 ^ 10) (Nat.pow_le_pow_right (by omega) (by omega))

/-- Multiplication by `x` modulo 0x11D, on numbers. -/
def doubleDefault (x : Nat) : Nat := if x < 128 then 2 * x else (2 * x) ^^^ 0x11D

/-- Its inverse. -/
def halveDefault (y : Nat) : Nat := if y % 2 = 0 then y / 2 else (y ^^^ 0x11D) / 2

/-- Of `x` and its first `n` doublings only the last is 1. -/
def firstOneAt : Nat → Nat → Bool
  | 0, x => x == 1
  | n + 1, x => x != 1 && firstOneAt n (doubleDefault x)

theorem gmul_two_default :
    ∀ y : Fin 256, (gmul gfDefaultField 0x02 (BitVec.ofNat 8 y)).toNat = doubleDefault y := by
  decide +kernel

theorem halve_double_default : ∀ y : Fin 256, halveDefault (doubleDefault y) = y := by decide +kernel

theorem firstOneAt_254 : firstOneAt 254 2 = true := by decide +kernel

theorem gpow_default (e : Nat) :
    (gpow gfDefaultField 0x02 e).toNat = doubleDefault^[e] 1 := by
  induction e with
  | zero => rfl
  | succ e ih =>
    rw [Function.iterate_succ_apply', ← ih]
    have := gmul_two_default ⟨(gpow gfDefaultField 0x02 e).toNat, BitVec.isLt _⟩
    simpa [gpow] using this

theorem firstOneAt_spec (n x : Nat) (h : firstOneAt n x = true) :
    (∀ i, i < n → doubleDefault^[i] x ≠ 1) ∧ doubleDefault^[n] x = 1 := by
  induction n generalizing x with
  | zero => exact ⟨by simp, by simpa [firstOneAt] using h⟩
  | succ n ih =>
    simp only [firstOneAt, Bool.and_eq_true, bne_iff_ne] at h
    obtain ⟨h1, h2⟩ := ih _ h.2
    refine ⟨fun i hi => ?_, by rwa [Function.iterate_succ_apply]⟩
    cases i with
    | zero => exact h.1
    | succ i => rw [Function.iterate_succ_apply]; exact h1 i (by omega)

theorem gpow_default_ne_one (e : Nat) (h : 0 < e) (h' : e < 255) :
    gpow gfDefaultField 0x02 e ≠ 0x01 := by
  intro he
  have := gpow_default e
  rw [he] at this
  obtain ⟨e, rfl⟩ : ∃ e', e = e' + 1 := ⟨e - 1, by omega⟩
  rw [Function.iterate_succ_apply] at this
  exact (firstOneAt_spec 254 2 firstOneAt_254).1 e (by omega) this.symm

theorem gpow_default_255 : gpow gfDefaultField 0x02 255 = 0x01 := by
  apply BitVec.eq_of_toNat_eq
  rw [gpow_default, Function.iterate_succ_apply]
  exact (firstOneAt_spec 254 2 firstOneAt_254).2

theorem iterate_double_lt (e : Nat) : doubleDefault^[e] 1 < 256 := by
  rw [← gpow_default]; exact BitVec.isLt _

theorem iterate_double_cancel (i d : Nat) (h : doubleDefault^[i + d] 1 = doubleDefault^[i] 1) :
    doubleDefault^[d] 1 = 1 := by
  induction i with
  | zero => simpa using h
  | succ i ih =>
    apply ih
    rw [show i + 1 + d = (i + d) + 1 by omega, Function.iterate_succ_apply',
      Function.iterate_succ_apply'] at h
    have h1 := halve_double_default ⟨_, iterate_double_lt (i + d)⟩
    have h2 := halve_double_default ⟨_, iterate_double_lt i⟩
    simp only at h1 h2
    rw [← h1, ← h2, h]

/-- The first 255 powers of `GF_ALPHA` are distinct. -/
theorem gpow_default_injective (i j : Nat) (hi : i < 255) (hj : j < 255)
    (h : gpow gfDefaultField 0x02 i = gpow gfDefaultField 0x02 j) : i = j := by
  have h' := congrArg BitVec.toNat h
  rw [gpow_default, gpow_default] at h'
  have key : ∀ a b : Nat, b < 255 → a < b → doubleDefault^[a] 1 = doubleDefault^[b] 1 → False := by
    intro a b hb hab he
    have := iterate_double_cancel a (b - a) (by rw [show a + (b - a) = b by omega]; exact he.symm)
    refine gpow_default_ne_one (b - a) (by omega) (by omega) (BitVec.eq_of_toNat_eq ?_)
    rw [gpow_default, this]; rfl
  rcases lt_trichotomy i j with hl | he | hg
  · exact (key i j hj hl h').elim
  · exact he
  · exact (key j i hi hg h'.symm).elim

theorem gpow_default_ne_zero (e : Nat) : gpow gfDefaultField 0x02 e ≠ 0x00 := by
  intro h
  have h' := congrArg BitVec.toNat h
  rw [gpow_default] at h'
  have : ∀ e, doubleDefault^[e] 1 ≠ 0 := by
    intro e
    induction e with
    | zero => simp
    | succ e ih =>
      rw [Function.iterate_succ_apply']
      intro hz
      have := halve_double_default ⟨_, iterate_double_lt e⟩
      simp only at this
      rw [hz] at this
      exact ih this.symm
  exact this e h'

/-- The default `GF_POLY` and `GF_ALPHA` meet R9. -/
theorem gfDefaultField_legal : FieldLegal gfDefaultField where
  degree := by decide
  irreducible := default_irreducible
  orderOne := gpow_default_255
  orderLeast := gpow_default_ne_one

/-- The default parameters meet R9. -/
theorem gfDefault_legal : GfLegal gfDefault where
  field := gfDefaultField_legal
  points := by
    intro i j hi hj h
    simp only [gfDefault] at h
    split at h <;> split at h
    · omega
    · exact (gpow_default_ne_zero _ h.symm).elim
    · exact (gpow_default_ne_zero _ h).elim
    · have := gpow_default_injective (i - 1) (j - 1) (by omega) (by omega) h
      omega

/-- All the default parameters meet R9. -/
theorem paramsDefault_legal : ParamsLegal paramsDefault where
  gf := gfDefault_legal
  maxLen := Nat.le_refl _

end Sys2Proof.Machine
end

