-- ==== Sys2Proof/Laws/Parametric.lean ====
section
/-! SUPPORT. `exec` and `step` are the parametric machine at the default parameters (spec/00_scope.md
R9, spec/10_state.md R38). -/

namespace Sys2Proof.Machine

/-- Every meaning is the parametric one at the default parameters. -/
theorem exec_eq_execWith (i : Instr) (s : State) : exec i s = execWith paramsDefault i s := by
  cases i <;> rfl

/-- The step is the parametric one at the default parameters. -/
theorem step_eq_stepWith (s : State) : step s = stepWith paramsDefault s := by
  simp only [step, stepWith, exec_eq_execWith]
  rfl

end Sys2Proof.Machine
end

