-- ==== Sys2Proof/Machine/Pipe.lean ====
section
/-! DEFINITION. The pseudo-command PIPE.DATAGRAM and the continuations of the timer commands
(spec/46_system.md R292, R293; spec/30_encoding.md R102). The host drives the chain; the two open
functions are arguments (spec/00_scope.md R9). Not part of `step`: the chain has no opcode. -/

namespace Sys2Proof.Machine

/-- What `FecDeframe` yields for a packet that carries FEC metadata (R9). -/
structure FecUnit where
  gid : W32
  index : BitVec 16
  k : BitVec 8
  n : BitVec 8
  payload : Bytes
deriving DecidableEq, Repr

/-- What `BlockToPacket` yields for an emitted block (R9). -/
structure DepUnit where
  seq : Seq
  ts : W32
  m : Bool
  payload : Bytes
deriving DecidableEq, Repr

/-- The parameters of the chain (R9, 92 D20): the machine's, and the two open functions, which nothing
fixes. -/
structure PipeParams where
  /-- the parameters of the machine the chain runs on -/
  machine : Params
  fecDeframe : Packet → Option FecUnit
  /-- its context (R9) is the block's state, OQ included: what the host can see (log 16) -/
  blockToPacket : State → GroupBlock → Option DepUnit

/-- The outcome of a command that the host offers whole (R292): the decode layer rejects one with a
length above `MAX_LEN` with E_LENGTH (R98 (b), U20), any other is executed. That a command of the chain
meets this test, and that one too long for its 16-bit length field is E_LENGTH as well, are the model's
readings. DESIGN CHOICE, log 24. -/
def issueOutcome (P : Params) (i : Instr) (s : State) : Host.Outcome State Fault Refusal :=
  if i.wellFormed P.maxLen then execWith P i s
  else .next (portReject i.opcode.code .badLength s)

/-- `issue`: one complete command, and the records it appended to OQ (R292). -/
def issue (Q : PipeParams) (i : Instr) (s : State) : State × List Record :=
  match issueOutcome Q.machine i s with
  | .next t => (t, t.oq.drop s.oq.length)
  | .fault _ => (s, [])
  | .refused _ => (s, [])

/-- The packets of the `RobEmit` records, in order. -/
def emittedPackets : List Record → List Packet
  | [] => []
  | .robEmit pkt _ :: rest => pkt :: emittedPackets rest
  | _ :: rest => emittedPackets rest

/-- The blocks of the `GroupBlock` records, in order. -/
def emittedBlocks : List Record → List GroupBlock
  | [] => []
  | .groupBlock b :: rest => b :: emittedBlocks rest
  | _ :: rest => emittedBlocks rest

/-- ToDep(b) (R292). -/
def toDep (Q : PipeParams) (s : State) (b : GroupBlock) : State :=
  match Q.blockToPacket s b with
  | none => s
  | some u => (issue Q (.depPacket u.seq u.ts u.m u.payload) s).1

/-- Downstream(p) (R292). -/
def downstream (Q : PipeParams) (s : State) (p : Packet) : State :=
  match Q.fecDeframe p with
  | none => s
  | some u =>
    let y := issue Q (.grpAdd u.gid u.index u.k u.n u.payload) s
    (emittedBlocks y.2).foldl (toDep Q) y.1

/-- The `Packet` made of the `Parsed` fields and the payload range of the datagram (R180, R292). -/
def packetOf (B : Bytes) (h : ParsedRtp) : Packet :=
  { v := h.v, p := h.p, x := h.x, cc := h.cc, m := h.m, pt := h.pt, seq := h.seq, ts := h.ts
    ssrc := h.ssrc
    payload := slice B h.payloadOff.toNat (h.payloadOff.toNat + h.payloadLen.toNat) }

/-- The `Parsed` record among the records of an RTP.PARSE. -/
def parsedRecord : List Record → Option ParsedRtp
  | [] => none
  | .parsed h :: _ => some h
  | _ :: rest => parsedRecord rest

/-- PIPE.DATAGRAM arrival, B (R292). -/
def pipeDatagram (Q : PipeParams) (arrival : W32) (B : Bytes) (s : State) : State :=
  let y := issue Q (.rtpParse B) s
  match parsedRecord y.2 with
  | none => y.1
  | some h =>
    let z := issue Q (.robAccept (packetOf B h) arrival) y.1
    (emittedPackets z.2).foldl (downstream Q) z.1

/-- The continuation after ROB.TIMER (R292). -/
def pipeTimer (Q : PipeParams) (s : State) : State :=
  let y := issue Q .robTimer s
  (emittedPackets y.2).foldl (downstream Q) y.1

/-- The continuation after GRP.EXPIRE (R292). -/
def pipeExpire (Q : PipeParams) (gid : W32) (s : State) : State :=
  let y := issue Q (.grpExpire gid) s
  (emittedBlocks y.2).foldl (toDep Q) y.1

end Sys2Proof.Machine
end

