-- ==== Sys2Proof/Laws/Pipe.lean ====
section
/-! SUPPORT. What a command of the datagram chain can do (spec/46_system.md R292). -/

namespace Sys2Proof.Machine

/-- A command within `MAX_LEN` is executed; the records it appended are handed on. -/
theorem issue_wellFormed {Q : PipeParams} {i : Instr} {s t : State} {recs : List Record}
    (hw : i.wellFormed Q.machine.maxLen = true) (h : execWith Q.machine i s = .next t)
    (ho : t.oq = s.oq ++ recs) : issue Q i s = (t, recs) := by
  simp [issue, issueOutcome, hw, h, ho]

/-- A command above `MAX_LEN` ends with E_LENGTH and does nothing else (R98 (b)). -/
theorem issue_tooLong {Q : PipeParams} {i : Instr} (s : State)
    (hw : i.wellFormed Q.machine.maxLen = false) :
    issue Q i s = (s.ended i.opcode.code [] .eLength, [.done i.opcode.code .eLength]) := by
  simp [issue, issueOutcome, hw, portReject, frameStatus, reject, finish, emitAll, State.ended]

/-- The chain of a datagram above `MAX_LEN` stops at RTP.PARSE (R292, R98 (b)). -/
theorem pipeDatagram_tooLong {Q : PipeParams} {B : Bytes} (arrival : W32) (s : State)
    (h : lengthFits Q.machine.maxLen B = false) :
    pipeDatagram Q arrival B s = s.ended 0x10 [] .eLength := by
  simp [pipeDatagram, issue_tooLong (i := .rtpParse B) s h, parsedRecord, Instr.opcode, Opcode.code]

/-- `issue` is the step on the bytes of its command, where the decode layer reads them back. -/
theorem issueOutcome_eq_stepWith {P : Params} {i : Instr} {s : State}
    (h : frame P.maxLen (encode i ++ s.port) s.portEnd =
      if i.wellFormed P.maxLen then .command i s.port
      else .reject i.opcode.code .badLength s.port) :
    stepWith P { s with port := encode i ++ s.port } = issueOutcome P i s := by
  cases hw : i.wellFormed P.maxLen <;> simp [stepWith, h, hw, issueOutcome, consume]

end Sys2Proof.Machine
end

