-- ==== Sys2Proof/Laws/Reorder.lean ====
section
/-! SUPPORT. What each procedure of the reorder buffer can do, said once: which fields it moves, what it
leaves in the buffer, and which records it appends. -/

namespace Sys2Proof.Machine

/-- The record is a `RobEmit` or a `RobSkip`. -/
def isRobMove : Record → Bool
  | .robEmit .. => true
  | .robSkip .. => true
  | _ => false

/-- What a move of the buffer does: only `expected` and `buf` change, entries only leave, and the
records it appends walk from the old `expected` to the new one. -/
def RobMoves (x y : RobOut) : Prop :=
  ∃ (e : Seq) (b : List (BitVec 16 × RobEntry)) (recs : List Record),
    y = ({ x.1 with expected := e, buf := b }, x.2 ++ recs) ∧ b.Sublist x.1.buf ∧
    robTrace x.1.expected recs = some e ∧ ∀ r ∈ recs, isRobMove r = true

theorem robTrace_append {e e' : Seq} {a b : List Record} (h : robTrace e a = some e') :
    robTrace e (a ++ b) = robTrace e' b := by
  induction a generalizing e with
  | nil => simp only [robTrace, Option.some.injEq] at h; subst h; rfl
  | cons r a ih =>
    cases r <;> simp only [robTrace, List.cons_append] at h ⊢ <;> first
      | exact ih h
      | (split at h
         · next hc => rw [if_pos hc]; exact ih h
         · simp at h)

theorem RobMoves.refl (x : RobOut) : RobMoves x x :=
  ⟨x.1.expected, x.1.buf, [], by simp, List.Sublist.refl _, rfl, by simp⟩

theorem RobMoves.trans {x y z : RobOut} (h : RobMoves x y) (h' : RobMoves y z) : RobMoves x z := by
  obtain ⟨e, b, recs, rfl, hb, ht, hr⟩ := h
  obtain ⟨e', b', recs', rfl, hb', ht', hr'⟩ := h'
  refine ⟨e', b', recs ++ recs', by simp, hb'.trans hb, ?_, ?_⟩
  · rw [robTrace_append ht]; exact ht'
  · intro r h; rcases List.mem_append.1 h with h | h
    · exact hr r h
    · exact hr' r h

/-- FlushInOrder with fuel enough (R193): it is a move, `expected` ends as no key, and an entry at the
old `expected` leaves. -/
theorem flushLoop_moves (fuel : Nat) (x : RobOut) (hs : KvSorted x.1.buf)
    (hk : ∀ e ∈ x.1.buf, e.2.pkt.seq = e.1) (hf : x.1.buf.length ≤ fuel) :
    RobMoves x (flushLoop fuel x) ∧
    kvGet (flushLoop fuel x).1.expected (flushLoop fuel x).1.buf = none ∧
    ((kvGet x.1.expected x.1.buf).isSome = true →
      (flushLoop fuel x).1.buf.length < x.1.buf.length) := by
  induction fuel generalizing x with
  | zero =>
    have hb : x.1.buf = [] := by simpa using hf
    exact ⟨RobMoves.refl x, by simp [flushLoop, hb, kvGet], by simp [hb, kvGet]⟩
  | succ fuel ih =>
    obtain ⟨r, out⟩ := x
    simp only [flushLoop]
    split
    · next h => exact ⟨RobMoves.refl _, h, by simp [h]⟩
    · next e h =>
      have hlen := length_kvDel (k := r.expected) hs
      simp only [h, Option.isSome_some, if_true] at hlen
      have hmem := kvGet_mem h
      have hseq : e.pkt.seq = r.expected := hk _ hmem
      have hsub : (kvDel r.expected r.buf).Sublist r.buf := List.filter_sublist
      obtain ⟨h1, h2, -⟩ := ih
        ({ r with buf := kvDel r.expected r.buf, expected := r.expected + 1 },
          out ++ [.robEmit e.pkt e.arrival]) (kvSorted_kvDel hs)
        (fun a ha => hk a (hsub.subset ha)) (by simp only at hf ⊢; omega)
      have hfirst : RobMoves (r, out)
          ({ r with buf := kvDel r.expected r.buf, expected := r.expected + 1 },
            out ++ [.robEmit e.pkt e.arrival]) :=
        ⟨_, _, [.robEmit e.pkt e.arrival], rfl, hsub, by simp [robTrace, hseq],
          by simp [isRobMove]⟩
      refine ⟨hfirst.trans h1, h2, fun _ => ?_⟩
      obtain ⟨e', b', recs', hy, hb', -⟩ := h1
      rw [hy]
      have := hb'.length_le
      simp only at this ⊢
      omega

/-- FlushInOrder (R193). -/
theorem flushInOrder_moves (x : RobOut) (hs : KvSorted x.1.buf)
    (hk : ∀ e ∈ x.1.buf, e.2.pkt.seq = e.1) :
    RobMoves x (flushInOrder x) ∧
    kvGet (flushInOrder x).1.expected (flushInOrder x).1.buf = none ∧
    ((kvGet x.1.expected x.1.buf).isSome = true →
      (flushInOrder x).1.buf.length < x.1.buf.length) :=
  flushLoop_moves _ x hs hk (Nat.le_refl _)

/-- The search of ForceAdvance finds nothing exactly when no key is ahead. -/
theorem nearestAhead_none {expected : Seq} {m : List (BitVec 16 × RobEntry)} :
    nearestAhead expected m = none ↔ ∀ e ∈ m, isAhead expected e.1 = false := by
  induction m with
  | nil => simp [nearestAhead]
  | cons e m ih =>
    obtain ⟨k, v⟩ := e
    simp only [nearestAhead, List.mem_cons, forall_eq_or_imp]
    cases h : nearestAhead expected m with
    | none =>
      rw [h] at ih
      cases hk : isAhead expected k <;> simp
      · simpa using ih
    | some t =>
      rw [h] at ih
      simp only [reduceCtorEq, false_iff] at ih
      have : (if isAhead expected k && decide (sdist k expected < sdist t expected) then some k
        else some t) ≠ none := by split <;> simp
      simp only [this, false_iff]
      exact fun h' => ih h'.2

/-- What the search of ForceAdvance finds: a key ahead, of least forward distance (R194, R195). -/
theorem nearestAhead_some {expected t : Seq} {m : List (BitVec 16 × RobEntry)}
    (h : nearestAhead expected m = some t) :
    (∃ e ∈ m, e.1 = t) ∧ isAhead expected t = true ∧
      ∀ e ∈ m, isAhead expected e.1 = true → sdist t expected ≤ sdist e.1 expected := by
  induction m generalizing t with
  | nil => simp [nearestAhead] at h
  | cons e m ih =>
    obtain ⟨k, v⟩ := e
    simp only [nearestAhead] at h
    cases hm : nearestAhead expected m with
    | none =>
      rw [hm] at h
      have hn := nearestAhead_none.1 hm
      simp only at h
      split at h
      · next hk =>
        obtain rfl : k = t := by simpa using h
        refine ⟨⟨_, List.mem_cons_self, rfl⟩, hk, fun e he ha => ?_⟩
        rcases List.mem_cons.1 he with rfl | he
        · exact Nat.le_refl _
        · rw [hn e he] at ha; simp at ha
      · simp at h
    | some t' =>
      rw [hm] at h
      obtain ⟨⟨e', he', hee⟩, ha', hl'⟩ := ih hm
      simp only at h
      split at h
      · next hk =>
        obtain rfl : k = t := by simpa using h
        simp only [Bool.and_eq_true, decide_eq_true_eq] at hk
        refine ⟨⟨_, List.mem_cons_self, rfl⟩, hk.1, fun e he ha => ?_⟩
        rcases List.mem_cons.1 he with rfl | he
        · exact Nat.le_refl _
        · have := hl' e he ha; omega
      · next hk =>
        obtain rfl : t' = t := by simpa using h
        refine ⟨⟨e', List.mem_cons_of_mem _ he', hee⟩, ha', fun e he ha => ?_⟩
        rcases List.mem_cons.1 he with rfl | he
        · simp only [Bool.and_eq_true, decide_eq_true_eq, not_and] at hk
          exact Nat.le_of_not_lt (hk ha)
        · exact hl' e he ha

/-- Every distance from `expected` is zero, ahead or behind. -/
theorem ahead_or_behind {expected k : Seq} (h : k ≠ expected) :
    isAhead expected k = true ∨ isBehind expected k = true := by
  have h' : k.toNat ≠ expected.toNat := fun e => h (BitVec.eq_of_toNat_eq e)
  have h1 := k.isLt
  have h2 := expected.isLt
  have ha : sdist k expected = (65536 - expected.toNat + k.toNat) % 65536 := by
    rw [sdist, BitVec.toNat_sub]
  have hb : sdist expected k = (65536 - k.toNat + expected.toNat) % 65536 := by
    rw [sdist, BitVec.toNat_sub]
  rw [isAhead, isBehind, ha, hb, Bool.and_eq_true, Bool.and_eq_true, decide_eq_true_iff,
    decide_eq_true_iff, decide_eq_true_iff, decide_eq_true_iff]
  omega

/-- ForceAdvance (R194, R197) when `expected` is no key: it is a move, `expected` ends as no key, and
some entry leaves unless the buffer is empty. -/
theorem forceAdvance_moves (x : RobOut) (hs : KvSorted x.1.buf)
    (hk : ∀ e ∈ x.1.buf, e.2.pkt.seq = e.1) (he : kvGet x.1.expected x.1.buf = none) :
    RobMoves x (forceAdvance x) ∧
    kvGet (forceAdvance x).1.expected (forceAdvance x).1.buf = none ∧
    (x.1.buf ≠ [] → (forceAdvance x).1.buf.length < x.1.buf.length) := by
  have hdiscard : ∀ y : RobOut, kvGet y.1.expected y.1.buf = none →
      RobMoves y (discardBehind y.1, y.2) ∧
      kvGet (discardBehind y.1).expected (discardBehind y.1).buf = none := by
    intro y hy
    refine ⟨⟨y.1.expected, _, [], by simp only [discardBehind, List.append_nil]; rfl, List.filter_sublist, rfl, by simp⟩, ?_⟩
    rw [kvGet_none_iff] at hy ⊢
    exact fun e h => hy e (List.mem_of_mem_filter h)
  unfold forceAdvance advance
  cases hn : nearestAhead x.1.expected x.1.buf with
  | none =>
    obtain ⟨h1, h2⟩ := hdiscard x he
    refine ⟨h1, h2, fun hb => ?_⟩
    obtain ⟨e, l, hl⟩ := List.exists_cons_of_ne_nil hb
    have hmem : e ∈ x.1.buf := by rw [hl]; exact List.mem_cons_self
    have hbe := (ahead_or_behind (kvGet_none_iff.1 he e hmem)).resolve_left
      (by simp [nearestAhead_none.1 hn e hmem])
    simp only [discardBehind]
    exact List.length_filter_lt_length_iff_exists.2 ⟨e, hmem, by simp [hbe]⟩
  | some t =>
    obtain ⟨⟨e, hmem, rfl⟩, ha, -⟩ := nearestAhead_some hn
    simp only
    obtain ⟨h1, h2, h3⟩ := flushInOrder_moves
      ({ x.1 with expected := e.1 }, x.2 ++ [.robSkip x.1.expected e.1]) hs hk
    obtain ⟨h4, h5⟩ := hdiscard _ h2
    have hskip : RobMoves x ({ x.1 with expected := e.1 }, x.2 ++ [.robSkip x.1.expected e.1]) := by
      refine ⟨e.1, x.1.buf, [.robSkip x.1.expected e.1], rfl, List.Sublist.refl _, ?_,
        by simp [isRobMove]⟩
      simp only [isAhead, Bool.and_eq_true, decide_eq_true_eq] at ha
      simp [robTrace, ha.1, ha.2]
    refine ⟨(hskip.trans h1).trans h4, h5, fun _ => ?_⟩
    have hsome : (kvGet e.1 x.1.buf).isSome = true := by
      rw [(kvGet_some_iff hs).2 hmem]; rfl
    have := h3 hsome
    obtain ⟨e', b', recs', hy, hb', -⟩ := h4
    have hle := hb'.length_le
    have hb'' : b' = (discardBehind (flushInOrder ({ x.1 with expected := e.1 },
      x.2 ++ [.robSkip x.1.expected e.1])).1).buf := by
      have := congrArg (fun z : RobOut => z.1.buf) hy; simpa using this.symm
    rw [← hb'']
    simp only at this hle
    omega

/-- The window test (R196), made when `expected` is no key: a move, after which the window holds if
there was at most one entry too many. -/
theorem windowFlush_moves (w : BitVec 16) (x : RobOut) (hs : KvSorted x.1.buf)
    (hk : ∀ e ∈ x.1.buf, e.2.pkt.seq = e.1) (he : kvGet x.1.expected x.1.buf = none) :
    RobMoves x (windowFlush w x) ∧
    kvGet (windowFlush w x).1.expected (windowFlush w x).1.buf = none ∧
    (x.1.buf.length ≤ w.toNat + 1 → (windowFlush w x).1.buf.length ≤ w.toNat) := by
  unfold windowFlush
  split
  · next hw =>
    obtain ⟨h1, h2, h3⟩ := forceAdvance_moves x hs hk he
    refine ⟨h1, h2, fun hl => ?_⟩
    have := h3 (fun hb => by simp [hb] at hw)
    omega
  · next hw => exact ⟨RobMoves.refl x, he, fun _ => by omega⟩

/-! The fields the statistics do not touch. -/

variable (g : BitVec 16) (pkt : Packet) (arrival : W32) (first : Bool) (r : Rob)

@[simp] theorem updateStats_started : (updateStats g pkt arrival first r).started = r.started := by
  simp only [updateStats, updateJitter, updateLoss]; split <;> [rfl; split <;> rfl]

@[simp] theorem updateStats_expected : (updateStats g pkt arrival first r).expected = r.expected := by
  simp only [updateStats, updateJitter, updateLoss]; split <;> [rfl; split <;> rfl]

@[simp] theorem updateStats_buf : (updateStats g pkt arrival first r).buf = r.buf := by
  simp only [updateStats, updateJitter, updateLoss]; split <;> [rfl; split <;> rfl]

@[simp] theorem updateStats_timer : (updateStats g pkt arrival first r).timer = r.timer := by
  simp only [updateStats, updateJitter, updateLoss]; split <;> [rfl; split <;> rfl]

@[simp] theorem updateStats_lateDropped :
    (updateStats g pkt arrival first r).lateDropped = r.lateDropped := by
  simp only [updateStats, updateJitter, updateLoss]; split <;> [rfl; split <;> rfl]

/-- What a move leaves good. -/
theorem RobMoves.keeps {x y : RobOut} (h : RobMoves x y) (hs : KvSorted x.1.buf)
    (hk : ∀ e ∈ x.1.buf, e.2.pkt.seq = e.1) (hp : ∀ e ∈ x.1.buf, e.2.pkt.payload ≠ []) :
    KvSorted y.1.buf ∧ (∀ e ∈ y.1.buf, e.2.pkt.seq = e.1) ∧
      (∀ e ∈ y.1.buf, e.2.pkt.payload ≠ []) ∧ y.1.started = x.1.started := by
  obtain ⟨e, b, recs, rfl, hb, -⟩ := h
  exact ⟨hs.sublist hb, fun a ha => hk a (hb.subset ha), fun a ha => hp a (hb.subset ha), rfl⟩

/-- ROB.ACCEPT of a packet that is not dropped (R187), from a buffer that meets its invariant and
whose `expected` is set: the invariant holds again, the records walk from the old `expected` to the
new one, and the window holds if it held. -/
theorem robInsert_spec (c : Csr) (hs : KvSorted r.buf) (hk : ∀ e ∈ r.buf, e.2.pkt.seq = e.1)
    (hp : ∀ e ∈ r.buf, e.2.pkt.payload ≠ []) (hst : r.started = true) (hpay : pkt.payload ≠ []) :
    RobInv (robInsert c pkt arrival first r).1 ∧
    (robInsert c pkt arrival first r).1.started = true ∧
    robTrace r.expected (robInsert c pkt arrival first r).2 =
      some (robInsert c pkt arrival first r).1.expected ∧
    (∀ q ∈ (robInsert c pkt arrival first r).2, isRobMove q = true) ∧
    (r.buf.length ≤ c.robWindow.toNat →
      (robInsert c pkt arrival first r).1.buf.length ≤ c.robWindow.toNat) := by
  let r1 := updateStats c.restartGap pkt arrival first r
  let x0 : RobOut := ({ r1 with buf := kvPut pkt.seq ⟨pkt, arrival⟩ r1.buf }, [])
  have h0s : KvSorted x0.1.buf := by
    simp only [x0, r1, updateStats_buf]; exact kvSorted_kvPut hs
  have h0k : ∀ e ∈ x0.1.buf, e.2.pkt.seq = e.1 := by
    intro e he
    simp only [x0, r1, updateStats_buf] at he
    rcases mem_kvPut he with rfl | he
    · rfl
    · exact hk e he
  have h0p : ∀ e ∈ x0.1.buf, e.2.pkt.payload ≠ [] := by
    intro e he
    simp only [x0, r1, updateStats_buf] at he
    rcases mem_kvPut he with rfl | he
    · exact hpay
    · exact hp e he
  obtain ⟨m1, e1, -⟩ := flushInOrder_moves x0 h0s h0k
  obtain ⟨s1, k1, p1, -⟩ := m1.keeps h0s h0k h0p
  obtain ⟨m2, e2, w2⟩ := windowFlush_moves c.robWindow _ s1 k1 e1
  obtain ⟨s2, k2, p2, -⟩ := m2.keeps s1 k1 p1
  have m := m1.trans m2
  have hst2 := (m.keeps h0s h0k h0p).2.2.2
  have hres : robInsert c pkt arrival first r =
      (rearm (windowFlush c.robWindow (flushInOrder x0)).1,
        (windowFlush c.robWindow (flushInOrder x0)).2) := rfl
  have hstart : (windowFlush c.robWindow (flushInOrder x0)).1.started = true := by
    rw [hst2]; simp [x0, r1, hst]
  rw [hres]
  refine ⟨⟨s2, k2, p2, e2, rfl, fun h => ?_, fun h => ?_⟩, hstart, ?_, ?_, fun hl => ?_⟩
  · simp [rearm, hstart] at h
  · simp [rearm, hstart] at h
  · obtain ⟨e, b, recs, hy, hb, ht, hr⟩ := m
    rw [hy]
    simpa [x0, r1, rearm] using ht
  · obtain ⟨e, b, recs, hy, hb, ht, hr⟩ := m
    rw [hy]
    simpa [x0] using hr
  · apply w2
    obtain ⟨e, b, recs, hy, hb, -⟩ := m1
    have h1 : (flushInOrder x0).1.buf.length ≤ x0.1.buf.length := by rw [hy]; exact hb.length_le
    have h2 : x0.1.buf.length ≤ r.buf.length + 1 := by
      simp only [x0, r1, updateStats_buf]
      rw [length_kvPut hs]; split <;> omega
    omega

/-- ROB.TIMER of an armed timer (R199). -/
theorem timerFlush_spec (h : RobInv r) (hst : r.started = true) :
    RobInv (timerFlush r).1 ∧ (timerFlush r).1.started = true ∧
    robTrace r.expected (timerFlush r).2 = some (timerFlush r).1.expected ∧
    (∀ q ∈ (timerFlush r).2, isRobMove q = true) ∧
    (timerFlush r).1.buf.length ≤ r.buf.length := by
  obtain ⟨m, e, -⟩ := forceAdvance_moves ({ r with timer := false }, []) h.sorted h.keyed
    h.expectedFree
  obtain ⟨s1, k1, p1, st1⟩ := m.keeps h.sorted h.keyed h.filled
  have hstart : (forceAdvance ({ r with timer := false }, [])).1.started = true := by
    rw [st1]; exact hst
  refine ⟨⟨s1, k1, p1, e, rfl, fun h' => ?_, fun h' => ?_⟩, hstart, ?_, ?_, ?_⟩
  · simp [timerFlush, rearm, hstart] at h'
  · simp [timerFlush, rearm, hstart] at h'
  all_goals
    obtain ⟨e, b, recs, hy, hb, ht, hr⟩ := m
    simp only [timerFlush, hy]
  · simpa [rearm] using ht
  · simpa using hr
  · exact hb.length_le

end Sys2Proof.Machine
end

