-- ==== Sys2Proof/Laws/State.lean ====
section
/-! SUPPORT. The fields of a state after each operation that updates it, true by `rfl`: later proofs
need not unfold a record update. -/

namespace Sys2Proof.Machine

variable (s : State) (op : Byte) (st : Status) (recs : List Record) (rest : Bytes)

@[simp] theorem emitAll_gf : (emitAll recs s).gf = s.gf := rfl

@[simp] theorem emitAll_rob : (emitAll recs s).rob = s.rob := rfl

@[simp] theorem emitAll_grp : (emitAll recs s).grp = s.grp := rfl

@[simp] theorem emitAll_dep : (emitAll recs s).dep = s.dep := rfl

@[simp] theorem emitAll_rtpMalformed : (emitAll recs s).rtpMalformed = s.rtpMalformed := rfl

@[simp] theorem emitAll_fatal : (emitAll recs s).fatal = s.fatal := rfl

@[simp] theorem emitAll_lastStatus : (emitAll recs s).lastStatus = s.lastStatus := rfl

@[simp] theorem emitAll_csr : (emitAll recs s).csr = s.csr := rfl

@[simp] theorem emitAll_oq : (emitAll recs s).oq = s.oq ++ recs := rfl

@[simp] theorem emitAll_port : (emitAll recs s).port = s.port := rfl

@[simp] theorem emitAll_portEnd : (emitAll recs s).portEnd = s.portEnd := rfl

@[simp] theorem finish_gf : (finish op st s).gf = s.gf := rfl

@[simp] theorem finish_rob : (finish op st s).rob = s.rob := rfl

@[simp] theorem finish_grp : (finish op st s).grp = s.grp := rfl

@[simp] theorem finish_dep : (finish op st s).dep = s.dep := rfl

@[simp] theorem finish_rtpMalformed : (finish op st s).rtpMalformed = s.rtpMalformed := rfl

@[simp] theorem finish_fatal : (finish op st s).fatal = s.fatal := rfl

@[simp] theorem finish_lastStatus : (finish op st s).lastStatus = st.code := rfl

@[simp] theorem finish_csr : (finish op st s).csr = s.csr := rfl

@[simp] theorem finish_oq : (finish op st s).oq = s.oq ++ [.done op st] := rfl

@[simp] theorem finish_port : (finish op st s).port = s.port := rfl

@[simp] theorem finish_portEnd : (finish op st s).portEnd = s.portEnd := rfl

@[simp] theorem reject_eq_finish : reject op st s = finish op st s := rfl

@[simp] theorem ended_gf : (s.ended op recs st).gf = s.gf := rfl

@[simp] theorem ended_rob : (s.ended op recs st).rob = s.rob := rfl

@[simp] theorem ended_grp : (s.ended op recs st).grp = s.grp := rfl

@[simp] theorem ended_dep : (s.ended op recs st).dep = s.dep := rfl

@[simp] theorem ended_rtpMalformed : (s.ended op recs st).rtpMalformed = s.rtpMalformed := rfl

@[simp] theorem ended_fatal : (s.ended op recs st).fatal = s.fatal := rfl

@[simp] theorem ended_lastStatus : (s.ended op recs st).lastStatus = st.code := rfl

@[simp] theorem ended_csr : (s.ended op recs st).csr = s.csr := rfl

@[simp] theorem ended_oq : (s.ended op recs st).oq = s.oq ++ recs ++ [.done op st] := rfl

@[simp] theorem ended_port : (s.ended op recs st).port = s.port := rfl

@[simp] theorem ended_portEnd : (s.ended op recs st).portEnd = s.portEnd := rfl

@[simp] theorem consume_gf : (consume rest s).gf = s.gf := rfl

@[simp] theorem consume_rob : (consume rest s).rob = s.rob := rfl

@[simp] theorem consume_grp : (consume rest s).grp = s.grp := rfl

@[simp] theorem consume_dep : (consume rest s).dep = s.dep := rfl

@[simp] theorem consume_rtpMalformed : (consume rest s).rtpMalformed = s.rtpMalformed := rfl

@[simp] theorem consume_fatal : (consume rest s).fatal = s.fatal := rfl

@[simp] theorem consume_lastStatus : (consume rest s).lastStatus = s.lastStatus := rfl

@[simp] theorem consume_csr : (consume rest s).csr = s.csr := rfl

@[simp] theorem consume_oq : (consume rest s).oq = s.oq := rfl

@[simp] theorem consume_port : (consume rest s).port = rest := rfl

@[simp] theorem consume_portEnd : (consume rest s).portEnd = s.portEnd := rfl

@[simp] theorem teardown_gf : (teardown s).gf = s.gf := rfl

@[simp] theorem teardown_rob : (teardown s).rob = robTeardown s.rob := rfl

@[simp] theorem teardown_grp : (teardown s).grp = { s.grp with groups := [] } := rfl

@[simp] theorem teardown_dep : (teardown s).dep = depTeardown s.dep := rfl

@[simp] theorem teardown_rtpMalformed : (teardown s).rtpMalformed = s.rtpMalformed := rfl

@[simp] theorem teardown_fatal : (teardown s).fatal = s.fatal := rfl

@[simp] theorem teardown_lastStatus : (teardown s).lastStatus = s.lastStatus := rfl

@[simp] theorem teardown_csr : (teardown s).csr = s.csr := rfl

@[simp] theorem teardown_oq : (teardown s).oq = s.oq := rfl

@[simp] theorem teardown_port : (teardown s).port = s.port := rfl

@[simp] theorem teardown_portEnd : (teardown s).portEnd = s.portEnd := rfl

@[simp] theorem hardReset_gf : (hardReset s).gf = GfUnit.reset := rfl

@[simp] theorem hardReset_rob : (hardReset s).rob = Rob.reset := rfl

@[simp] theorem hardReset_grp : (hardReset s).grp = Grp.reset := rfl

@[simp] theorem hardReset_dep : (hardReset s).dep = Dep.reset := rfl

@[simp] theorem hardReset_rtpMalformed : (hardReset s).rtpMalformed = 0 := rfl

@[simp] theorem hardReset_fatal : (hardReset s).fatal = false := rfl

@[simp] theorem hardReset_lastStatus : (hardReset s).lastStatus = 0x00 := rfl

@[simp] theorem hardReset_csr : (hardReset s).csr = Csr.reset := rfl

@[simp] theorem hardReset_oq : (hardReset s).oq = [] := rfl

@[simp] theorem hardReset_port : (hardReset s).port = s.port := rfl

@[simp] theorem hardReset_portEnd : (hardReset s).portEnd = s.portEnd := rfl

/-- The end of a command that emitted `recs` first, as one update. -/
@[simp] theorem finish_emitAll : finish op st (emitAll recs s) = s.ended op recs st := rfl

/-- The end of a command that emitted nothing else. -/
theorem finish_eq_ended : finish op st s = s.ended op [] st := by
  simp [finish, emitAll, State.ended]

@[simp] theorem unlessFatal_running (body : State → State) (h : s.fatal = false) :
    unlessFatal op body s = body s := by simp [unlessFatal, h]

@[simp] theorem unlessFatal_faulted (body : State → State) (h : s.fatal = true) :
    unlessFatal op body s = s.ended op [] .eFaulted := by
  simp [unlessFatal, h, finish_eq_ended]

end Sys2Proof.Machine
end

