-- ==== Sys2Proof/Tests/Slice0.lean ====
section
/-! SUPPORT. Tests. The expected results come from spec/95_test_vectors.md (named at each test), the
command words from spec/30_encoding.md R83 to R95, written out by hand. The witnesses at the end meet
the hypotheses of each obligation, clause by clause. -/

namespace Sys2Proof.Tests

set_option Elab.async false

open Sys2Proof Sys2Proof.Machine

/-- The records a command appends to an empty OQ, and the state it leaves. -/
def records (i : Instr) (s : State) : List Record :=
  match exec i { s with oq := [] } with
  | .next t => t.oq
  | .fault _ => []
  | .refused _ => []

/-- The state a command leaves. -/
def after (i : Instr) (s : State) : State :=
  match exec i s with
  | .next t => t
  | .fault _ => s
  | .refused _ => s

/-- After GF.INIT. -/
def ready : State := { State.reset with gf := gfBuilt gfDefaultField }

/-- While `fatal = 1`. -/
def faulted : State := { ready with fatal := true }

/-- A packet of the notation of 95_test_vectors.md: a sequence number and one byte of payload. -/
def packet (seq : Seq) : Packet :=
  { v := 2, p := false, x := false, cc := 0, m := false, pt := 96, seq := seq, ts := 0, ssrc := 0
    payload := [0xA0] }

/-- A buffer at `expected` = 101 with one packet waiting (95, T2). -/
def waiting : State :=
  { State.reset with
    rob := { Rob.reset with
      started := true, expected := 101, highest := 102, received := 2, lost := 1, timer := true
      buf := [(102, { pkt := packet 102, arrival := 0 })] } }

/-- One group with k = 2, n = 4 that holds block 0 (95, G4). -/
def oneGroup : Group := { gid := 7, k := 2, n := 4, blocks := [(0, [0x01, 0x02])], maxlen := 2 }

def grouped : State := { ready with grp := { Grp.reset with groups := [oneGroup] } }

/-- A second group; after a CSR.WR that lowers GRP_MAX_GROUPS to 1 the two are above the bound. -/
def twoGroups : State :=
  { grouped with
    grp := { Grp.reset with groups := [oneGroup, { oneGroup with gid := 8 }] }
    csr := { Csr.reset with grpMaxGroups := 1 } }

/-! ## WellFormed: each check refuses an ill-formed term -/

theorem countFits_too_long {α : Type} {l : List α} (h : l.length = 65536) : countFits l = false := by
  simp [countFits, h]

theorem test_wf_too_many_blocks :
    (Instr.eceEncode 2 4 0 (List.replicate 65536 0) []).wellFormed 65535 = false := by
  rw [Instr.wellFormed, countFits_too_long List.length_replicate]; rfl

theorem test_wf_too_many_rows :
    (Instr.eceEncode 2 4 0 [] (List.replicate 65536 [])).wellFormed 65535 = false := by
  rw [Instr.wellFormed, rowsFit, countFits_too_long List.length_replicate]; rfl

theorem test_wf_row_not_blen :
    (Instr.eceEncode 2 4 2 [2] [[0x01, 0x02], [0x03]]).wellFormed 65535 = false := by decide

theorem test_wf_blen_above_maxLen :
    (Instr.eceEncode 2 4 3 [2] [[0x01, 0x02, 0x03]]).wellFormed 2 = false := by decide

theorem test_wf_too_many_indices :
    (Instr.eceBuilddec 2 4 (List.replicate 65536 0)).wellFormed 65535 = false := by
  rw [Instr.wellFormed, countFits_too_long List.length_replicate]

theorem test_wf_decode_counts_differ :
    (Instr.eceDecode 2 4 1 [2, 3] [[0x05]]).wellFormed 65535 = false := by decide

theorem test_wf_datagram_above_maxLen :
    (Instr.rtpParse (List.replicate 13 0)).wellFormed 12 = false := by decide

theorem test_wf_accept_payload_above_maxLen :
    (Instr.robAccept (packet 1) 0).wellFormed 0 = false := by decide

theorem test_wf_add_payload_above_maxLen :
    (Instr.grpAdd 1 0 2 3 [0xAA, 0xBB]).wellFormed 1 = false := by decide

theorem test_wf_dep_payload_above_maxLen :
    (Instr.depPacket 1 5 false [0x41, 0xEE]).wellFormed 1 = false := by decide

theorem test_wf_accepts :
    (Instr.eceDecode 2 4 2 [2, 3] [[0x05, 0x0E], [0x09, 0x1A]]).wellFormed 65535 = true := by decide

/-! ## Decode: one word of every constructor, from the encodings of R83 to R95 -/

theorem test_decode_gfInit : frame 65535 [0x01, 0, 0, 0] false = .command .gfInit [] := by
  decide +kernel

/-- 95, P1 line 2. -/
theorem test_decode_eceNewmatrix :
    frame 65535 [0x02, 0x00, 0x04, 0x04] false = .command (.eceNewmatrix 2 4) [] := by decide +kernel

/-- 95, P1 line 3. -/
theorem test_decode_eceEncode :
    frame 65535 [0x03, 0x00, 0x04, 0x04, 0x00, 0x02, 0x00, 0x02, 0x00, 0x02, 0x00, 0x00, 0x00, 0x02,
      0x00, 0x03, 0x01, 0x02, 0x03, 0x04] false
      = .command (.eceEncode 2 4 2 [2, 3] [[0x01, 0x02], [0x03, 0x04]]) [] := by decide +kernel

/-- 95, P1 line 4. -/
theorem test_decode_eceBuilddec :
    frame 65535 [0x04, 0x00, 0x04, 0x04, 0x00, 0x02, 0x00, 0x00, 0x00, 0x02, 0x00, 0x03] false
      = .command (.eceBuilddec 2 4 [2, 3]) [] := by decide +kernel

/-- 95, P1 line 5. -/
theorem test_decode_eceDecode :
    frame 65535 [0x05, 0x00, 0x04, 0x04, 0x00, 0x02, 0x00, 0x02, 0x00, 0x02, 0x00, 0x03, 0x05, 0x0E,
      0x09, 0x1A] false
      = .command (.eceDecode 2 4 2 [2, 3] [[0x05, 0x0E], [0x09, 0x1A]]) [] := by decide +kernel

/-- 95, P5 line 4. -/
theorem test_decode_rtpParse :
    frame 65535 [0x10, 0x00, 0x00, 0x04, 0x80, 0x60, 0x00, 0x08] false
      = .command (.rtpParse [0x80, 0x60, 0x00, 0x08]) [] := by decide +kernel

/-- 95, P2 line 4. -/
theorem test_decode_robAccept :
    frame 65535 [0x20, 0xE0, 0xFF, 0xFF, 0x00, 0x00, 0x0B, 0xB8, 0x11, 0x22, 0x33, 0x44, 0x00, 0x00,
      0x19, 0xFA, 0x80, 0x00, 0x00, 0x01, 0xA1] false
      = .command (.robAccept
          { v := 2, p := false, x := false, cc := 0, m := true, pt := 96, seq := 65535, ts := 3000
            ssrc := 0x11223344, payload := [0xA1] } 6650) [] := by decide +kernel

theorem test_decode_robTimer : frame 65535 [0x21, 0, 0, 0] false = .command .robTimer [] := by
  decide +kernel

theorem test_decode_robRestart : frame 65535 [0x22, 0, 0, 0] false = .command .robRestart [] := by
  decide +kernel

/-- 95, P3 line 4. -/
theorem test_decode_grpAdd :
    frame 65535 [0x30, 0x00, 0x00, 0x02, 0x00, 0x00, 0x00, 0x2A, 0x03, 0x05, 0x00, 0x04, 0x7C, 0x45,
      0xB1, 0xB2] false = .command (.grpAdd 42 2 3 5 [0x7C, 0x45, 0xB1, 0xB2]) [] := by decide +kernel

/-- 95, P3 line 10. -/
theorem test_decode_grpExpire :
    frame 65535 [0x31, 0x00, 0x00, 0x00, 0x00, 0x00, 0x00, 0x2A] false
      = .command (.grpExpire 42) [] := by decide +kernel

/-- 95, P5 line 3. -/
theorem test_decode_depPacket :
    frame 65535 [0x40, 0x80, 0x00, 0x07, 0x00, 0x01, 0x5F, 0x90, 0x00, 0x00, 0x00, 0x03, 0x65, 0x88,
      0x84] false = .command (.depPacket 7 90000 true [0x65, 0x88, 0x84]) [] := by decide +kernel

/-- 95, P1 line 7. -/
theorem test_decode_csrRd :
    frame 65535 [0x70, 0x00, 0x00, 0x10] false = .command (.csrRd 0x10) [] := by decide +kernel

/-- 95, P4 line 9. -/
theorem test_decode_csrWr :
    frame 65535 [0x71, 0x00, 0x00, 0x01, 0x00, 0x00, 0x00, 0x05] false
      = .command (.csrWr 1 5) [] := by decide +kernel

theorem test_decode_sysTeardown : frame 65535 [0x7E, 0, 0, 0] false = .command .sysTeardown [] := by
  decide +kernel

theorem test_decode_sysReset : frame 65535 [0x7F, 0, 0, 0] false = .command .sysReset [] := by
  decide +kernel

/-- 95, 2.8: an unassigned opcode is consumed as four bytes. -/
theorem test_decode_unassigned :
    frame 65535 [0x06, 0, 0, 0, 0x01, 0, 0, 0] true = .reject 0x06 .illegal [0x01, 0, 0, 0] := by
  decide +kernel

/-- 95, 2.8: a reserved bit of format H, the length still taken from `plen`. -/
theorem test_decode_reserved_bit :
    frame 65535 [0x40, 0x01, 0x00, 0x01, 0, 0, 0, 5, 0, 0, 0, 1, 0x41, 0x01, 0, 0, 0] true
      = .reject 0x40 .illegal [0x01, 0, 0, 0] := by decide +kernel

/-- 95, 2.8: one row byte short when the stream ends. -/
theorem test_decode_cut :
    frame 65535 [0x05, 0x00, 0x04, 0x04, 0x00, 0x02, 0x00, 0x02, 0x00, 0x02, 0x00, 0x03, 0x05, 0x0E,
      0x09] true = .reject 0x05 .badLength [] := by decide +kernel

/-- 95, 2.8: a datagram above a MAX_LEN of 12, consumed whole. -/
theorem test_decode_above_maxLen :
    frame 12 ([0x10, 0, 0, 13] ++ List.replicate 13 0 ++ [0x21]) false
      = .reject 0x10 .badLength [0x21] := by decide +kernel

/-- The table's numbering: word 0 is the low 32 bits (opcode_table.json, CSR.WR reg 3 value 2). -/
theorem test_decodeTableWord :
    decodeTableWord 64 0x0000000271000003 = some (.csrWr 3 2) := by decide +kernel

/-- A program placed by `withFetchWord` is what the next step runs. -/
theorem test_withFetchWord :
    (match step (State.reset.withFetchWord 32 0x01000000) with
      | .next t => t.gf.gfReady && t.oq == [.done 0x01 .ok] && t.port == []
      | .fault _ => false
      | .refused _ => false) = true := by decide +kernel

/-! ## One step of each instruction, from spec/95_test_vectors.md -/

/-- 95, 2.1. -/
theorem test_gmul : gmul gfDefaultField 0x53 0xCA = 0x8F ∧ gmul gfDefaultField 0xFF 0xFF = 0xE2 ∧
    gmul gfDefaultField 0x02 0x80 = 0x1D := by decide +kernel

/-- 95, 2.1. -/
theorem test_ginv : ginv gfDefaultField 0x04 = 0x47 ∧ ginv gfDefaultField 0x02 = 0x8E := by
  decide +kernel

/-- 95, 2.1: XPT(0..11). -/
theorem test_xpt : (List.range 12).map gfDefault.xpt =
    [0x00, 0x01, 0x02, 0x04, 0x08, 0x10, 0x20, 0x40, 0x80, 0x1D, 0x3A, 0x74] := by decide +kernel

/-- 95, 2.1: a zero pivot and a singular matrix. -/
theorem test_matInv : matInv gfDefaultField 2 [[0, 1], [1, 0]] = some [[0, 1], [1, 0]] ∧
    matInv gfDefaultField 2 [[1, 1], [1, 1]] = none := by decide +kernel

/-- 95, 2.1. -/
theorem test_gfInit : (after .gfInit State.reset).gf.gfReady = true ∧
    records .gfInit State.reset = [.done 0x01 .ok] := by decide +kernel

/-- 95, 2.2.1 and P1 line 2. -/
theorem test_eceNewmatrix :
    records (.eceNewmatrix 2 4) ready =
      [.matrix 2 4 [[0x03, 0x02], [0x05, 0x04]], .done 0x02 .ok] := by decide +kernel

/-- 95, P4 line 4. -/
theorem test_eceNewmatrix_fatal : (after (.eceNewmatrix 5 4) ready).fatal = true ∧
    records (.eceNewmatrix 5 4) ready = [.done 0x02 .eKn] := by decide +kernel

/-- 95, 2.2.2. -/
theorem test_eceEncode :
    records (.eceEncode 2 4 2 [2, 3] [[0x01, 0x02], [0x03, 0x04]]) ready =
      [.rows 2 2 [2, 3] [[0x05, 0x0E], [0x09, 0x1A]], .done 0x03 .ok] := by decide +kernel

/-- 95, 2.2.2: a block number below k. -/
theorem test_eceEncode_index :
    records (.eceEncode 2 4 1 [1] [[0x01], [0x03]]) ready = [.done 0x03 .eIndex] := by decide +kernel

/-- 95, 2.2.3. -/
theorem test_eceBuilddec : records (.eceBuilddec 2 4 [0, 3]) ready =
    [.decMatrix 2 [[0x01, 0x00], [0x46, 0x47]], .done 0x04 .ok] := by decide +kernel

/-- 95, 2.2.3: a repeated parity index. -/
theorem test_eceBuilddec_singular :
    records (.eceBuilddec 2 4 [2, 2]) ready = [.done 0x04 .eSingular] := by decide +kernel

/-- 95, P1 line 6. -/
theorem test_eceDecode :
    records (.eceDecode 2 4 2 [0, 3] [[0x01, 0x02], [0x09, 0x1A]]) ready =
      [.rows 2 2 [0, 1] [[0x01, 0x02], [0x03, 0x04]], .done 0x05 .ok] := by decide +kernel

/-- 95, 2.2.4: a primary index at the wrong position. -/
theorem test_eceDecode_index :
    records (.eceDecode 2 4 1 [1, 0] [[0x01], [0x03]]) ready = [.done 0x05 .eIndex] := by
  decide +kernel

/-- 42, R183: the last passing row with padding. -/
theorem test_rtpParse :
    records (.rtpParse [0xA0, 0x60, 0x00, 0x02, 0x00, 0x00, 0x00, 0x0B, 0x12, 0x34, 0x56, 0x78, 0x41,
      0x9A, 0x00, 0x02]) State.reset =
      [.parsed { v := 2, p := true, x := false, cc := 0, m := false, pt := 96, seq := 2, ts := 11
                 ssrc := 0x12345678, payloadOff := 12, payloadLen := 2 }, .done 0x10 .ok] := by
  decide +kernel

/-- 42, R183: the extension runs past the end. -/
theorem test_rtpParse_hdrlen :
    records (.rtpParse [0x90, 0x60, 0x12, 0x34, 0x00, 0x01, 0x51, 0x80, 0xDE, 0xAD, 0xBE, 0xEF, 0xBE,
      0xDE, 0x00, 0x02, 0x01, 0x02, 0x03, 0x04, 0x41, 0x9A]) State.reset =
      [.drop .rtp .eRtpHdrlen, .done 0x10 .eRtpHdrlen] := by decide +kernel

/-- 95, T2 line 3: two packets come out. -/
theorem test_robAccept :
    records (.robAccept (packet 101) 0) waiting =
      [.robEmit (packet 101) 0, .robEmit (packet 102) 0, .done 0x20 .ok] ∧
    (after (.robAccept (packet 101) 0) waiting).rob.expected = 103 := by decide +kernel

/-- 95, T4: 11 behind is late. -/
theorem test_robAccept_late :
    records (.robAccept (packet 90) 0) waiting = [.robLate 90 11, .done 0x20 .sLate] := by
  decide +kernel

/-- 95, T3: the skip. -/
theorem test_robTimer :
    records .robTimer waiting = [.robSkip 101 102, .robEmit (packet 102) 0, .done 0x21 .ok] ∧
    (after .robTimer waiting).rob.timer = false := by decide +kernel

/-- 95, T15. -/
theorem test_robTimer_unarmed : records .robTimer State.reset = [.done 0x21 .sNotArmed] := by
  decide +kernel

/-- 95, T12. -/
theorem test_robRestart :
    (after .robRestart waiting).rob = Rob.reset ∧ records .robRestart waiting = [.done 0x22 .ok] := by
  decide +kernel

/-- 95, G4: primary 0 and parity 3. 95, G6: above the bound the eviction loop runs twice. -/
theorem test_grpAdd :
    records (.grpAdd 7 3 2 4 [0x09, 0x1A]) grouped =
      [.groupBlock { gid := 7, index := 0, tag := .recovered, origLen := 2, data := [0x01, 0x02] },
       .groupBlock { gid := 7, index := 1, tag := .recovered, origLen := 2, data := [0x03, 0x04] },
       .groupDone 7 2 4 2 .recovered .countReached .ok, .done 0x30 .ok] ∧
    records (.grpAdd 4 0 2 3 [0xDD]) twoGroups =
      [.groupBlock { gid := 7, index := 0, tag := .notRecovered, origLen := 2, data := [0x01, 0x02] },
       .groupDone 7 2 4 1 .notRecovered .eviction .sInsufficient,
       .groupBlock { gid := 8, index := 0, tag := .notRecovered, origLen := 2, data := [0x01, 0x02] },
       .groupDone 8 2 4 1 .notRecovered .eviction .sInsufficient, .done 0x30 .ok] := by decide +kernel

/-- 95, G8: the first row. -/
theorem test_grpAdd_meta :
    records (.grpAdd 5 0 0 4 [0x00]) State.reset = [.drop .grp .eMeta, .done 0x30 .eMeta] := by
  decide +kernel

/-- 95, G1 and 44, R229: what was received, and the closing record. -/
theorem test_grpExpire :
    records (.grpExpire 7) grouped =
      [.groupBlock { gid := 7, index := 0, tag := .notRecovered, origLen := 2, data := [0x01, 0x02] },
       .groupDone 7 2 4 1 .notRecovered .expiry .sInsufficient, .done 0x31 .ok] := by decide +kernel

/-- 95, G12. -/
theorem test_grpExpire_none : records (.grpExpire 77) grouped = [.done 0x31 .sNotArmed] := by
  decide +kernel

/-- 95, D3 line 1: the two parameter sets. -/
theorem test_depPacket_stap :
    records (.depPacket 1 9000 false [0x78, 0, 2, 0x67, 0x42, 0, 3, 0x68, 0xCE, 0x3C]) State.reset =
      [.nal 9000 [0x67, 0x42], .nal 9000 [0x68, 0xCE, 0x3C], .done 0x40 .ok] := by decide +kernel

/-- 95, D8 line 1 with D11: a fragment that starts and ends the unit, closed by the marker. -/
theorem test_depPacket_fu :
    records (.depPacket 1 7 true [0x7C, 0xC5, 0xAA]) State.reset =
      [.nal 7 [0x65, 0xAA], .accessUnit 7 true false [[0x65, 0xAA]], .done 0x40 .ok] := by
  decide +kernel

/-- 95, P4 line 7. -/
theorem test_csrRd : records (.csrRd 0x10) faulted = [.csrValue 0x10 3, .done 0x70 .ok] := by
  decide +kernel

/-- 95, 2.7. -/
theorem test_csrRd_none : records (.csrRd 0x08) ready = [.done 0x70 .eCsr] := by decide +kernel

/-- 95, 2.7. -/
theorem test_csrWr : records (.csrWr 0x00 32767) ready = [.done 0x71 .ok] ∧
    (after (.csrWr 0x00 32767) ready).csr.lateThreshold = 32767 := by decide +kernel

/-- 95, 2.7. -/
theorem test_csrWr_illegal : records (.csrWr 0x06 32769) ready = [.done 0x71 .eCsr] ∧
    records (.csrWr 0x10 0) ready = [.done 0x71 .eCsr] := by decide +kernel

/-- 95, 2.7: the counters stay, the buffer does not. -/
theorem test_sysTeardown : (after .sysTeardown waiting).rob.buf = [] ∧
    (after .sysTeardown waiting).rob.received = 2 ∧
    records .sysTeardown waiting = [.done 0x7E .ok] := by decide +kernel

/-- 95, P4 line 11. -/
theorem test_sysReset : after .sysReset faulted = { State.reset with oq := [.done 0x7F .ok] } := by
  decide +kernel

/-! ## Other parameters (R9, R38) -/

/-- Another legal field, x^8+x^4+x^3+x+1 with the generator 0x03, and the points 0, 1, 3, ... -/
def otherField : GfField := { poly := 0x11B, alpha := 0x03 }

def otherParams : Params :=
  { gf :=
      { field := otherField
        xpt := fun i => if i = 0 then 0x00 else gpow otherField otherField.alpha (i - 1) }
    maxLen := 12 }

/-- The product 53 by CA of the field tables of the AES, and R146 by hand: (3+1)/(0+1) and 3/1. -/
theorem test_otherParams_matrix : gmul otherField 0x53 0xCA = 0x01 ∧
    (match execWith otherParams (.eceNewmatrix 2 3)
        { State.reset with gf := gfBuilt otherField } with
      | .next t => t.oq == [.matrix 2 3 [[0x02, 0x03]], .done 0x02 .ok]
      | .fault _ => false
      | .refused _ => false) = true := by decide +kernel

/-- 95, 2.8: a datagram above a MAX_LEN of 12. -/
theorem test_otherParams_maxLen :
    (match stepWith otherParams (State.reset.offer ([0x10, 0, 0, 13] ++ List.replicate 13 0)) with
      | .next t => t.oq == [.done 0x10 .eLength]
      | .fault _ => false
      | .refused _ => false) = true := by decide +kernel

/-- The host of a chain in which no packet carries FEC metadata. -/
def otherPipe : PipeParams :=
  { machine := otherParams, fecDeframe := fun _ => none, blockToPacket := fun _ _ => none }

/-- 95, 2.8 in the chain of R292: 13 bytes stop it with E_LENGTH; 12 bytes reach the parser, which finds
no payload (R170). -/
theorem test_otherParams_pipe :
    (pipeDatagram otherPipe 0 (0x80 :: List.replicate 12 0) State.reset).oq = [.done 0x10 .eLength] ∧
    (pipeDatagram otherPipe 0 (0x80 :: List.replicate 11 0) State.reset).oq =
      [.drop .rtp .eRtpPayload, .done 0x10 .eRtpPayload] := by decide +kernel

/-! ## Witnesses: the hypotheses of each obligation are met, clause by clause -/


/-- A state whose buffer is full to ROB_WINDOW = 1, one entry waiting at `expected` + 1. -/
def fullWindow : State := { waiting with csr := { Csr.reset with robWindow := 1 } }

/-- Room for one group only, and it is taken. -/
def oneGroupOnly : State := { grouped with csr := { Csr.reset with grpMaxGroups := 1 } }

/-- The depacketizer at `last_seq` = 10 with a fragment and an access unit open. -/
def assembling : Dep :=
  { Dep.reset with
    started := true, lastSeq := 10, fuActive := true, fuTs := 7, fuBuf := [0x65, 0x01], auOpen := true
    auTs := 7, auNals := [[0x41]] }

theorem robInv_reset : RobInv Rob.reset := by
  constructor <;> simp [Rob.reset, kvGet]

theorem robInv_waiting : RobInv waiting.rob := by
  constructor <;> simp [waiting, kvGet, packet, Rob.reset]

theorem groupInv_oneGroup : GroupInv oneGroup := by
  constructor <;> simp [oneGroup]

theorem grpInv_grouped : GrpInv grouped.grp := by
  constructor
  · simp [grouped]
  · intro r hr
    rw [List.mem_singleton.1 hr]
    exact groupInv_oneGroup

theorem depInv_assembling : DepInv assembling := by
  constructor <;> decide

theorem csrInv_reset : CsrInv Csr.reset := by
  constructor <;> decide

theorem inv_reset_offered : Inv paramsDefault (State.reset.offer [0x01, 0, 0, 0]) where
  gf := by simp [GfInv, State.offer, State.reset, GfUnit.reset]
  rob := robInv_reset
  grp := by constructor <;> simp [State.offer, State.reset, Grp.reset]
  dep := by constructor <;> decide
  csr := csrInv_reset
  status := ⟨.ok, by simp, rfl⟩

theorem witness_GfInitBuildsTablesOnce :
    faulted.fatal = true ∧ (ready.fatal = false ∧ ready.gf.gfReady = true) ∧
    (State.reset.fatal = false ∧ State.reset.gf.gfReady = false) := by decide

theorem witness_TablesHoldFieldValues :
    FieldLegal gfDefaultField ∧ (254 : Nat) ≤ 254 ∧ (255 : Nat) ≤ 509 ∧ (0xFF : Byte) ≠ 0 ∧
    (expOf (.built gfDefaultField)).getD 3 0 = (expOf (.built gfDefaultField)).getD 3 0 :=
  ⟨gfDefaultField_legal, by decide, by decide, by decide, rfl⟩

theorem witness_ProductFormsAgree : FieldLegal gfDefaultField ∧ (0x8E : Byte) ≠ 0x00 ∧
    (0x01 : Byte) ≠ 0x00 := ⟨gfDefaultField_legal, by decide, by decide⟩

theorem witness_FieldLawsHold : FieldLegal gfDefaultField ∧ (0x53 : Byte) ≠ 0x00 ∧
    gmul gfDefaultField 0x53 0x00 = 0x00 :=
  ⟨gfDefaultField_legal, by decide +kernel, by decide +kernel⟩

theorem witness_MatInvIsTheInverse :
    FieldLegal gfDefaultField ∧
    (square 2 [[0, 1], [1, 0]] = true ∧
      matInv gfDefaultField 2 [[0, 1], [1, 0]] = some [[0, 1], [1, 0]] ∧
      matMul gfDefaultField 2 2 [[0, 1], [1, 0]] [[0, 1], [1, 0]] = identity 2) ∧
    (square 2 [[1, 1], [1, 1]] = true ∧ matInv gfDefaultField 2 [[1, 1], [1, 1]] = none) :=
  ⟨gfDefaultField_legal, by decide +kernel, by decide +kernel⟩

theorem witness_EncodingMatrixIsVandermonde : GfLegal gfDefault ∧
    ((1 : Nat) ≤ 1 ∧ 1 ≤ 1 ∧ 1 ≤ 256) ∧ ((1 : Nat) ≤ 256 ∧ 256 ≤ 256 ∧ 256 ≤ 256) :=
  ⟨gfDefault_legal, by decide, by decide⟩

theorem witness_AnyKRowsAreInvertible : GfLegal gfDefault ∧ (1 : Nat) ≤ 2 ∧ 2 ≤ 4 ∧ 4 ≤ 256 ∧
    [3, 0].length = 2 ∧ [3, 0].Nodup ∧ ∀ r ∈ [3, 0], r < 4 :=
  ⟨gfDefault_legal, by decide⟩

theorem witness_RoundTripLaw : GfLegal gfDefault ∧
    ((1 : Nat) ≤ 2 ∧ 2 ≤ 4 ∧ 4 ≤ 256 ∧ ([[0x01], [0x02]] : List Bytes).length = 2 ∧
      (∀ r ∈ ([[0x01], [0x02]] : List Bytes), r.length = 1) ∧ [0, 3].length = 2 ∧
      ∀ i, i < 2 → [0, 3].getD i 0 < 4 ∧ ([0, 3].getD i 0 < 2 → [0, 3].getD i 0 = i)) ∧
    parityDistinct 2 [0, 3] :=
  ⟨gfDefault_legal, by decide, by unfold parityDistinct; decide⟩

theorem witness_NewMatrixEmitsParityRows :
    faulted.fatal = true ∧ (State.reset.fatal = false ∧ State.reset.gf.gfReady = false) ∧
    (ready.fatal = false ∧ ready.gf.gfReady = true ∧
      ¬(1 ≤ (0 : BitVec 9).toNat ∧ (0 : BitVec 9).toNat ≤ (4 : BitVec 9).toNat ∧
        (4 : BitVec 9).toNat ≤ 256) ∧
      ¬(1 ≤ (1 : BitVec 9).toNat ∧ (1 : BitVec 9).toNat ≤ (257 : BitVec 9).toNat ∧
        (257 : BitVec 9).toNat ≤ 256)) ∧
    (1 ≤ (256 : BitVec 9).toNat ∧ (256 : BitVec 9).toNat ≤ (256 : BitVec 9).toNat ∧
      (256 : BitVec 9).toNat ≤ 256) := by decide

/-- Operands of ECE.ENCODE: the legal case, a wrong row count, block numbers just outside k..n-1. -/
theorem witness_EncodeComputesParityRows :
    (∀ r ∈ ([[0x01], [0x03]] : List Bytes), r.length = (1 : BitVec 16).toNat) ∧
    faulted.fatal = true ∧ (State.reset.fatal = false ∧ State.reset.gf.gfReady = false) ∧
    (ready.fatal = false ∧ ready.gf.gfReady = true ∧
      ¬(1 ≤ (5 : BitVec 9).toNat ∧ (5 : BitVec 9).toNat ≤ (4 : BitVec 9).toNat ∧
        (4 : BitVec 9).toNat ≤ 256)) ∧
    (1 ≤ (2 : BitVec 9).toNat ∧ (2 : BitVec 9).toNat ≤ (4 : BitVec 9).toNat ∧
      (4 : BitVec 9).toNat ≤ 256 ∧
      ([[0x01], [0x03], [0x05]] : List Bytes).length ≠ (2 : BitVec 9).toNat ∧
      ([[0x01], [0x03]] : List Bytes).length = (2 : BitVec 9).toNat ∧
      (∃ b ∈ ([1] : List (BitVec 16)), b.toNat < (2 : BitVec 9).toNat ∨
        (4 : BitVec 9).toNat ≤ b.toNat) ∧
      (∃ b ∈ ([4] : List (BitVec 16)), b.toNat < (2 : BitVec 9).toNat ∨
        (4 : BitVec 9).toNat ≤ b.toNat) ∧
      (∀ b ∈ ([2, 3] : List (BitVec 16)), (2 : BitVec 9).toNat ≤ b.toNat ∧
        b.toNat < (4 : BitVec 9).toNat)) := by
  refine ⟨by simp, by decide, by decide, by decide, by decide, by decide, by decide, by decide,
    by decide, ⟨1, by simp, by decide⟩, ⟨4, by simp, by decide⟩, by simp⟩

/-- Index lists of ECE.BUILDDEC and ECE.DECODE at k = 2, n = 4: legal, too short, an index of n, a
primary index out of place, a repeated parity index. -/
theorem witness_indexLists :
    (([0, 3] : List (BitVec 16)).length = 2 ∧
      (∀ i, i < 2 → (([0, 3] : List (BitVec 16)).getD i 0).toNat < 4 ∧
        ((([0, 3] : List (BitVec 16)).getD i 0).toNat < 2 →
          (([0, 3] : List (BitVec 16)).getD i 0).toNat = i))) ∧
    ([0] : List (BitVec 16)).length ≠ 2 ∧
    (∃ i, i < 2 ∧ (4 ≤ (([0, 4] : List (BitVec 16)).getD i 0).toNat ∨
      ((([0, 4] : List (BitVec 16)).getD i 0).toNat < 2 ∧
        (([0, 4] : List (BitVec 16)).getD i 0).toNat ≠ i))) ∧
    (∃ i, i < 2 ∧ (4 ≤ (([1, 0] : List (BitVec 16)).getD i 0).toNat ∨
      ((([1, 0] : List (BitVec 16)).getD i 0).toNat < 2 ∧
        (([1, 0] : List (BitVec 16)).getD i 0).toNat ≠ i))) ∧
    (∀ i, i < 2 → (([2, 2] : List (BitVec 16)).getD i 0).toNat < 4 ∧
      ((([2, 2] : List (BitVec 16)).getD i 0).toNat < 2 →
        (([2, 2] : List (BitVec 16)).getD i 0).toNat = i)) := by
  refine ⟨by decide, by decide, ⟨1, by decide⟩, ⟨0, by decide⟩, by decide⟩

theorem witness_parityDistinct : parityDistinct 2 (([0, 3] : List (BitVec 16)).map BitVec.toNat) ∧
    ¬parityDistinct 2 (([2, 2] : List (BitVec 16)).map BitVec.toNat) := by
  unfold parityDistinct; decide

theorem witness_BuildDecEmitsInverse :
    GfLegal paramsDefault.gf ∧
    faulted.fatal = true ∧ (State.reset.fatal = false ∧ State.reset.gf.gfReady = false) ∧
    (ready.fatal = false ∧ ready.gf.gfReady = true ∧
      ¬(1 ≤ (0 : BitVec 9).toNat ∧ (0 : BitVec 9).toNat ≤ (4 : BitVec 9).toNat ∧
        (4 : BitVec 9).toNat ≤ 256)) ∧
    (1 ≤ (2 : BitVec 9).toNat ∧ (2 : BitVec 9).toNat ≤ (4 : BitVec 9).toNat ∧
      (4 : BitVec 9).toNat ≤ 256) := ⟨gfDefault_legal, by decide⟩

theorem witness_DecodeRecomputesMissingRows :
    GfLegal paramsDefault.gf ∧
    (∀ r ∈ ([[0x01, 0x02], [0x09, 0x1A]] : List Bytes), r.length = (2 : BitVec 16).toNat) ∧
    faulted.fatal = true ∧ (State.reset.fatal = false ∧ State.reset.gf.gfReady = false) ∧
    (ready.fatal = false ∧ ready.gf.gfReady = true ∧
      ¬(1 ≤ (2 : BitVec 9).toNat ∧ (2 : BitVec 9).toNat ≤ (300 : BitVec 9).toNat ∧
        (300 : BitVec 9).toNat ≤ 256)) ∧
    (([0, 3] : List (BitVec 16)).length = (2 : BitVec 9).toNat ∧
      ([[0x01, 0x02]] : List Bytes).length ≠ (2 : BitVec 9).toNat ∧
      ([[0x01, 0x02], [0x09, 0x1A]] : List Bytes).length = (2 : BitVec 9).toNat) :=
  ⟨gfDefault_legal, by decide⟩

/-- A datagram of R183 for each clause of R170: 11 bytes, version 1, a header past the end, a header
only, and one byte of payload. -/
theorem witness_ParserTestsAndFields :
    faulted.fatal = true ∧ State.reset.fatal = false ∧
    ([0x80, 0x60, 0, 1, 0, 0, 0, 0x0A, 0x12, 0x34, 0x56] : Bytes).length < 12 ∧
    (12 ≤ ([0x40, 0x60, 0, 1, 0, 0, 0, 0x0A, 0x12, 0x34, 0x56, 0x78, 0xAA] : Bytes).length ∧
      (byteAt [0x40, 0x60, 0, 1, 0, 0, 0, 0x0A, 0x12, 0x34, 0x56, 0x78, 0xAA] 0).extractLsb' 6 2
        ≠ 2#2) ∧
    ((byteAt [0x8F, 0x60, 0, 1, 0, 0, 0, 0x0A, 0x12, 0x34, 0x56, 0x78, 0xAA] 0).extractLsb' 6 2
        = 2#2 ∧
      ([0x8F, 0x60, 0, 1, 0, 0, 0, 0x0A, 0x12, 0x34, 0x56, 0x78, 0xAA] : Bytes).length <
        rtpHeaderBytes [0x8F, 0x60, 0, 1, 0, 0, 0, 0x0A, 0x12, 0x34, 0x56, 0x78, 0xAA]) ∧
    (rtpHeaderBytes [0x80, 0x60, 0, 1, 0, 0, 0, 0x0A, 0x12, 0x34, 0x56, 0x78] ≤ 12 ∧
      12 ≤ rtpHeaderBytes [0x80, 0x60, 0, 1, 0, 0, 0, 0x0A, 0x12, 0x34, 0x56, 0x78] +
        rtpPadding [0x80, 0x60, 0, 1, 0, 0, 0, 0x0A, 0x12, 0x34, 0x56, 0x78]) ∧
    (rtpHeaderBytes [0x80, 0x60, 0, 1, 0, 0, 0, 0x0A, 0x12, 0x34, 0x56, 0x78, 0xAA] +
      rtpPadding [0x80, 0x60, 0, 1, 0, 0, 0, 0x0A, 0x12, 0x34, 0x56, 0x78, 0xAA] < 13) := by
  decide

theorem witness_PayloadRangeInsideDatagram :
    ∃ (t : State) (h : ParsedRtp),
      ([0x80, 0x60, 0, 1, 0, 0, 0, 0x0A, 0x12, 0x34, 0x56, 0x78, 0xAA] : Bytes).length
        ≤ Config.maxLen ∧
      exec (.rtpParse [0x80, 0x60, 0, 1, 0, 0, 0, 0x0A, 0x12, 0x34, 0x56, 0x78, 0xAA]) State.reset
        = .next t ∧
      t.oq = State.reset.oq ++ [.parsed h, .done 0x10 .ok] :=
  ⟨_, rtpFields [0x80, 0x60, 0, 1, 0, 0, 0, 0x0A, 0x12, 0x34, 0x56, 0x78, 0xAA], by decide, rfl,
    by decide⟩

/-- 11 behind is late at the reset LATE_THRESHOLD of 10, 10 behind and 32768 behind are not. -/
theorem witness_AcceptRunsItsProcedure :
    faulted.fatal = true ∧ ({ packet 1 with payload := [] }).payload = [] ∧
    (waiting.fatal = false ∧ (packet 90).payload ≠ [] ∧
      waiting.csr.lateThreshold.toNat < sdist waiting.rob.expected (packet 90).seq ∧
      sdist waiting.rob.expected (packet 90).seq < 32768) ∧
    ¬(waiting.csr.lateThreshold.toNat < sdist waiting.rob.expected (packet 91).seq ∧
      sdist waiting.rob.expected (packet 91).seq < 32768) ∧
    ¬(waiting.csr.lateThreshold.toNat < sdist waiting.rob.expected (packet 32869).seq ∧
      sdist waiting.rob.expected (packet 32869).seq < 32768) := by decide

theorem witness_FirstPacketEmittedAtOnce : State.reset.fatal = false ∧ (packet 100).payload ≠ [] ∧
    RobInv State.reset.rob ∧ State.reset.rob.started = false :=
  ⟨rfl, by decide, robInv_reset, rfl⟩

/-- At a distance of 1 is `expected` + 1, and at one of 32768. -/
theorem witness_PacketAheadWaits : RobInv waiting.rob ∧
    (waiting.fatal = false ∧ (packet 102).payload ≠ [] ∧ waiting.rob.started = true ∧
      1 ≤ sdist (packet 102).seq waiting.rob.expected ∧
      sdist (packet 32869).seq waiting.rob.expected = 32768 ∧
      waiting.rob.buf.length < waiting.csr.robWindow.toNat) :=
  ⟨robInv_waiting, by decide⟩

theorem witness_FlushEmitsTheRun : KvSorted waiting.rob.buf := by
  simp [waiting]

theorem witness_ForceAdvanceSkipsToNearest :
    KvSorted waiting.rob.buf ∧
    (∀ e ∈ ({ waiting.rob with expected := 103 } : Rob).buf,
      ¬(1 ≤ sdist e.1 103 ∧ sdist e.1 103 ≤ 32768)) ∧
    (∃ e ∈ waiting.rob.buf, 1 ≤ sdist e.1 waiting.rob.expected ∧
      sdist e.1 waiting.rob.expected ≤ 32768 ∧
      ∀ q ∈ waiting.rob.buf, 1 ≤ sdist q.1 waiting.rob.expected →
        sdist q.1 waiting.rob.expected ≤ 32768 →
        sdist e.1 waiting.rob.expected ≤ sdist q.1 waiting.rob.expected) := by
  refine ⟨by simp [waiting], by decide, ⟨_, List.mem_singleton.2 rfl, by decide, by decide, ?_⟩⟩
  intro q hq h1 h2
  rw [List.mem_singleton.1 hq]

/-- A gap of 1, of 32767, of 32768 and of 0 from `highest` = 102, and both values of `jit_valid`. -/
theorem witness_StatisticsFollowRules :
    (0 < sdist 103 waiting.rob.highest ∧ sdist 32869 waiting.rob.highest = 32767) ∧
    ¬(0 < sdist 32870 waiting.rob.highest ∧ sdist 32870 waiting.rob.highest < 32768) ∧
    ¬(0 < sdist 102 waiting.rob.highest ∧ sdist 102 waiting.rob.highest < 32768) ∧
    waiting.rob.jitValid = false ∧ ({ waiting.rob with jitValid := true } : Rob).jitValid = true ∧
    waiting.rob.jitterQ4.toNat + 8 < 2 ^ 32 := by decide

theorem witness_TimerForcesAdvance : faulted.fatal = true ∧
    (State.reset.fatal = false ∧ State.reset.rob.timer = false) ∧
    (waiting.fatal = false ∧ waiting.rob.timer = true) := by decide

theorem witness_RestartClearsReorderBuffer : faulted.fatal = true ∧ waiting.fatal = false := by decide

theorem witness_EmissionFollowsExpected : RobInv waiting.rob ∧
    (∀ i ∈ [Instr.robAccept (packet 101) 0, .robTimer],
      i ≠ .sysReset ∧ i ≠ .robRestart ∧ i ≠ .sysTeardown) ∧
    (∃ t, runAll [.robAccept (packet 101) 0, .robTimer] waiting = .next t) ∧
    waiting.rob.started = true :=
  ⟨robInv_waiting, by decide, ⟨_, rfl⟩, rfl⟩

theorem witness_WindowBoundsTheBuffer :
    (∀ v : W32, Instr.robAccept (packet 104) 0 ≠ .csrWr 0x01 v) ∧ RobInv fullWindow.rob ∧
    fullWindow.rob.buf.length ≤ fullWindow.csr.robWindow.toNat ∧
    ∃ t, exec (.robAccept (packet 104) 0) fullWindow = .next t :=
  ⟨by simp, robInv_waiting, by decide, ⟨_, rfl⟩⟩

theorem witness_NewGroupOpensRecord : ready.fatal = false ∧ ([0xAA] : Bytes) ≠ [] ∧
    ([0xAA] : Bytes).length ≤ Config.maxLen ∧ (∀ r ∈ ready.grp.groups, r.gid ≠ 5) ∧
    ready.grp.groups.length < ready.csr.grpMaxGroups.toNat ∧ 2 ≤ (2 : BitVec 8).toNat ∧
    (2 : BitVec 8).toNat ≤ (2 : BitVec 8).toNat ∧ (1 : BitVec 16).toNat < (2 : BitVec 8).toNat := by
  decide

/-- Block 0 again: a repeated index, which does not count. -/
theorem witness_BlockIsRecorded : GrpInv grouped.grp ∧
    (grouped.fatal = false ∧ ([0xAA] : Bytes) ≠ [] ∧ ([0xAA] : Bytes).length ≤ Config.maxLen ∧
      grouped.grp.groups = [] ++ oneGroup :: [] ∧ oneGroup.gid = 7 ∧
      (0 : BitVec 16).toNat < oneGroup.n.toNat ∧
      (kvGet 0 oneGroup.blocks = none → oneGroup.blocks.length + 1 < oneGroup.k.toNat)) :=
  ⟨grpInv_grouped, by decide⟩

theorem witness_MetadataIsTested :
    (ready.fatal = false ∧ ([] : Bytes) = [] ∧ ([0xAA] : Bytes) ≠ [] ∧ (∀ r ∈ ready.grp.groups, r.gid ≠ 5) ∧
      ¬(1 ≤ (2 : BitVec 8).toNat ∧ (2 : BitVec 8).toNat ≤ (4 : BitVec 8).toNat ∧
        (4 : BitVec 16).toNat < (4 : BitVec 8).toNat)) ∧
    GrpInv grouped.grp ∧ oneGroup ∈ grouped.grp.groups ∧ oneGroup.gid = 7 ∧
    oneGroup.n.toNat ≤ (4 : BitVec 16).toNat :=
  ⟨by decide, grpInv_grouped, by decide, rfl, by decide⟩

theorem witness_ReachingKFlushes : GrpInv grouped.grp ∧
    (grouped.fatal = false ∧ ([0x09, 0x1A] : Bytes) ≠ [] ∧ oneGroup ∈ grouped.grp.groups ∧
      oneGroup.gid = 7 ∧ (3 : BitVec 16).toNat < oneGroup.n.toNat ∧
      kvGet 3 oneGroup.blocks = none ∧ oneGroup.blocks.length + 1 = oneGroup.k.toNat) :=
  ⟨grpInv_grouped, by decide⟩

theorem witness_GroupOfOneFlushesAtOnce : grouped.fatal = false ∧ ([0xAB, 0xCD] : Bytes) ≠ [] ∧
    ([0xAB, 0xCD] : Bytes).length ≤ Config.maxLen ∧ (∀ r ∈ grouped.grp.groups, r.gid ≠ 9) ∧
    grouped.grp.groups.length < grouped.csr.grpMaxGroups.toNat ∧
    (2 : BitVec 16).toNat < (3 : BitVec 8).toNat ∧ grouped.gf.gfReady = true ∧
    State.reset.gf.gfReady = false := by decide

theorem grpInv_twoGroups : GrpInv twoGroups.grp := by
  constructor
  · simp [twoGroups, oneGroup]
  · intro r hr
    simp only [twoGroups, List.mem_cons, List.not_mem_nil, or_false] at hr
    rcases hr with rfl | rfl
    · exact groupInv_oneGroup
    · constructor <;> simp [oneGroup]

/-- At the bound one record leaves; above it, two; with k = 2 and with k = 1. -/
theorem witness_EvictionFlushesOldest :
    (GrpInv oneGroupOnly.grp ∧ GrpInv twoGroups.grp) ∧
    (oneGroupOnly.fatal = false ∧ ([0xAA] : Bytes) ≠ [] ∧ ([0xAA] : Bytes).length ≤ Config.maxLen ∧
      oneGroupOnly.grp.groups = [oneGroup] ++ [] ∧ [oneGroup] ≠ [] ∧
      ([] : List Group).length + 1 = oneGroupOnly.csr.grpMaxGroups.toNat ∧
      (∀ r ∈ oneGroupOnly.grp.groups, r.gid ≠ 5)) ∧
    (twoGroups.fatal = false ∧
      twoGroups.grp.groups = [oneGroup, { oneGroup with gid := 8 }] ++ [] ∧
      ([] : List Group).length + 1 = twoGroups.csr.grpMaxGroups.toNat ∧
      (∀ r ∈ twoGroups.grp.groups, r.gid ≠ 5)) ∧
    (1 ≤ (2 : BitVec 8).toNat ∧ (2 : BitVec 8).toNat ≤ (3 : BitVec 8).toNat ∧
      (2 : BitVec 16).toNat < (3 : BitVec 8).toNat ∧ 2 ≤ (2 : BitVec 8).toNat) ∧
    (1 ≤ (1 : BitVec 8).toNat ∧ (1 : BitVec 8).toNat ≤ (3 : BitVec 8).toNat ∧
      (1 : BitVec 8).toNat = 1) :=
  ⟨⟨grpInv_grouped, grpInv_twoGroups⟩, by decide⟩

theorem witness_OpenGroupsAreBounded :
    (∀ v : W32, Instr.grpAdd 5 0 2 3 [0xAA] ≠ .csrWr 0x03 v) ∧ CsrInv grouped.csr ∧
    GrpInv grouped.grp ∧ grouped.grp.groups.length ≤ grouped.csr.grpMaxGroups.toNat ∧
    ∃ t, exec (.grpAdd 5 0 2 3 [0xAA]) grouped = .next t :=
  ⟨by simp, csrInv_reset, grpInv_grouped, by decide, ⟨_, rfl⟩⟩

theorem witness_ExpiryEmitsReceivedPrimaries : GrpInv grouped.grp ∧
    (faulted.fatal = true ∧ grouped.fatal = false ∧ (∀ r ∈ grouped.grp.groups, r.gid ≠ 77) ∧
      oneGroup ∈ grouped.grp.groups ∧ oneGroup.gid = 7) :=
  ⟨grpInv_grouped, by decide⟩

/-- Block 0 and parity block 3 of G4, complete. -/
def fullGroup : Group :=
  { oneGroup with blocks := [(0, [0x01, 0x02]), (3, [0x09, 0x1A])] }

theorem witness_CompleteGroupIsRecovered : GfLegal gfDefault ∧ KvSorted fullGroup.blocks ∧
    (1 ≤ fullGroup.k.toNat ∧ fullGroup.k.toNat ≤ fullGroup.n.toNat ∧
      (∀ e ∈ fullGroup.blocks, e.1.toNat < fullGroup.n.toNat) ∧
      (∀ e ∈ fullGroup.blocks, e.2.length ≤ fullGroup.maxlen.toNat) ∧
      fullGroup.k.toNat ≤ fullGroup.blocks.length ∧
      kvGet (BitVec.ofNat 16 0) fullGroup.blocks = some [0x01, 0x02]) := by
  refine ⟨gfDefault_legal, ?_, ?_⟩
  · simp [fullGroup]
  · decide

theorem witness_GroupRecoversOriginalData :
    ([[0x01, 0x02], [0x03, 0x04]] : List Bytes).length = fullGroup.k.toNat ∧
    (∀ r ∈ ([[0x01, 0x02], [0x03, 0x04]] : List Bytes), r.length = fullGroup.maxlen.toNat) ∧
    (∀ e ∈ fullGroup.blocks, e.2 ++ zeros (fullGroup.maxlen.toNat - e.2.length) =
      codeBlock gfDefault fullGroup.k.toNat fullGroup.maxlen.toNat
        [[0x01, 0x02], [0x03, 0x04]] e.1.toNat) := by decide +kernel

theorem witness_NoTablesFallsBack : KvSorted fullGroup.blocks ∧ 1 ≤ fullGroup.k.toNat ∧
    fullGroup.k.toNat ≤ fullGroup.n.toNat ∧
    (∀ e ∈ fullGroup.blocks, e.1.toNat < fullGroup.n.toNat) ∧
    fullGroup.k.toNat ≤ fullGroup.blocks.length := by
  constructor
  · simp [fullGroup]
  · decide

theorem witness_PacketRunsDispatch : faulted.fatal = true ∧ ready.fatal = false ∧
    ([0x7C, 0x85, 0x01] : Bytes) ≠ [] := by decide

/-- The next packet, a gap of 5 (not above the threshold of 5), a gap of 6. -/
theorem witness_SequenceGapsAreReported :
    assembling.started = true ∧ (11 : Seq) = assembling.lastSeq + 1 ∧
    ((15 : Seq) ≠ assembling.lastSeq + 1 ∧
      min (sdist 15 assembling.lastSeq) (sdist assembling.lastSeq 15) ≤ (5 : BitVec 16).toNat) ∧
    ((16 : Seq) ≠ assembling.lastSeq + 1 ∧
      (5 : BitVec 16).toNat < min (sdist 16 assembling.lastSeq) (sdist assembling.lastSeq 16)) := by
  decide

theorem witness_NalJoinsItsUnit :
    (assembling.auOpen = true ∧ assembling.auTs = 7) ∧ Dep.reset.auOpen = false ∧
    (assembling.auOpen = true ∧ assembling.auTs ≠ 8) := by decide

theorem witness_AggregateUnpacksInOrder :
    (∀ b ∈ ([[0x67, 0x42], []] : List Bytes), b.length < 65536) ∧
    (([] : Bytes) = [] ∧ ([0x00] : Bytes).length = 1 ∧
      (2 ≤ ([0x00, 0x01] : Bytes).length ∧
        ([0x00, 0x01] : Bytes).length - 2 < (be16 [0x00, 0x01] 0).toNat)) := by decide

/-- A start, an orphan, another timestamp, a continuation and an end (45, R263 to R266). -/
theorem witness_FragmentKinds :
    ((0x45 : Byte).getLsbD 7 = false ∧ Dep.reset.fuActive = false) ∧
    ((0x05 : Byte).getLsbD 7 = false ∧ assembling.fuActive = true ∧ (8 : W32) ≠ assembling.fuTs) ∧
    ((0x85 : Byte).getLsbD 7 = true ∧ (0x85 : Byte).getLsbD 6 = false) ∧
    ((0x45 : Byte).getLsbD 7 = false ∧ (7 : W32) = assembling.fuTs ∧
      (0x45 : Byte).getLsbD 6 = true) := by decide

theorem witness_FragmentsReassemble : State.reset.fatal = false ∧
    ((0x7C : Byte).extractLsb' 0 5).toNat = 28 ∧ (0x05 : Byte).toNat < 32 ∧
    (State.reset.dep.started = true → (10 : Seq) = State.reset.dep.lastSeq + 1) ∧
    (State.reset.dep.auOpen = true → State.reset.dep.auTs = 3000) := by decide

/-- The marker of a second packet closes the unit, which is emitted. -/
theorem witness_EmittedUnitsAreGood : DepInv assembling ∧
    ∃ t recs, exec (.depPacket 11 7 true [0x41]) { State.reset with dep := assembling } = .next t ∧
      t.oq = [] ++ recs ∧ Record.accessUnit 7 false false [[0x41], [0x41]] ∈ recs :=
  ⟨depInv_assembling, _, _, rfl, rfl, by decide⟩

theorem witness_RegisterReadIsPure :
    ((0x20, 0) : BitVec 8 × W32) ∈ csrTable State.reset ∧
    (∀ e ∈ csrTable State.reset, e.1 ≠ 0x08) ∧ (∀ e ∈ csrTable State.reset, e.1 ≠ 0x21) :=
  ⟨by simp [csrTable, State.reset, Dep.reset], by simp [csrTable], by simp [csrTable]⟩

/-- LATE_THRESHOLD at 32767 and at 32768, FU_GAP_THRESHOLD at 32768, RESTART_GAP at 1, a status
register. -/
theorem witness_RegisterWriteIsSeenByReads : faulted.fatal = true ∧ ready.fatal = false ∧
    ((0x00, 0, 32767) ∈ csrRange ∧ (0 : Nat) ≤ (32767 : W32).toNat ∧
      (32767 : W32).toNat ≤ 32767) ∧
    (∀ e ∈ csrRange, e.1 = 0x00 → ¬(e.2.1 ≤ (32768 : W32).toNat ∧ (32768 : W32).toNat ≤ e.2.2)) ∧
    ((0x06, 0, 32768) ∈ csrRange ∧ (32768 : W32).toNat ≤ 32768) ∧
    (∀ e ∈ csrRange, e.1 = 0x05 → ¬(e.2.1 ≤ (1 : W32).toNat ∧ (1 : W32).toNat ≤ e.2.2)) ∧
    (∀ e ∈ csrRange, e.1 = 0x10 → ¬(e.2.1 ≤ (0 : W32).toNat ∧ (0 : W32).toNat ≤ e.2.2)) := by decide

theorem witness_TeardownEmptiesBuffers : faulted.fatal = true ∧ waiting.fatal = false := by decide

theorem witness_FaultedBlockRejects : faulted.fatal = true ∧
    (∀ reg, Instr.csrWr 1 5 ≠ .csrRd reg) ∧ Instr.csrWr 1 5 ≠ .sysReset :=
  ⟨rfl, by simp, by simp⟩

theorem witness_OnlyBadMatrixIsFatal :
    (∃ t, exec (.eceNewmatrix 5 4) ready = .next t ∧ ready.fatal = false ∧ t.fatal = true) ∧
    (∃ t, exec .sysReset faulted = .next t ∧ faulted.fatal = true ∧ t.fatal = false) :=
  ⟨⟨_, rfl, rfl, rfl⟩, ⟨_, rfl, rfl, rfl⟩⟩

theorem witness_DoneClosesEveryCommand :
    (∃ t, exec .robTimer waiting = .next t) ∧ (∀ reg, Instr.robTimer ≠ .csrRd reg) ∧
    (∃ t, exec (.csrRd 0x10) waiting = .next t) ∧ (∃ reg, Instr.csrRd 0x10 = .csrRd reg) :=
  ⟨⟨_, rfl⟩, by simp, ⟨_, rfl⟩, ⟨_, rfl⟩⟩

/-- For each unit a command that changes it. -/
theorem witness_UnitsDoNotInterfere :
    (∃ t, exec .gfInit State.reset = .next t ∧ t.gf ≠ State.reset.gf) ∧
    (∃ t, exec .robRestart waiting = .next t ∧ t.rob ≠ waiting.rob) ∧
    (∃ t, exec .sysTeardown grouped = .next t ∧ t.grp ≠ grouped.grp) ∧
    (∃ t, exec (.depPacket 1 7 false [0x41]) State.reset = .next t ∧ t.dep ≠ State.reset.dep) ∧
    (∃ t, exec (.rtpParse []) State.reset = .next t ∧
      t.rtpMalformed ≠ State.reset.rtpMalformed) ∧
    (∃ t, exec (.csrWr 1 5) State.reset = .next t ∧ t.csr ≠ State.reset.csr) :=
  ⟨⟨_, rfl, by decide⟩, ⟨_, rfl, by decide⟩, ⟨_, rfl, by decide⟩, ⟨_, rfl, by decide⟩,
    ⟨_, rfl, by decide⟩, ⟨_, rfl, by decide⟩⟩

theorem witness_OutputQueueIsNeverRead : Instr.robTimer ≠ .sysReset ∧
    ∃ t, exec .robTimer waiting = .next t := ⟨by simp, _, rfl⟩

theorem witness_StepRunsTheCommand :
    frame Config.maxLen (State.reset.offer [0x21, 0, 0, 0, 0x7F]).port false =
      .command .robTimer [0x7F] ∧
    frame otherParams.maxLen (State.reset.offer [0x21, 0, 0, 0, 0x7F]).port false =
      .command .robTimer [0x7F] ∧
    Opcode.robTimer ∉ [.gfInit, .eceNewmatrix, .eceEncode, .eceBuilddec, .eceDecode, .grpAdd,
      .grpExpire] := by decide +kernel

/-- Three bytes at the end of the stream, an unassigned opcode, a command cut, a reserved bit, a
datagram above MAX_LEN. -/
theorem witness_FramingErrorsAreRejected :
    ([0x01, 0, 0] : Bytes).length < 4 ∧
    (4 ≤ ([0x06, 0, 0, 0] : Bytes).length ∧ ∀ op ∈ Opcode.all, op.code ≠ 0x06) ∧
    (Opcode.csrWr.code = 0x71 ∧
      ([0x71, 0, 0, 0, 0, 0] : Bytes).length < Opcode.csrWr.commandBytes [0x71, 0, 0, 0, 0, 0]) ∧
    (Opcode.gfInit.commandBytes [0x01, 0, 0, 1] ≤ ([0x01, 0, 0, 1] : Bytes).length ∧
      Opcode.gfInit.format.reservedClear [0x01, 0, 0, 1] = false) ∧
    (Opcode.rtpParse.commandBytes [0x10, 0, 0, 1, 0xAA] ≤ ([0x10, 0, 0, 1, 0xAA] : Bytes).length ∧
      Opcode.rtpParse.format.reservedClear [0x10, 0, 0, 1, 0xAA] = true ∧
      Opcode.rtpParse.format.tooLong 0 [0x10, 0, 0, 1, 0xAA] = true) ∧
    frame paramsDefault.maxLen (State.reset.offer [0x06, 0, 0, 0]).port false =
      .reject 0x06 .illegal [] := by decide +kernel

theorem witness_EncodedCommandDecodes :
    (Instr.eceDecode 2 4 2 [0, 3] [[0x01, 0x02], [0x09, 0x1A]]).wellFormed 65535 = true := by decide

theorem witness_DecodedBytesAreTheEncoding :
    frame 65535 [0x31, 0, 0, 0, 0, 0, 0, 0x2A, 0x01] false = .command (.grpExpire 42) [0x01] := by
  decide +kernel

theorem witness_StepKeepsInvariant : Inv paramsDefault (State.reset.offer [0x01, 0, 0, 0]) ∧
    (∃ t, step (State.reset.offer [0x01, 0, 0, 0]) = .next t ∧ t.gf.gfReady = true) ∧
    ∃ t, stepWith paramsDefault (State.reset.offer [0x01, 0, 0, 0]) = .next t ∧ t.gf.gfReady = true :=
  ⟨inv_reset_offered, ⟨_, rfl, by decide +kernel⟩, ⟨_, rfl, by decide +kernel⟩⟩

/-- The table has an entry for a status, tag and cause of R99 and R300. -/
theorem witness_FixedRecordsBinaryForm : (Status.sLate, 0x10) ∈ statusNumbers ∧
    (Tag.recovered, (1 : Byte)) ∈ [(Tag.notRecovered, (0 : Byte)), (.recovered, 1)] ∧
    (Cause.eviction, (2 : Byte)) ∈ [(Cause.countReached, (0 : Byte)), (.expiry, 1), (.eviction, 2)] := by
  simp

end Sys2Proof.Tests
end

section
/-! PROOFS. The whole state (spec/10_state.md): what each command may change, how it ends, and that it
never reads OQ, said once per command (`Changes`, `Ends`); the invariant of the block follows. -/

namespace Sys2Proof.Machine

/-! ## The end of a command -/

/-- On the state `s`, whatever OQ holds, `f` moves the block to `u`, which `changed` describes, and ends
the command with byte `op` there: the same records and the same status for every content of OQ. -/
def Ends (op : Byte) (f : State → State) (s : State) (changed : State → Prop) : Prop :=
  ∃ (u : State) (recs : List Record) (st : Status), changed u ∧ st ≠ .sInsufficient ∧
    ∀ q : List Record, f { s with oq := q } = State.ended { u with oq := q } op recs st

/-- The E_FAULTED test before a body that ends its command (R308). -/
theorem Ends.unlessFatal {op : Byte} {f : State → State} {s : State} {changed : State → Prop}
    (hs : changed s) (h : Ends op f s changed) :
    Ends op (Machine.unlessFatal op f) s changed := by
  cases hf : s.fatal with
  | true => exact ⟨s, [], .eFaulted, hs, by simp, fun q => unlessFatal_faulted _ _ _ hf⟩
  | false =>
    obtain ⟨u, recs, st, hu, hst, hrun⟩ := h
    exact ⟨u, recs, st, hu, hst, fun q =>
      (unlessFatal_running { s with oq := q } op f hf).trans (hrun q)⟩

/-- The E_OPERAND test for an empty payload before a body that ends its command (R187, R250). -/
theorem Ends.unlessEmpty {op : Byte} {f : State → State} {s : State} {changed : State → Prop}
    {payload : Bytes} (hs : changed s) (h : payload ≠ [] → Ends op f s changed) :
    Ends op (fun s => if payload = [] then reject op .eOperand s else f s) s changed := by
  by_cases hp : payload = []
  · exact ⟨s, [], .eOperand, hs, by simp, fun q => by simp [hp, finish_eq_ended]⟩
  · simpa only [if_neg hp] using h hp

/-- What the command `i` may change from `s` to `u` besides `last_status` and OQ: the state of its own
unit, which keeps the unit's invariant. (A payload of GRP.ADD must fit `maxlen`'s 16 bits, as the one
of every decoded command does.) -/
def Changes (P : Params) (s u : State) : Instr → Prop
  | .gfInit => ∃ g, u = { s with gf := g } ∧ (GfInv P s.gf → GfInv P g)
  | .eceNewmatrix .. => ∃ b, u = { s with fatal := b }
  | .eceEncode .. | .eceBuilddec .. | .eceDecode .. | .csrRd _ => u = s
  | .rtpParse _ => ∃ c, u = { s with rtpMalformed := c }
  | .robAccept .. | .robTimer | .robRestart => ∃ r, u = { s with rob := r } ∧ (RobInv s.rob → RobInv r)
  | .grpAdd _ _ _ _ payload =>
    ∃ g, u = { s with grp := g } ∧ (payload.length < 65536 → GrpInv s.grp → GrpInv g)
  | .grpExpire _ => ∃ g, u = { s with grp := g } ∧ (GrpInv s.grp → GrpInv g)
  | .depPacket .. => ∃ d, u = { s with dep := d } ∧ (DepInv s.dep → DepInv d)
  | .csrWr .. => ∃ c, u = { s with csr := c } ∧ (CsrInv s.csr → CsrInv c)
  | .sysTeardown => u = s ∨ u = teardown s
  | .sysReset => u = hardReset s

/-- The unchanged state is an allowed change of every command that the E_FAULTED test can reject. -/
theorem Changes.refl (P : Params) (s : State) {i : Instr} (h : i ≠ .sysReset) : Changes P s s i := by
  cases i with
  | sysReset => exact absurd rfl h
  | sysTeardown => exact .inl rfl
  | eceEncode | eceBuilddec | eceDecode | csrRd => rfl
  | eceNewmatrix | rtpParse => exact ⟨_, rfl⟩
  | grpAdd => exact ⟨_, rfl, fun _ => id⟩
  | gfInit | robAccept | robTimer | robRestart | grpExpire | depPacket | csrWr => exact ⟨_, rfl, id⟩

/-! ## The bodies of the GF, ECE and RTP commands -/

/-- GF.INIT builds the tables for the machine's field (R128). -/
theorem gfInit_inv {P : Params} {g : GfUnit} (h : GfInv P g) : GfInv P (gfInit P.gf.field g) := by
  unfold gfInit
  split
  · exact h
  · rfl

/-- GF.INIT (R128). -/
theorem gfInit_ends (P : Params) (s : State) :
    Ends 0x01 (fun s => finish 0x01 .ok { s with gf := gfInit P.gf.field s.gf }) s
      (Changes P s · .gfInit) :=
  ⟨{ s with gf := gfInit P.gf.field s.gf }, [], .ok, ⟨_, rfl, gfInit_inv⟩, by simp,
    fun _ => finish_eq_ended _ _ _⟩

/-- ECE.NEWMATRIX: `fatal` alone may change (R145). -/
theorem newMatrix_ends (P : Params) (k n : BitVec 9) (s : State) :
    Ends 0x02 (newMatrix P.gf k n) s (Changes P s · (.eceNewmatrix k n)) := by
  cases hr : s.gf.gfReady with
  | false =>
    exact ⟨s, [], .eNoinit, ⟨_, rfl⟩, by simp, fun q => by simp [newMatrix, hr, finish_eq_ended]⟩
  | true =>
    cases hv : validKN k.toNat n.toNat with
    | false =>
      exact ⟨{ s with fatal := true }, [], .eKn, ⟨_, rfl⟩, by simp,
        fun q => by simp [newMatrix, hr, hv, finish_eq_ended]⟩
    | true =>
      exact ⟨s, [.matrix k n (parityRows P.gf k.toNat n.toNat)], .ok, ⟨_, rfl⟩, by simp,
        fun q => by simp [newMatrix, hr, hv]⟩

/-- The end of an engine command whose result does not depend on OQ (R150, R155, R159). -/
theorem engineDone_ends {α : Type} (op : Byte) (record : α → Record) (result : Bool → Except Status α)
    (s : State) (hst : ∀ st, result s.gf.gfReady = .error st → st ≠ .sInsufficient) :
    Ends op (fun s => engineDone op record (result s.gf.gfReady) s) s (· = s) := by
  cases h : result s.gf.gfReady with
  | error st =>
    exact ⟨s, [], st, rfl, hst st h, fun q => by simp [engineDone, h, finish_eq_ended]⟩
  | ok a => exact ⟨s, [record a], .ok, rfl, by simp, fun q => by simp [engineDone, h]⟩

/-- The statuses of a rejected Encode (R150). -/
theorem engineEncode_error {P : GfParams} {ready : Bool} {k n blen : Nat} {blocks : List Nat}
    {data : List Bytes} {st : Status} (h : engineEncode P ready k n blen blocks data = .error st) :
    st ∈ [.eNoinit, .eKn, .eRows, .eIndex] := by
  unfold engineEncode at h
  split_ifs at h <;> cases h <;> simp

/-- The statuses of a rejected BuildDecodeMatrix (R155). -/
theorem engineBuildDec_error {P : GfParams} {ready : Bool} {k n : Nat} {idx : List Nat}
    {st : Status} (h : engineBuildDec P ready k n idx = .error st) :
    st ∈ [.eNoinit, .eKn, .eRows, .eIndex, .eSingular] := by
  unfold engineBuildDec at h
  cases hm : decMat P k idx <;> rw [hm] at h <;> split_ifs at h <;> cases h <;> simp

/-- The statuses of a rejected Decode (R159). -/
theorem engineDecode_error {P : GfParams} {ready : Bool} {k n blen : Nat} {idx : List Nat}
    {ins : List Bytes} {st : Status} (h : engineDecode P ready k n blen idx ins = .error st) :
    st ∈ [.eNoinit, .eKn, .eRows, .eIndex, .eSingular] := by
  unfold engineDecode at h
  cases hm : decMat P k idx <;> rw [hm] at h <;> split_ifs at h <;> cases h <;> simp

/-- The statuses of a datagram that RTP.PARSE rejects (R179). -/
theorem rtpParse_error {B : Bytes} {st : Status} (h : rtpParse B = .error st) :
    st ∈ [.eRtpShort, .eRtpVersion, .eRtpHdrlen, .eRtpPayload] := by
  unfold rtpParse at h
  split_ifs at h <;> cases h <;> simp

/-- RTP.PARSE: the malformed count alone may change (R170). -/
theorem parseDatagram_ends (P : Params) (B : Bytes) (s : State) :
    Ends 0x10 (parseDatagram B) s (Changes P s · (.rtpParse B)) := by
  cases h : rtpParse B with
  | error st =>
    refine ⟨{ s with rtpMalformed := s.rtpMalformed + 1 }, [.drop .rtp st], st, ⟨_, rfl⟩, ?_,
      fun q => by simp [parseDatagram, h]⟩
    rintro rfl
    simpa using rtpParse_error h
  | ok f => exact ⟨s, [.parsed f], .ok, ⟨_, rfl⟩, by simp, fun q => by simp [parseDatagram, h]⟩

/-! ## The bodies of the ROB commands -/

/-- The first packet sets `expected` to its own number and is never late (R188, R189). -/
theorem isLate_self (threshold : BitVec 16) (seq : Seq) : isLate threshold seq seq = false := by
  simp [isLate, sdist]

@[simp] theorem robStart_started (seq : Seq) (r : Rob) : (robStart seq r).started = true := by
  unfold robStart; split <;> simp_all

@[simp] theorem robStart_buf (seq : Seq) (r : Rob) : (robStart seq r).buf = r.buf := by
  unfold robStart; split <;> rfl

/-- Only a started buffer drops a packet as late, and it keeps its invariant (R192). -/
theorem robLateDrop_inv {threshold : BitVec 16} {seq : Seq} {r : Rob} (h : RobInv r)
    (hl : isLate threshold (robStart seq r).expected seq = true) :
    RobInv (robLateDrop seq (robStart seq r)).1 := by
  cases hs : r.started with
  | false => simp [robStart, hs, isLate_self] at hl
  | true =>
    have hr : robStart seq r = r := by simp [robStart, hs]
    rw [hr]
    exact ⟨h.sorted, h.keyed, h.filled, h.expectedFree, h.timerArmed, h.idleEmpty, h.idleJitter⟩

/-- ROB.ACCEPT of a packet with a payload (R187). -/
theorem acceptPacket_ends (P : Params) {pkt : Packet} (arrival : W32) (s : State)
    (hp : pkt.payload ≠ []) :
    Ends 0x20 (acceptPacket pkt arrival) s (Changes P s · (.robAccept pkt arrival)) := by
  cases hl : isLate s.csr.lateThreshold (robStart pkt.seq s.rob).expected pkt.seq with
  | true =>
    exact ⟨{ s with rob := (robLateDrop pkt.seq (robStart pkt.seq s.rob)).1 },
      (robLateDrop pkt.seq (robStart pkt.seq s.rob)).2, .sLate,
      ⟨_, rfl, fun h => robLateDrop_inv h hl⟩, by simp, fun q => by simp [acceptPacket, hl]⟩
  | false =>
    refine ⟨{ s with
        rob := (robInsert s.csr pkt arrival (!s.rob.started) (robStart pkt.seq s.rob)).1 },
      (robInsert s.csr pkt arrival (!s.rob.started) (robStart pkt.seq s.rob)).2, .ok,
      ⟨_, rfl, fun h => ?_⟩, by simp, fun q => by simp [acceptPacket, hl]⟩
    exact (robInsert_spec pkt arrival _ _ s.csr (by simpa using h.sorted) (by simpa using h.keyed)
      (by simpa using h.filled) (robStart_started _ _) hp).1

/-- While the timer is armed the buffer has started (R30 (b), R28). -/
theorem RobInv.started_of_timer {r : Rob} (h : RobInv r) (ht : r.timer = true) :
    r.started = true := by
  by_contra hs
  have := h.timerArmed
  simp [ht, h.idleEmpty (by simpa using hs)] at this

/-- ROB.TIMER (R199). -/
theorem robTimer_ends (P : Params) (s : State) :
    Ends 0x21 robTimer s (Changes P s · .robTimer) := by
  cases ht : s.rob.timer with
  | false =>
    exact ⟨s, [], .sNotArmed, ⟨_, rfl, id⟩, by simp,
      fun q => by simp [robTimer, ht, finish_eq_ended]⟩
  | true =>
    exact ⟨{ s with rob := (timerFlush s.rob).1 }, (timerFlush s.rob).2, .ok,
      ⟨_, rfl, fun h => (timerFlush_spec _ h (h.started_of_timer ht)).1⟩, by simp,
      fun q => by simp [robTimer, ht]⟩

/-- An empty buffer that has not started, with no timer and no transit value, is good, whatever
`expected` holds. -/
theorem robInv_of_idle {r : Rob} (hs : r.started = false) (hb : r.buf = []) (ht : r.timer = false)
    (hj : r.jitValid = false) : RobInv r := by
  constructor <;> simp [hs, hb, ht, hj, kvGet]

/-- ROB.RESTART (R208). -/
theorem robRestart_ends (P : Params) (s : State) :
    Ends 0x22 (fun s => finish 0x22 .ok { s with rob := robRestart s.rob }) s
      (Changes P s · .robRestart) :=
  ⟨{ s with rob := robRestart s.rob }, [], .ok,
    ⟨_, rfl, fun _ => robInv_of_idle rfl rfl rfl rfl⟩, by simp, fun _ => finish_eq_ended _ _ _⟩

/-! ## The bodies of the GRP commands -/

/-- A record that a block may be put into: a good one but for the number of its blocks. -/
structure GroupShape (g : Group) : Prop where
  sorted : KvSorted g.blocks
  kPos : 1 ≤ g.k.toNat
  kLeN : g.k.toNat ≤ g.n.toNat
  indexBelow : ∀ e ∈ g.blocks, e.1.toNat < g.n.toNat
  lengths : ∀ e ∈ g.blocks, e.2 ≠ [] ∧ e.2.length ≤ g.maxlen.toNat

/-- A good record is one of good shape whose count is from 1 to `k` - 1 (R32 (b)). -/
theorem groupInv_iff {g : Group} :
    GroupInv g ↔ GroupShape g ∧ 1 ≤ g.blocks.length ∧ g.blocks.length < g.k.toNat :=
  ⟨fun h => ⟨⟨h.sorted, h.kPos, h.kLeN, h.indexBelow, h.lengths⟩, h.countPos, h.countBelow⟩,
    fun ⟨h, hpos, hlt⟩ => ⟨h.sorted, h.kPos, h.kLeN, h.indexBelow, h.lengths, hpos, hlt⟩⟩

/-- What the metadata test lets pass (R226). -/
theorem badMeta_eq_false {index : BitVec 16} {k n : BitVec 8} :
    badMeta index k n = false ↔ 1 ≤ k.toNat ∧ k.toNat ≤ n.toNat ∧ index.toNat < n.toNat := by
  simp only [badMeta, Bool.or_eq_false_iff, decide_eq_false_iff_not]
  omega

/-- A new record has good shape (R222). -/
theorem newGroup_shape (gid : W32) {k n : BitVec 8} (hk : 1 ≤ k.toNat) (hn : k.toNat ≤ n.toNat) :
    GroupShape (newGroup gid k n) :=
  ⟨by simp [newGroup], hk, hn, by simp [newGroup], by simp [newGroup]⟩

/-- Recording a payload below `n`, not empty and of 16-bit length keeps the shape (R225). -/
theorem recordBlock_shape {g : Group} {index : BitVec 16} {payload : Bytes} (h : GroupShape g)
    (hi : index.toNat < g.n.toNat) (hp : payload ≠ []) (hl : payload.length < 65536) :
    GroupShape (recordBlock index payload g) := by
  have hmax : (recordBlock index payload g).maxlen.toNat = max g.maxlen.toNat payload.length := by
    have := g.maxlen.isLt
    simp only [recordBlock, BitVec.toNat_ofNat]
    omega
  refine ⟨kvSorted_kvPut h.sorted, h.kPos, h.kLeN, fun e he => ?_, fun e he => ?_⟩
  · rcases mem_kvPut he with rfl | he
    · exact hi
    · exact h.indexBelow e he
  · rw [hmax]
    rcases mem_kvPut he with rfl | he
    · exact ⟨hp, Nat.le_max_right _ _⟩
    · exact ⟨(h.lengths e he).1, (h.lengths e he).2.trans (Nat.le_max_left _ _)⟩

/-- A record holds a block after one is recorded. -/
theorem recordBlock_count_pos (index : BitVec 16) (payload : Bytes) (g : Group) :
    1 ≤ (recordBlock index payload g).blocks.length :=
  List.length_pos_of_mem (kvGet_mem kvGet_kvPut_self)

/-- A record of the updated list is the new one or an old one of another id (R225). -/
theorem mem_updateGroup {g r : Group} {x : Grp} (h : r ∈ (updateGroup g x).groups) :
    r = g ∨ r ∈ x.groups ∧ r.gid ≠ g.gid := by
  obtain ⟨r', hr', he⟩ := List.mem_map.1 h
  split at he
  · exact .inl he.symm
  · next hne => exact .inr (he ▸ ⟨hr', hne⟩)

/-- Whichever records leave, the unit stays good. -/
theorem GrpInv.of_sublist {x y : Grp} (h : GrpInv x) (hs : y.groups.Sublist x.groups) : GrpInv y :=
  ⟨h.distinct.sublist (hs.map _), fun r hr => h.records r (hs.subset hr)⟩

/-- FlushGroup keeps the invariant (R228). -/
theorem flushGroup_inv {P : GfParams} {ready : Bool} {g : Group} {cause : Cause} {x : GrpOut}
    (h : GrpInv x.1) : GrpInv (flushGroup P ready g cause x).1 :=
  h.of_sublist ((flushGroup_groups P ready g cause x).1 ▸ List.filter_sublist)

/-- Recording into `g` and the flush at `k` (R220, R224): every record is good afterwards when every
other one was before, for then the count of `g` is below `k` or the record has left. -/
theorem addToGroup_inv {P : GfParams} {ready : Bool} {index : BitVec 16} {payload : Bytes} {g : Group}
    {x : GrpOut} (hd : (x.1.groups.map Group.gid).Nodup)
    (hothers : ∀ r ∈ x.1.groups, r.gid ≠ g.gid → GroupInv r) (hg : GroupShape g)
    (hi : index.toNat < g.n.toNat) (hp : payload ≠ []) (hl : payload.length < 65536) :
    GrpInv (addToGroup P ready index payload g x).1 := by
  let g' := recordBlock index payload g
  have hd' : ((updateGroup g' x.1).groups.map Group.gid).Nodup := by rwa [updateGroup_gids]
  simp only [addToGroup]
  split
  · obtain ⟨hgroups, -⟩ := flushGroup_groups P ready g' .countReached (updateGroup g' x.1, x.2)
    refine ⟨hgroups ▸ hd'.sublist (List.filter_sublist.map _), fun r hr => ?_⟩
    obtain ⟨hmem, hne⟩ := List.mem_filter.1 (hgroups ▸ hr)
    rcases mem_updateGroup hmem with rfl | ⟨hmem, hne'⟩
    · simp at hne
    · exact hothers r hmem hne'
  · next hcount =>
    refine ⟨hd', fun r hr => ?_⟩
    rcases mem_updateGroup hr with rfl | ⟨hmem, hne⟩
    · exact groupInv_iff.2 ⟨recordBlock_shape hg hi hp hl, recordBlock_count_pos _ _ _,
        Nat.lt_of_not_le hcount⟩
    · exact hothers r hmem hne

/-- AddPacket keeps the invariant (R220). -/
theorem groupAdd_inv {P : GfParams} {ready : Bool} {maxGroups : Nat} {gid : W32} {index : BitVec 16}
    {k n : BitVec 8} {payload : Bytes} {g : Grp} {x : GrpOut} (h : GrpInv g) (hp : payload ≠ [])
    (hl : payload.length < 65536)
    (hx : groupAdd P ready maxGroups gid index k n payload g = some x) : GrpInv x.1 := by
  unfold groupAdd at hx
  cases hgid : groupOf gid g.groups with
  | none =>
    rw [hgid] at hx
    cases hm : badMeta index k n with
    | true => simp [hm] at hx
    | false =>
      obtain ⟨hk, hn, hi⟩ := badMeta_eq_false.1 hm
      have hsuffix := (evict_spec P ready maxGroups (g, []) h.distinct).1
      have hkept : GrpInv (evict P ready maxGroups (g, [])).1 := h.of_sublist hsuffix.sublist
      simp only [hm, Bool.false_eq_true, if_false, Option.some.injEq] at hx
      subst hx
      refine addToGroup_inv ?_ (fun r hr hne => ?_) (newGroup_shape gid hk hn) hi hp hl
      · rw [List.map_append, List.nodup_append]
        refine ⟨hkept.distinct, by simp, ?_⟩
        simp only [List.mem_map, List.map_cons, List.map_nil, List.mem_singleton]
        rintro _ ⟨r, hr, rfl⟩ _ rfl
        exact groupOf_none.1 hgid r (hsuffix.subset hr)
      · rcases List.mem_append.1 hr with hr | hr
        · exact hkept.records r hr
        · exact absurd (congrArg Group.gid (List.mem_singleton.1 hr)) hne
  | some r =>
    rw [hgid] at hx
    simp only at hx
    split_ifs at hx with hi
    obtain rfl := Option.some.inj hx
    have hr : GroupInv r := h.records r (List.mem_of_find?_eq_some hgid)
    exact addToGroup_inv h.distinct (fun r' hr' _ => h.records r' hr') (groupInv_iff.1 hr).1
      (Nat.lt_of_not_le hi) hp hl

/-- GRP.ADD (R220). -/
theorem addBlock_ends (P : Params) (gid : W32) (index : BitVec 16) (k n : BitVec 8) (payload : Bytes)
    (s : State) :
    Ends 0x30 (addBlock P.gf gid index k n payload) s
      (Changes P s · (.grpAdd gid index k n payload)) := by
  have hrefl : Changes P s s (.grpAdd gid index k n payload) := .refl P s (by simp)
  by_cases hp : payload = []
  · exact ⟨s, [], .eOperand, hrefl, by simp, fun q => by simp [addBlock, hp, finish_eq_ended]⟩
  · cases hx : groupAdd P.gf s.gf.gfReady s.csr.grpMaxGroups.toNat gid index k n payload s.grp with
    | none =>
      exact ⟨s, [.drop .grp .eMeta], .eMeta, hrefl, by simp, fun q => by simp [addBlock, hp, hx]⟩
    | some x =>
      exact ⟨{ s with grp := x.1 }, x.2, .ok, ⟨_, rfl, fun hl h => groupAdd_inv h hp hl hx⟩, by simp,
        fun q => by simp [addBlock, hp, hx]⟩

/-- GRP.EXPIRE (R229). -/
theorem expireGroup_ends (P : Params) (gid : W32) (s : State) :
    Ends 0x31 (expireGroup P.gf gid) s (Changes P s · (.grpExpire gid)) := by
  cases hg : groupOf gid s.grp.groups with
  | none =>
    exact ⟨s, [], .sNotArmed, ⟨_, rfl, id⟩, by simp,
      fun q => by simp [expireGroup, hg, finish_eq_ended]⟩
  | some g =>
    exact ⟨{ s with grp := (flushGroup P.gf s.gf.gfReady g .expiry (s.grp, [])).1 },
      (flushGroup P.gf s.gf.gfReady g .expiry (s.grp, [])).2, .ok,
      ⟨_, rfl, fun h => flushGroup_inv h⟩, by simp, fun q => by simp [expireGroup, hg]⟩

/-! ## The body of DEP.PACKET -/

/-- The statuses of an aggregated packet (R259, R260). -/
theorem stapLoop_status (ts : W32) (fuel : Nat) (B : Bytes) (x : DepOut) :
    (stapLoop ts fuel B x).2 ∈ [.ok, .eStapTrunc] := by
  induction fuel generalizing B x with
  | zero => simp [stapLoop]
  | succ fuel ih =>
    unfold stapLoop
    split_ifs
    · simp
    · simp
    · simp
    · exact ih _ _
    · exact ih _ _

/-- The statuses of a fragment (R262 to R266). -/
theorem fuA_status (ts : W32) (payload : Bytes) (x : DepOut) :
    (fuA ts payload x).2 ∈ [.ok, .eFuaShort, .eFuaOrphan, .eFuaTs] := by
  unfold fuA
  split_ifs <;> simp

/-- S_INSUFFICIENT is not a status of the depacketizer (R250). -/
theorem dispatchNal_status (ts : W32) (payload : Bytes) (x : DepOut) :
    (dispatchNal ts payload x).2 ≠ .sInsufficient := by
  simp only [dispatchNal]
  split_ifs
  · simp
  · intro h
    have hs : (stapA ts payload x).2 ∈ [.ok, .eStapTrunc] := stapLoop_status _ _ _ _
    simp [h] at hs
  · intro h
    simpa [h] using fuA_status ts payload x
  · simp

/-- DEP.PACKET with a payload (R250). -/
theorem depacketize_ends (P : Params) (seq : Seq) (ts : W32) (m : Bool) {payload : Bytes}
    (s : State) (hp : payload ≠ []) :
    Ends 0x40 (depacketize seq ts m payload) s (Changes P s · (.depPacket seq ts m payload)) :=
  let y := depStep s.csr.fuGapThreshold seq ts m payload s.dep
  ⟨{ s with dep := y.1.1 }, y.1.2, y.2,
    ⟨_, rfl, fun h => (depStep_moves _ seq ts m hp s.dep h).1⟩, dispatchNal_status _ _ _,
    fun _ => rfl⟩

/-! ## The bodies of the CSR and SYS commands -/

/-- A legal value keeps every register legal (R287, R40). -/
theorem csrWrite_inv {reg : BitVec 8} {value : W32} {c : Csr} (h : CsrInv c)
    (hv : csrLegal reg value = true) : CsrInv (csrWrite reg value c) := by
  obtain ⟨late, groups, restartLow, restartHigh, fuGap, clock⟩ := h
  unfold csrLegal at hv
  split at hv
  case h_9 => simp at hv
  all_goals
    rename_i hreg
    simp only [Bool.and_eq_true, decide_eq_true_eq] at hv
    simp only [csrWrite, hreg]
    constructor <;> simp only [BitVec.toNat_setWidth] <;> omega

/-- CSR.WR (R287). -/
theorem csrWr_ends (P : Params) (reg : BitVec 8) (value : W32) (s : State) :
    Ends 0x71
      (fun s =>
        if csrLegal reg value then finish 0x71 .ok { s with csr := csrWrite reg value s.csr }
        else reject 0x71 .eCsr s) s (Changes P s · (.csrWr reg value)) := by
  cases hv : csrLegal reg value with
  | true =>
    exact ⟨{ s with csr := csrWrite reg value s.csr }, [], .ok,
      ⟨_, rfl, fun h => csrWrite_inv h hv⟩, by simp, fun _ => finish_eq_ended _ _ _⟩
  | false => exact ⟨s, [], .eCsr, ⟨_, rfl, id⟩, by simp, fun _ => finish_eq_ended _ _ _⟩

/-- What every command but CSR.RD and SYS.RESET does: it changes its own unit alone and ends, whatever
OQ holds (R36, R300). -/
theorem execWith_ends (P : Params) (i : Instr) (s : State) (hrd : ∀ reg, i ≠ .csrRd reg)
    (hreset : i ≠ .sysReset) :
    ∃ f : State → State, (∀ s', execWith P i s' = .next (f s')) ∧
      Ends i.opcode.code f s (Changes P s · i) := by
  have hrefl := Changes.refl P s hreset
  cases i with
  | csrRd reg => exact absurd rfl (hrd reg)
  | sysReset => exact absurd rfl hreset
  | gfInit => exact ⟨_, fun _ => rfl, (gfInit_ends P s).unlessFatal hrefl⟩
  | eceNewmatrix k n => exact ⟨_, fun _ => rfl, (newMatrix_ends P k n s).unlessFatal hrefl⟩
  | eceEncode k n blen blocks rows =>
    refine ⟨_, fun _ => rfl, (engineDone_ends _ _ (fun ready => engineEncode P.gf ready _ _ _ _ _) s
      fun st h => ?_).unlessFatal hrefl⟩
    rintro rfl
    simpa using engineEncode_error h
  | eceBuilddec k n idx =>
    refine ⟨_, fun _ => rfl, (engineDone_ends _ _ (fun ready => engineBuildDec P.gf ready _ _ _) s
      fun st h => ?_).unlessFatal hrefl⟩
    rintro rfl
    simpa using engineBuildDec_error h
  | eceDecode k n blen idx rows =>
    refine ⟨_, fun _ => rfl, (engineDone_ends _ _ (fun ready => engineDecode P.gf ready _ _ _ _ _) s
      fun st h => ?_).unlessFatal hrefl⟩
    rintro rfl
    simpa using engineDecode_error h
  | rtpParse datagram => exact ⟨_, fun _ => rfl, (parseDatagram_ends P datagram s).unlessFatal hrefl⟩
  | robAccept pkt arrival =>
    exact ⟨_, fun _ => rfl, (Ends.unlessEmpty hrefl (acceptPacket_ends P arrival s)).unlessFatal hrefl⟩
  | robTimer => exact ⟨_, fun _ => rfl, (robTimer_ends P s).unlessFatal hrefl⟩
  | robRestart => exact ⟨_, fun _ => rfl, (robRestart_ends P s).unlessFatal hrefl⟩
  | grpAdd gid index k n payload =>
    exact ⟨_, fun _ => rfl, (addBlock_ends P gid index k n payload s).unlessFatal hrefl⟩
  | grpExpire gid => exact ⟨_, fun _ => rfl, (expireGroup_ends P gid s).unlessFatal hrefl⟩
  | depPacket seq ts m payload =>
    exact ⟨_, fun _ => rfl, (Ends.unlessEmpty hrefl (depacketize_ends P seq ts m s)).unlessFatal hrefl⟩
  | csrWr reg value => exact ⟨_, fun _ => rfl, (csrWr_ends P reg value s).unlessFatal hrefl⟩
  | sysTeardown =>
    exact ⟨_, fun _ => rfl, Ends.unlessFatal hrefl ⟨teardown s, [], .ok, .inr rfl, by simp,
      fun _ => finish_eq_ended _ _ _⟩⟩

/-- CSR.RD appends records and does nothing else, whatever OQ holds (R286). -/
theorem execCsrRd_emits (reg : BitVec 8) (s : State) :
    ∃ recs : List Record, ∀ q : List Record,
      execCsrRd reg { s with oq := q } = .next (emitAll recs { s with oq := q }) := by
  have hread : ∀ q : List Record, csrRead reg { s with oq := q } = csrRead reg s := fun _ => rfl
  cases h : csrRead reg s with
  | none => exact ⟨_, fun q => by rw [execCsrRd, hread, h]⟩
  | some value => exact ⟨_, fun q => by rw [execCsrRd, hread, h]⟩

/-! ## Consequences for a whole command -/

/-- The effect of every command but SYS.RESET, whatever OQ holds: a change that `Changes` allows, a
status code in `last_status`, the same records appended to OQ. -/
theorem execWith_effect (P : Params) (i : Instr) (s : State) (hreset : i ≠ .sysReset) :
    ∃ (u : State) (recs : List Record) (v : BitVec 8), Changes P s u i ∧
      (StatusInv s.lastStatus → StatusInv v) ∧
      ∀ q : List Record, execWith P i { s with oq := q } =
        .next { u with lastStatus := v, oq := q ++ recs } := by
  by_cases hrd : ∃ reg, i = .csrRd reg
  · obtain ⟨reg, rfl⟩ := hrd
    obtain ⟨recs, hrun⟩ := execCsrRd_emits reg s
    exact ⟨s, recs, s.lastStatus, rfl, id, hrun⟩
  · obtain ⟨f, hf, u, recs, st, hu, hst, hrun⟩ := execWith_ends P i s (by simpa using hrd) hreset
    refine ⟨u, recs ++ [.done i.opcode.code st], st.code, hu, fun _ => ⟨st, hst, rfl⟩, fun q => ?_⟩
    rw [hf, hrun, State.ended, List.append_assoc]

/-- Besides `last_status` and OQ a command changes what `Changes` allows it, and `last_status` stays a
status code. -/
theorem execWith_next {P : Params} {i : Instr} {s t : State} (h : execWith P i s = .next t) :
    ∃ u : State, Changes P s u i ∧ t = { u with lastStatus := t.lastStatus, oq := t.oq } ∧
      (StatusInv s.lastStatus → StatusInv t.lastStatus) := by
  by_cases hreset : i = .sysReset
  · subst hreset
    obtain rfl : finish 0x7F .ok (hardReset s) = t := Host.Outcome.next.inj h
    exact ⟨hardReset s, rfl, rfl, fun _ => ⟨.ok, by simp, rfl⟩⟩
  · obtain ⟨u, recs, v, hu, hv, hrun⟩ := execWith_effect P i s hreset
    obtain rfl := Host.Outcome.next.inj ((hrun s.oq).symm.trans h)
    exact ⟨u, hu, rfl, hv⟩

/-- A command changes no unit but its own (R23, R60). -/
theorem Changes.units {P : Params} {s u : State} {i : Instr} (h : Changes P s u i) :
    (u.gf ≠ s.gf → i.opcode ∈ [.gfInit, .sysReset]) ∧
    (u.rob ≠ s.rob → i.opcode ∈ [.robAccept, .robTimer, .robRestart, .sysTeardown, .sysReset]) ∧
    (u.grp ≠ s.grp → i.opcode ∈ [.grpAdd, .grpExpire, .sysTeardown, .sysReset]) ∧
    (u.dep ≠ s.dep → i.opcode ∈ [.depPacket, .sysTeardown, .sysReset]) ∧
    (u.rtpMalformed ≠ s.rtpMalformed → i.opcode ∈ [.rtpParse, .sysReset]) ∧
    (u.csr ≠ s.csr → i.opcode ∈ [.csrWr, .sysReset]) ∧
    u.port = s.port ∧ u.portEnd = s.portEnd := by
  cases i with
  | eceEncode | eceBuilddec | eceDecode | csrRd => obtain rfl : u = s := h; simp
  | eceNewmatrix | rtpParse => obtain ⟨_, rfl⟩ := h; simp [Instr.opcode]
  | gfInit | robAccept | robTimer | robRestart | grpAdd | grpExpire | depPacket | csrWr =>
    obtain ⟨_, rfl, -⟩ := h; simp [Instr.opcode]
  | sysTeardown => rcases h with rfl | rfl <;> simp [Instr.opcode]
  | sysReset => obtain rfl : u = hardReset s := h; simp [Instr.opcode]

/-- Settles O50: `execWith_next` names the state the command changes, `Changes.units` its unit. -/
theorem unitsDoNotInterfere : Obligations.UnitsDoNotInterfere := by
  intro i s t h
  rw [exec_eq_execWith] at h
  obtain ⟨u, hu, ht, -⟩ := execWith_next h
  rw [ht]
  exact hu.units

/-- Settles O51: `execWith_effect` has one list of records for every content of OQ. -/
theorem outputQueueIsNeverRead : Obligations.OutputQueueIsNeverRead := by
  intro i s t hreset h
  simp only [exec_eq_execWith] at h ⊢
  obtain ⟨u, recs, v, -, -, hrun⟩ := execWith_effect paramsDefault i s hreset
  obtain rfl := Host.Outcome.next.inj ((hrun s.oq).symm.trans h)
  exact ⟨recs, rfl, hrun⟩

/-! ## The invariant -/

/-- Settles O58, unit by unit (R54, R40). -/
theorem resetMeetsInvariant : Obligations.ResetMeetsInvariant := fun _ => {
  gf := rfl
  rob := robInv_of_idle rfl rfl rfl rfl
  grp := ⟨by simp [State.reset, Grp.reset], by simp [State.reset, Grp.reset]⟩
  dep := by constructor <;> decide
  csr := by constructor <;> decide
  status := ⟨.ok, by simp, rfl⟩ }

/-- SYS.TEARDOWN leaves a good depacketizer, whatever it held (R290). -/
theorem depTeardown_inv (d : Dep) : DepInv (depTeardown d) := by
  constructor <;> simp [depTeardown, hasNal]

/-- The payload of a GRP.ADD has a length that `maxlen` can hold. -/
def PayloadFits : Instr → Prop
  | .grpAdd _ _ _ _ payload => payload.length < 65536
  | _ => True

/-- What a command may change keeps the invariant, OQ and `last_status` aside. -/
theorem Changes.inv {P : Params} {s u : State} {i : Instr} {v : BitVec 8} {q : List Record}
    (h : Changes P s u i) (hi : PayloadFits i) (hs : Inv P s) (hv : StatusInv v) :
    Inv P { u with lastStatus := v, oq := q } := by
  obtain ⟨gf, rob, grp, dep, csr, -⟩ := hs
  cases i with
  | eceEncode | eceBuilddec | eceDecode | csrRd =>
    obtain rfl : u = s := h
    exact ⟨gf, rob, grp, dep, csr, hv⟩
  | eceNewmatrix | rtpParse =>
    obtain ⟨_, rfl⟩ := h
    exact ⟨gf, rob, grp, dep, csr, hv⟩
  | gfInit =>
    obtain ⟨_, rfl, hgf⟩ := h
    exact ⟨hgf gf, rob, grp, dep, csr, hv⟩
  | robAccept | robTimer | robRestart =>
    obtain ⟨_, rfl, hrob⟩ := h
    exact ⟨gf, hrob rob, grp, dep, csr, hv⟩
  | grpAdd =>
    obtain ⟨_, rfl, hgrp⟩ := h
    exact ⟨gf, rob, hgrp hi grp, dep, csr, hv⟩
  | grpExpire =>
    obtain ⟨_, rfl, hgrp⟩ := h
    exact ⟨gf, rob, hgrp grp, dep, csr, hv⟩
  | depPacket =>
    obtain ⟨_, rfl, hdep⟩ := h
    exact ⟨gf, rob, grp, hdep dep, csr, hv⟩
  | csrWr =>
    obtain ⟨_, rfl, hcsr⟩ := h
    exact ⟨gf, rob, grp, dep, hcsr csr, hv⟩
  | sysTeardown =>
    rcases h with rfl | rfl
    · exact ⟨gf, rob, grp, dep, csr, hv⟩
    · exact ⟨gf, robInv_of_idle rfl rfl rfl rfl, grp.of_sublist (List.nil_sublist _),
        depTeardown_inv _, csr, hv⟩
  | sysReset =>
    obtain rfl : u = hardReset s := h
    obtain ⟨gf, rob, grp, dep, csr, -⟩ := resetMeetsInvariant P
    exact ⟨gf, rob, grp, dep, csr, hv⟩

/-- A command whose payload fits keeps the invariant. -/
theorem execWith_inv {P : Params} {i : Instr} {s t : State} (hi : PayloadFits i) (hs : Inv P s)
    (h : execWith P i s = .next t) : Inv P t := by
  obtain ⟨u, hu, ht, hst⟩ := execWith_next h
  rw [ht]
  exact hu.inv hi hs (hst hs.status)

/-- A command at the head of the port is read from the bytes its own words call for (R81). -/
theorem frame_command {maxLen : Nat} {B : Bytes} {ended : Bool} {i : Instr} {rest : Bytes}
    (h : frame maxLen B ended = .command i rest) :
    ∃ op : Opcode, i = decodeFields (B.take (op.commandBytes B)) op := by
  have hB : B ≠ [] := by rintro rfl; simp [frame] at h
  rw [frame_eq hB] at h
  cases hop : Opcode.ofByte (byteAt B 0) with
  | none =>
    simp only [hop, frameShort] at h
    split_ifs at h
  | some op =>
    simp only [hop, frameShort] at h
    split_ifs at h
    exact ⟨op, (Framed.command.inj h).1.symm⟩

/-- The payload of a decoded GRP.ADD is counted by a 16-bit field (R93). -/
theorem payloadFits_of_frame {maxLen : Nat} {B : Bytes} {ended : Bool} {i : Instr} {rest : Bytes}
    (h : frame maxLen B ended = .command i rest) : PayloadFits i := by
  obtain ⟨op, rfl⟩ := frame_command h
  cases op with
  | grpAdd =>
    have hlen := (be16 B 10).isLt
    simp only [decodeFields, PayloadFits, List.length_drop, List.length_take, Opcode.commandBytes,
      Opcode.format, Format.headBytes, Format.bodyBytes, plenFieldGH]
    omega
  | _ => trivial

/-- The invariant does not speak of the port. -/
theorem Inv.consume {P : Params} {s : State} (h : Inv P s) (rest : Bytes) :
    Inv P (consume rest s) :=
  ⟨h.gf, h.rob, h.grp, h.dep, h.csr, h.status⟩

/-- A decode-layer rejection keeps the invariant (R98). -/
theorem Inv.portReject {P : Params} {s : State} (h : Inv P s) (op : Byte) (why : FrameError) :
    Inv P (portReject op why s) :=
  ⟨h.gf, h.rob, h.grp, h.dep, h.csr, frameStatus why, by cases why <;> simp [frameStatus], rfl⟩

/-- Every step keeps the invariant, at any parameters. -/
theorem stepWith_inv {P : Params} {s t : State} (hs : Inv P s) (h : stepWith P s = .next t) :
    Inv P t := by
  unfold stepWith at h
  cases hf : frame P.maxLen s.port s.portEnd with
  | wait =>
    obtain rfl : s = t := by simpa [hf] using h
    exact hs
  | reject op why rest =>
    obtain rfl : portReject op why (consume rest s) = t := by simpa [hf] using h
    exact (hs.consume rest).portReject op why
  | command i rest =>
    rw [hf] at h
    exact execWith_inv (payloadFits_of_frame hf) (hs.consume rest) h

/-- Settles O59: the invariant is kept by the step at any parameters, and `step` is that machine. -/
theorem stepKeepsInvariant : Obligations.StepKeepsInvariant := by
  intro P s t hs
  refine ⟨stepWith_inv hs, ?_⟩
  rintro rfl h
  rw [step_eq_stepWith] at h
  exact stepWith_inv hs h

end Sys2Proof.Machine
end

section
/-! PROOFS. RTP.PARSE and the payload range (spec/20_memory.md R62; spec/42_rtp_parser.md R170 to R180):
the parser accepts a datagram that passes all its tests, and an accepted datagram's range is exact. -/

namespace Sys2Proof.Machine

/-- The meaning of RTP.PARSE (R170). -/
theorem exec_rtpParse (B : Bytes) (s : State) :
    exec (.rtpParse B) s = .next (unlessFatal 0x10 (parseDatagram B) s) := rfl

/-- The extension's own header lies before the payload (R104, R174). -/
theorem rtpCsrcEnd_add_four_le_rtpHdr {B : Bytes} (hx : rtpX B = true) :
    rtpCsrcEnd B + 4 ≤ rtpHdr B := by
  simp [rtpHdr, hx]

/-- A datagram is parsed when it passes the tests of R179, to the fields of R180. -/
theorem rtpParse_eq_ok_iff {B : Bytes} {h : ParsedRtp} :
    rtpParse B = .ok h ↔ 12 ≤ B.length ∧ (byteAt B 0).extractLsb' 6 2 = 2#2 ∧
      rtpHdr B ≤ B.length ∧ 0 < rtpPlen B ∧ rtpFields B = h := by
  constructor
  · intro hok
    unfold rtpParse at hok
    split_ifs at hok with hshort hversion hext hhdr hplen
    exact ⟨by omega, not_not.mp hversion, by omega, by omega, Except.ok.inj hok⟩
  · rintro ⟨hshort, hversion, hhdr, hplen, rfl⟩
    have hext : ¬(rtpX B = true ∧ rtpCsrcEnd B + 4 > B.length) := by
      rintro ⟨hx, hcut⟩
      have := rtpCsrcEnd_add_four_le_rtpHdr hx
      omega
    rw [rtpParse, if_neg (by omega), if_neg (not_not.mpr hversion), if_neg hext,
      if_neg (by omega), if_neg (by omega)]

/-- RTP.PARSE emits a `Parsed` record only for a datagram the parser accepts (R170). -/
theorem rtpParse_of_exec_parsed {B : Bytes} {s t : State} {h : ParsedRtp}
    (hexec : exec (.rtpParse B) s = .next t)
    (hoq : t.oq = s.oq ++ [.parsed h, .done 0x10 .ok]) : rtpParse B = .ok h := by
  obtain rfl := Host.Outcome.next.inj ((exec_rtpParse B s).symm.trans hexec)
  cases hf : s.fatal with
  | true => simp [hf] at hoq
  | false =>
    cases hp : rtpParse B with
    | error st => simp [hf, parseDatagram, hp] at hoq
    | ok f => simpa [hf, parseDatagram, hp] using hoq

/-- The payload takes no more than what the header leaves (R177). -/
theorem rtpHdr_add_rtpPlen_le (B : Bytes) : rtpHdr B + rtpPlen B ≤ B.length := by
  unfold rtpPlen
  split <;> omega

/-- The 16-bit offset of the record does not wrap for a datagram of at most `MAX_LEN` bytes (R180). -/
theorem rtpFields_payloadOff_toNat {B : Bytes} (hlen : B.length ≤ Config.maxLen)
    (hhdr : rtpHdr B ≤ B.length) : (rtpFields B).payloadOff.toNat = rtpHdr B :=
  (BitVec.toNat_ofNat _ _).trans (Nat.mod_eq_of_lt (Nat.lt_succ_of_le (hhdr.trans hlen)))

/-- Nor does the 16-bit length (R180). -/
theorem rtpFields_payloadLen_toNat {B : Bytes} (hlen : B.length ≤ Config.maxLen) :
    (rtpFields B).payloadLen.toNat = (rtpPlen B).toNat := by
  have hplen : (rtpPlen B).toNat ≤ B.length := by
    have := rtpHdr_add_rtpPlen_le B
    omega
  exact (BitVec.toNat_ofNat _ _).trans (Nat.mod_eq_of_lt (Nat.lt_succ_of_le (hplen.trans hlen)))

/-- Settles O14: the record's range is the parser's `rtpHdr` and `rtpPlen`, which its last two tests
bound. -/
theorem payloadRangeInsideDatagram : Obligations.PayloadRangeInsideDatagram := by
  intro B s t h hlen hexec hoq
  obtain ⟨-, -, hhdr, hplen, rfl⟩ := rtpParse_eq_ok_iff.mp (rtpParse_of_exec_parsed hexec hoq)
  rw [rtpFields_payloadOff_toNat hlen hhdr, rtpFields_payloadLen_toNat hlen]
  have hend := rtpHdr_add_rtpPlen_le B
  omega

end Sys2Proof.Machine
end

section
/-! PROOFS. The decode layer (spec/30_encoding.md R80 to R98): what the port reads as a command
(`IsCommand`), and that encoding and decoding undo each other on exactly those byte strings. -/

namespace Sys2Proof

/-! ## Reads inside the command and past its end -/

theorem be16_append_left {C : Bytes} (rest : Bytes) {i : Nat} (h : i + 1 < C.length) :
    be16 (C ++ rest) i = be16 C i := by
  simp only [be16, byteAt_append_left rest h, byteAt_append_left rest (Nat.lt_of_succ_lt h)]

theorem be32_append_left {C : Bytes} (rest : Bytes) {i : Nat} (h : i + 3 < C.length) :
    be32 (C ++ rest) i = be32 C i := by
  simp (disch := omega) only [be32, byteAt_append_left]

/-- The length a command calls for is read from its own words (R81). -/
theorem commandBytes_append {op : Opcode} {C : Bytes} (rest : Bytes)
    (h : op.format.headBytes ≤ C.length) : op.commandBytes (C ++ rest) = op.commandBytes C := by
  unfold Opcode.commandBytes
  cases hf : op.format <;> rw [hf] at h <;> simp only [Format.headBytes] at h <;>
    simp (disch := omega) only [Format.bodyBytes, cntField, blenField, rowsField, lenFieldP,
      plenFieldA, plenFieldGH, be16_append_left]

/-- So are the reserved bits (R82). -/
theorem reservedClear_append {f : Format} {C : Bytes} (rest : Bytes) (h : f.headBytes ≤ C.length) :
    f.reservedClear (C ++ rest) = f.reservedClear C := by
  cases f <;> simp only [Format.headBytes] at h <;>
    simp (disch := omega) only [Format.reservedClear, be32_append_left]

/-- And the length fields (R98 (b)). -/
theorem tooLong_append {f : Format} (maxLen : Nat) {C : Bytes} (rest : Bytes)
    (h : f.headBytes ≤ C.length) : f.tooLong maxLen (C ++ rest) = f.tooLong maxLen C := by
  rw [Bool.eq_iff_iff]
  cases f <;> simp only [Format.headBytes] at h <;>
    simp only [Format.tooLong, decide_eq_true_eq] <;>
    simp (disch := omega) only [blenField, lenFieldP, plenFieldA, plenFieldGH, be16_append_left]

/-! ## What the port reads -/

theorem headBytes_le_commandBytes (op : Opcode) (B : Bytes) :
    op.format.headBytes ≤ op.commandBytes B := Nat.le_add_right _ _

theorem four_le_commandBytes (op : Opcode) (B : Bytes) : 4 ≤ op.commandBytes B :=
  (four_le_headBytes _).trans (headBytes_le_commandBytes op B)

/-- No opcode has a byte that R100 lists as illegal. -/
theorem ofByte_eq_none {b : Byte} (h : ∀ op : Opcode, op.code ≠ b) : Opcode.ofByte b = none := by
  cases hb : Opcode.ofByte b with
  | none => rfl
  | some op => exact absurd (code_of_ofByte hb) (h op)

/-- Fewer than four bytes are never a command (R81, R98 (a)). -/
theorem frame_of_length_lt_four {maxLen : Nat} {b : Byte} {tail : Bytes} {ended : Bool}
    (h : (b :: tail).length < 4) : frame maxLen (b :: tail) ended = frameShort b ended := by
  rw [frame, if_pos h]

/-- An unassigned opcode (R98 (c), R100). -/
theorem frame_unassigned {maxLen : Nat} {b : Byte} {tail : Bytes} {ended : Bool}
    (hlen : 4 ≤ (b :: tail).length) (hb : ∀ op : Opcode, op.code ≠ b) :
    frame maxLen (b :: tail) ended = .reject b .illegal ((b :: tail).drop 4) := by
  simp only [frame, if_neg (Nat.not_lt.mpr hlen), ofByte_eq_none hb]

/-- The port at an assigned opcode: one length test covers the three of R98 (a), the command being at
least as long as its words, and they at least four bytes. -/
theorem frame_assigned (maxLen : Nat) (op : Opcode) {B : Bytes} (ended : Bool) (hB : B ≠ [])
    (hop : byteAt B 0 = op.code) :
    frame maxLen B ended =
      if B.length < op.commandBytes B then frameShort op.code ended
      else if op.format.reservedClear B = false then
        .reject op.code .illegal (B.drop (op.commandBytes B))
      else if op.format.tooLong maxLen B then
        .reject op.code .badLength (B.drop (op.commandBytes B))
      else .command (decodeFields (B.take (op.commandBytes B)) op)
        (B.drop (op.commandBytes B)) := by
  have hfour := four_le_commandBytes op B
  have hhead := headBytes_le_commandBytes op B
  rw [frame_eq hB, hop]
  by_cases hcut : B.length < op.commandBytes B
  · simp only [ofByte_code, if_pos hcut]
    split_ifs <;> rfl
  · simp only [ofByte_code, if_neg hcut, if_neg (show ¬B.length < 4 by omega),
      if_neg (show ¬B.length < op.format.headBytes by omega)]

/-- The byte string `C` is one whole command of opcode `op` that the decode layer accepts at this
`MAX_LEN` (R81, R82, R98). -/
structure IsCommand (maxLen : Nat) (op : Opcode) (C : Bytes) : Prop where
  opcode : byteAt C 0 = op.code
  length : C.length = op.commandBytes C
  reserved : op.format.reservedClear C = true
  fits : op.format.tooLong maxLen C = false

/-- The decode layer reads a command exactly from one whole command and what follows it. -/
theorem frame_eq_command_iff {maxLen : Nat} {B : Bytes} {ended : Bool} {i : Instr} {rest : Bytes} :
    frame maxLen B ended = .command i rest ↔
      ∃ op C, IsCommand maxLen op C ∧ i = decodeFields C op ∧ B = C ++ rest := by
  constructor
  · intro h
    have hB : B ≠ [] := by rintro rfl; simp [frame] at h
    cases hop : Opcode.ofByte (byteAt B 0) with
    | none =>
      simp only [frame_eq hB, hop, frameShort] at h
      split_ifs at h
    | some op =>
      rw [frame_assigned maxLen op ended hB (code_of_ofByte hop).symm] at h
      simp only [frameShort] at h
      split_ifs at h with hcut hended hres hlong
      obtain ⟨rfl, rfl⟩ := Framed.command.inj h
      obtain ⟨C, D, hCD, hC⟩ : ∃ C D, B = C ++ D ∧ C.length = op.commandBytes B :=
        ⟨_, _, (List.take_append_drop (op.commandBytes B) B).symm,
          List.length_take_of_le (Nat.not_lt.mp hcut)⟩
      have hhead : op.format.headBytes ≤ C.length := hC ▸ headBytes_le_commandBytes op B
      have hpos : 0 < C.length := hC ▸ Nat.lt_of_lt_of_le (by omega) (four_le_commandBytes op B)
      rw [← hC]
      subst hCD
      refine ⟨op, C, ⟨?_, ?_, ?_, ?_⟩, by rw [List.take_left], by rw [List.drop_left]⟩
      · rw [← byteAt_append_left D hpos, code_of_ofByte hop]
      · rw [hC, commandBytes_append D hhead]
      · rw [← reservedClear_append D hhead]; simpa using hres
      · rw [← tooLong_append maxLen D hhead]; simpa using hlong
  · rintro ⟨op, C, ⟨hop, hlen, hres, hfits⟩, rfl, rfl⟩
    have hhead : op.format.headBytes ≤ C.length := hlen ▸ headBytes_le_commandBytes op C
    have hpos : 0 < C.length := hlen ▸ Nat.lt_of_lt_of_le (by omega) (four_le_commandBytes op C)
    have hne : C ++ rest ≠ [] := List.append_ne_nil_of_left_ne_nil (List.length_pos_iff.mp hpos) _
    rw [frame_assigned maxLen op ended hne ((byteAt_append_left rest hpos).trans hop),
      commandBytes_append rest hhead, reservedClear_append rest hhead,
      tooLong_append maxLen rest hhead, hres, hfits, ← hlen]
    simp

/-! ## The encoding of a well-formed command -/

@[simp] theorem be32_word (v : BitVec 32) : be32 (toBe32 v) 0 = v := by
  simpa using be32_toBe32 v []

@[simp] theorem drop_skip_word (v : BitVec 32) (B : Bytes) (n : Nat) :
    (toBe32 v ++ B).drop (n + 4) = B.drop n := rfl

/-- Every command shows its opcode and its own length. -/
theorem encodedLength (i : Instr) : Laws.EncodedLength.Statement i := by
  cases i with
  | gfInit => exact Laws.EncodedLength.gfInit
  | eceNewmatrix k n => exact Laws.EncodedLength.eceNewmatrix k n
  | eceEncode k n blen blocks rows => exact Laws.EncodedLength.eceEncode k n blen blocks rows
  | eceBuilddec k n idx => exact Laws.EncodedLength.eceBuilddec k n idx
  | eceDecode k n blen idx rows => exact Laws.EncodedLength.eceDecode k n blen idx rows
  | rtpParse datagram => exact Laws.EncodedLength.rtpParse datagram
  | robAccept pkt arrival => exact Laws.EncodedLength.robAccept pkt arrival
  | robTimer => exact Laws.EncodedLength.robTimer
  | robRestart => exact Laws.EncodedLength.robRestart
  | grpAdd gid index k n payload => exact Laws.EncodedLength.grpAdd gid index k n payload
  | grpExpire gid => exact Laws.EncodedLength.grpExpire gid
  | depPacket seq ts m payload => exact Laws.EncodedLength.depPacket seq ts m payload
  | csrRd reg => exact Laws.EncodedLength.csrRd reg
  | csrWr reg value => exact Laws.EncodedLength.csrWr reg value
  | sysTeardown => exact Laws.EncodedLength.sysTeardown
  | sysReset => exact Laws.EncodedLength.sysReset

/-- What `lengthFits` says. -/
theorem lengthFits_iff {maxLen : Nat} {b : Bytes} :
    lengthFits maxLen b = true ↔ b.length < 65536 ∧ b.length ≤ maxLen := by
  simp [lengthFits]

/-- The encoder leaves the reserved bits zero (R82). -/
theorem reservedClear_encode (i : Instr) : i.opcode.format.reservedClear (encode i) = true := by
  cases i with
  | gfInit | robTimer | robRestart | sysTeardown | sysReset => rfl
  | grpExpire => simp [Instr.opcode, Opcode.format, Format.reservedClear, encode, headZ, headZ_fields]
  | csrRd | csrWr =>
    simp [Instr.opcode, Opcode.format, Format.reservedClear, encode, headR, headR_fields]
  | eceNewmatrix | eceEncode | eceBuilddec | eceDecode =>
    simp [Instr.opcode, Opcode.format, Format.reservedClear, encode, headM, headM_fields]
  | rtpParse | grpAdd =>
    simp [Instr.opcode, Opcode.format, Format.reservedClear, encode, headP_fields]
  | depPacket => simp [Instr.opcode, Opcode.format, Format.reservedClear, encode, headH_fields]
  | robAccept =>
    simp [Instr.opcode, Opcode.format, Format.reservedClear, encode, (wordA_fields _ _ _ _ _ _ rfl).1]

/-- The length field of a well-formed command is within `MAX_LEN` (R98 (b)). -/
theorem tooLong_encode {maxLen : Nat} {i : Instr} (h : i.wellFormed maxLen = true) :
    i.opcode.format.tooLong maxLen (encode i) = false := by
  cases i with
  | gfInit | eceNewmatrix | eceBuilddec | robTimer | robRestart | grpExpire | csrRd | csrWr
  | sysTeardown | sysReset => rfl
  | eceEncode | eceDecode =>
    simp only [Instr.wellFormed, Bool.and_eq_true, rowsFit_iff] at h
    simp [Instr.opcode, Opcode.format, Format.tooLong, encode, headM, blenField, h]
  | rtpParse | robAccept | grpAdd | depPacket =>
    obtain ⟨hfield, hmax⟩ := lengthFits_iff.mp h
    simp [Instr.opcode, Opcode.format, Format.tooLong, encode, lenFieldP, plenFieldA, plenFieldGH,
      toNat_len16 hfield, hmax]

theorem isCommand_encode {maxLen : Nat} {i : Instr} (h : i.wellFormed maxLen = true) :
    IsCommand maxLen i.opcode (encode i) := by
  obtain ⟨hop, hlen⟩ := encodedLength i maxLen [] h
  rw [List.append_nil] at hop hlen
  exact ⟨hop, hlen.symm, reservedClear_encode i, tooLong_encode h⟩

/-- The operands are read back from the words the encoder builds (R84 to R95). -/
theorem decodeFields_encode {maxLen : Nat} {i : Instr} (h : i.wellFormed maxLen = true) :
    decodeFields (encode i) i.opcode = i := by
  cases i with
  | gfInit | robTimer | robRestart | sysTeardown | sysReset => rfl
  | eceNewmatrix k n =>
    simp [Instr.opcode, decodeFields, encode, headM, kField, nField, headM_fields]
  | csrRd reg => simp [Instr.opcode, decodeFields, encode, headR, headR_fields]
  | csrWr reg value => simp [Instr.opcode, decodeFields, encode, headR, headR_fields]
  | grpExpire gid => simp [Instr.opcode, decodeFields, encode, headZ]
  | rtpParse datagram => simp [Instr.opcode, decodeFields, encode]
  | robAccept pkt arrival =>
    obtain ⟨-, -, hv, hcc, hp, hx⟩ := wordA_fields pkt.v pkt.p pkt.x pkt.cc (len16 pkt.payload) _ rfl
    simp [Instr.opcode, decodeFields, packetFields, encode, headA_fields, hv, hcc, hp, hx]
  | grpAdd gid index k n payload =>
    simp [Instr.opcode, decodeFields, encode, wordG_fields]
  | depPacket seq ts m payload =>
    simp [Instr.opcode, decodeFields, encode, headH_fields]
  | eceBuilddec k n idx =>
    have hcount : (len16 idx).toNat = idx.length := toNat_len16 (lt_of_countFits h)
    have hlist := readList16_flatMap idx []
    rw [List.append_nil] at hlist
    simp [Instr.opcode, decodeFields, encode, headM, kField, nField, headM_fields, cntField, hcount,
      hlist]
  | eceEncode k n blen blocks rows =>
    simp only [Instr.wellFormed, Bool.and_eq_true, rowsFit_iff] at h
    obtain ⟨hblocks, hrows, hall, -⟩ := h
    have hcount := toNat_len16 (lt_of_countFits hblocks)
    have hread := readRows_flatten rows [] hall
    rw [List.append_nil] at hread
    have hdrop : (encode (.eceEncode k n blen blocks rows)).drop (12 + 2 * blocks.length) =
        rows.flatten := List.drop_left' (by simp [headM]; omega)
    simp only [encode, headM, List.append_assoc] at hdrop
    simp [Instr.opcode, decodeFields, encode, headM, kField, nField, headM_fields, cntField,
      rowsField, blenField, hcount, toNat_len16 hrows, readList16_flatMap, hdrop, hread]
  | eceDecode k n blen idx rows =>
    simp only [Instr.wellFormed, Bool.and_eq_true, rowsFit_iff, beq_iff_eq] at h
    obtain ⟨⟨hidx, -, hall, -⟩, hsame⟩ := h
    have hcount := toNat_len16 (lt_of_countFits hidx)
    have hread := readRows_flatten rows [] hall
    rw [List.append_nil, ← hsame] at hread
    have hdrop : (encode (.eceDecode k n blen idx rows)).drop (8 + 2 * idx.length) =
        rows.flatten := List.drop_left' (by simp [headM]; omega)
    simp only [encode, headM, List.append_assoc] at hdrop
    simp [Instr.opcode, decodeFields, encode, headM, kField, nField, headM_fields, cntField,
      blenField, hcount, readList16_flatMap, hdrop, hread]

/-- Settles O55: the encoding is one whole command, and its fields are the command's. -/
theorem encodedCommandDecodes : Obligations.EncodedCommandDecodes := by
  intro maxLen i rest ended h
  exact frame_eq_command_iff.mpr ⟨_, _, isCommand_encode h, (decodeFields_encode h).symm, rfl⟩


/-! ## The fields of a word and the word

A field that must have one value (the opcode, the reserved bits) and the fields that are read make up
the whole word, so a word is its fields put together again. -/

theorem be32_eq_append (B : Bytes) (i : Nat) : be32 B i = be16 B i ++ be16 B (i + 2) :=
  BitVec.append_assoc ..

theorem extract_low_be32 (B : Bytes) (i : Nat) :
    (be32 B i).extractLsb' 0 16 = be16 B (i + 2) := by rw [be32_eq_append, low_half]

theorem extract_high_be32 (B : Bytes) (i : Nat) :
    (be32 B i).extractLsb' 16 16 = be16 B i := by rw [be32_eq_append, high_half]

/-- A word whose low half is reserved. -/
theorem be32_of_low_reserved {B : Bytes} {i : Nat} (hres : (be32 B i).extractLsb' 0 16 = 0#16) :
    be16 B i ++ 0#16 = be32 B i := by
  rw [be32_eq_append, ← extract_low_be32, hres]

/-- A word whose high half is reserved. -/
theorem be32_of_high_reserved {B : Bytes} {i : Nat} (hres : (be32 B i).extractLsb' 16 16 = 0#16) :
    0#16 ++ be16 B (i + 2) = be32 B i := by
  rw [be32_eq_append, ← hres, extract_high_be32]

theorem ofBool_getLsbD {w : Nat} (x : BitVec w) (i : Nat) :
    BitVec.ofBool (x.getLsbD i) = x.extractLsb' i 1 := by
  ext j hj
  obtain rfl : j = 0 := by omega
  simp

section
variable {w : BitVec 32} {c : Byte} (hc : w.extractLsb' 24 8 = c)
include hc

theorem headZ_word (hres : w.extractLsb' 0 24 = 0#24) : c ++ 0#24 = w := by
  rw [← hc, ← hres,
    BitVec.extractLsb'_append_extractLsb'_eq_extractLsb' (show 24 = 0 + 24 from rfl)]
  exact BitVec.extractLsb'_eq_self

theorem headR_word (hres : w.extractLsb' 8 16 = 0#16) : c ++ 0#16 ++ w.extractLsb' 0 8 = w := by
  rw [← hc, ← hres,
    BitVec.extractLsb'_append_extractLsb'_eq_extractLsb' (show 24 = 8 + 16 from rfl),
    BitVec.extractLsb'_append_extractLsb'_eq_extractLsb' (show 8 = 0 + 8 from rfl)]
  exact BitVec.extractLsb'_eq_self

theorem headM_word (hres : w.extractLsb' 18 6 = 0#6) :
    c ++ 0#6 ++ w.extractLsb' 9 9 ++ w.extractLsb' 0 9 = w := by
  rw [← hc, ← hres,
    BitVec.extractLsb'_append_extractLsb'_eq_extractLsb' (show 24 = 18 + 6 from rfl),
    BitVec.extractLsb'_append_extractLsb'_eq_extractLsb' (show 18 = 9 + 9 from rfl),
    BitVec.extractLsb'_append_extractLsb'_eq_extractLsb' (show 9 = 0 + 9 from rfl)]
  exact BitVec.extractLsb'_eq_self

/-- Headers of formats P and G, and word 2 of format G: two bytes and a 16-bit field. -/
theorem headP_word {b : Byte} (hb : w.extractLsb' 16 8 = b) :
    c ++ b ++ w.extractLsb' 0 16 = w := by
  rw [← hc, ← hb,
    BitVec.extractLsb'_append_extractLsb'_eq_extractLsb' (show 24 = 16 + 8 from rfl),
    BitVec.extractLsb'_append_extractLsb'_eq_extractLsb' (show 16 = 0 + 16 from rfl)]
  exact BitVec.extractLsb'_eq_self

/-- Headers of formats A and H: `m` in bit 23 and seven bits below it. -/
theorem headA_word {b : BitVec 7} (hb : w.extractLsb' 16 7 = b) :
    c ++ BitVec.ofBool (w.getLsbD 23) ++ b ++ w.extractLsb' 0 16 = w := by
  rw [← hc, ← hb, ofBool_getLsbD,
    BitVec.extractLsb'_append_extractLsb'_eq_extractLsb' (show 24 = 23 + 1 from rfl),
    BitVec.extractLsb'_append_extractLsb'_eq_extractLsb' (show 23 = 16 + 7 from rfl),
    BitVec.extractLsb'_append_extractLsb'_eq_extractLsb' (show 16 = 0 + 16 from rfl)]
  exact BitVec.extractLsb'_eq_self

end

/-- Word 4 of format A. -/
theorem wordA_word {w : BitVec 32} (hres : w.extractLsb' 16 8 = 0#8) :
    w.extractLsb' 30 2 ++ BitVec.ofBool (w.getLsbD 29) ++ BitVec.ofBool (w.getLsbD 28) ++
      w.extractLsb' 24 4 ++ 0#8 ++ w.extractLsb' 0 16 = w := by
  rw [← hres, ofBool_getLsbD, ofBool_getLsbD,
    BitVec.extractLsb'_append_extractLsb'_eq_extractLsb' (show 30 = 29 + 1 from rfl),
    BitVec.extractLsb'_append_extractLsb'_eq_extractLsb' (show 29 = 28 + 1 from rfl),
    BitVec.extractLsb'_append_extractLsb'_eq_extractLsb' (show 28 = 24 + 4 from rfl),
    BitVec.extractLsb'_append_extractLsb'_eq_extractLsb' (show 24 = 16 + 8 from rfl),
    BitVec.extractLsb'_append_extractLsb'_eq_extractLsb' (show 16 = 0 + 16 from rfl)]
  exact BitVec.extractLsb'_eq_self

/-! ## The parts of a byte string and the byte string -/

theorem take_append_word {C : Bytes} {i : Nat} (h : i + 4 ≤ C.length) :
    C.take i ++ toBe32 (be32 C i) = C.take (i + 4) := by
  have hw := toBe32_be32 (B := C.drop i) (by rw [List.length_drop]; omega)
  rw [be32_drop, Nat.add_zero] at hw
  rw [List.take_add, ← hw]
  rfl

theorem toBe32_be32_zero {C : Bytes} (h : 4 ≤ C.length) : toBe32 (be32 C 0) = C.take 4 :=
  take_append_word (i := 0) h

theorem take_append_list16 {C : Bytes} {m cnt : Nat} (h : m + 2 * cnt ≤ C.length) :
    C.take m ++ (readList16 cnt (C.drop m)).flatMap toBe16 = C.take (m + 2 * cnt) := by
  rw [flatMap_readList16 (by rw [List.length_drop]; omega), ← List.take_add]

theorem take_append_rows {C : Bytes} {m rows blen : Nat} (h : m + rows * blen ≤ C.length) :
    C.take m ++ (readRows rows blen (C.drop m)).flatten = C.take (m + rows * blen) := by
  rw [flatten_readRows (by rw [List.length_drop]; omega), ← List.take_add]

theorem len16_eq {α : Type} {l : List α} {v : BitVec 16} (h : l.length = v.toNat) :
    len16 l = v := by rw [len16, h, BitVec.ofNat_toNat, BitVec.setWidth_eq]

theorem len16_readList16 (v : BitVec 16) (B : Bytes) : len16 (readList16 v.toNat B) = v :=
  len16_eq (length_readList16 _ _)

theorem len16_readRows (v : BitVec 16) (blen : Nat) (B : Bytes) :
    len16 (readRows v.toNat blen B) = v := len16_eq (length_readRows _ _ _)

theorem len16_drop {C : Bytes} {m : Nat} {v : BitVec 16} (h : C.length = m + v.toNat) :
    len16 (C.drop m) = v := len16_eq (by rw [List.length_drop]; omega)

/-! ## The bytes of a command that decodes -/

section
variable {maxLen : Nat} {op : Opcode} {C : Bytes}

theorem IsCommand.opcode_word (h : IsCommand maxLen op C) :
    (be32 C 0).extractLsb' 24 8 = op.code :=
  (extract_append4 _ _ _ _).1.trans h.opcode

theorem IsCommand.headZ_eq (h : IsCommand maxLen op C)
    (hres : (be32 C 0).extractLsb' 0 24 = 0#24) : headZ op = toBe32 (be32 C 0) := by
  rw [headZ, headZ_word h.opcode_word hres]

theorem IsCommand.headR_eq (h : IsCommand maxLen op C)
    (hres : (be32 C 0).extractLsb' 8 16 = 0#16) :
    headR op ((be32 C 0).extractLsb' 0 8) = toBe32 (be32 C 0) := by
  rw [headR, headR_word h.opcode_word hres]

theorem IsCommand.headM_eq (h : IsCommand maxLen op C)
    (hres : (be32 C 0).extractLsb' 18 6 = 0#6) :
    headM op (kField C) (nField C) = toBe32 (be32 C 0) := by
  rw [headM, kField, nField, headM_word h.opcode_word hres]

/-- A command of format Z is its header word. -/
theorem IsCommand.headZ_eq_self (h : IsCommand maxLen op C) (hf : op.format = .Z) :
    headZ op = C := by
  have hlen := h.length
  have hres := h.reserved
  simp only [Opcode.commandBytes, hf, Format.headBytes, Format.bodyBytes] at hlen
  rw [hf] at hres
  rw [h.headZ_eq (eq_of_beq hres), toBe32_be32_zero (by omega), List.take_of_length_le (by omega)]

end

/-- One whole command is the encoding of the fields it shows. -/
theorem encode_decodeFields {maxLen : Nat} {op : Opcode} {C : Bytes} (h : IsCommand maxLen op C) :
    encode (decodeFields C op) = C := by
  cases op with
  | gfInit | robTimer | robRestart | sysTeardown | sysReset => exact h.headZ_eq_self rfl
  | eceNewmatrix =>
    have hlen : C.length = 4 := h.length
    rw [decodeFields, encode, h.headM_eq (eq_of_beq h.reserved), toBe32_be32_zero (by omega),
      List.take_of_length_le (by omega)]
  | csrRd =>
    have hlen : C.length = 4 := h.length
    rw [decodeFields, encode, h.headR_eq (eq_of_beq h.reserved), toBe32_be32_zero (by omega),
      List.take_of_length_le (by omega)]
  | csrWr =>
    have hlen : C.length = 8 := h.length
    rw [decodeFields, encode, h.headR_eq (eq_of_beq h.reserved), toBe32_be32_zero (by omega),
      take_append_word (by omega), List.take_of_length_le (by omega)]
  | grpExpire =>
    have hlen : C.length = 8 := h.length
    rw [decodeFields, encode, h.headZ_eq (eq_of_beq h.reserved), toBe32_be32_zero (by omega),
      take_append_word (by omega), List.take_of_length_le (by omega)]
  | rtpParse =>
    have hlen : C.length = 4 + (be16 C 2).toNat := h.length
    have hhead := headP_word h.opcode_word (b := 0#8) (eq_of_beq h.reserved)
    rw [extract_low_be32] at hhead
    rw [decodeFields, encode, len16_drop hlen, hhead, toBe32_be32_zero (by omega),
      List.take_append_drop]
  | robAccept =>
    have hlen : C.length = 20 + (be16 C 18).toNat := h.length
    have hhead := headA_word h.opcode_word (w := be32 C 0) rfl
    have hword := wordA_word (w := be32 C 16) (eq_of_beq h.reserved)
    rw [extract_low_be32] at hword
    simp only [decodeFields, encode, packetFields, len16_drop hlen, hhead, hword]
    rw [toBe32_be32_zero (by omega), take_append_word (by omega), take_append_word (by omega),
      take_append_word (by omega), take_append_word (by omega), List.take_append_drop]
  | grpAdd =>
    have hlen : C.length = 12 + (be16 C 10).toNat := h.length
    have hhead := headP_word h.opcode_word (b := 0#8) (eq_of_beq h.reserved)
    have hword := headP_word (w := be32 C 8) rfl rfl
    rw [extract_low_be32] at hword
    rw [decodeFields, encode, len16_drop hlen, hhead, hword, toBe32_be32_zero (by omega),
      take_append_word (by omega), take_append_word (by omega), List.take_append_drop]
  | depPacket =>
    have hlen : C.length = 12 + (be16 C 10).toNat := h.length
    obtain ⟨hres, hresWord⟩ := Bool.and_eq_true_iff.mp h.reserved
    have hhead := headA_word h.opcode_word (b := 0#7) (eq_of_beq hres)
    have hword : 0#16 ++ be16 C 10 = be32 C 8 := be32_of_high_reserved (eq_of_beq hresWord)
    rw [decodeFields, encode, len16_drop hlen, hhead, hword, toBe32_be32_zero (by omega),
      take_append_word (by omega), take_append_word (by omega), List.take_append_drop]
  | eceBuilddec =>
    have hlen : C.length = 8 + 2 * cntField C := h.length
    obtain ⟨hres, hresWord⟩ := Bool.and_eq_true_iff.mp h.reserved
    have hword : be16 C 4 ++ 0#16 = be32 C 4 := be32_of_low_reserved (eq_of_beq hresWord)
    have hlist : len16 (readList16 (cntField C) (C.drop 8)) = be16 C 4 := len16_readList16 _ _
    rw [decodeFields, encode, h.headM_eq (eq_of_beq hres), hlist, hword,
      toBe32_be32_zero (by omega), take_append_word (by omega), take_append_list16 hlen.ge,
      List.take_of_length_le hlen.le]
  | eceEncode =>
    have hlen : C.length = 12 + (2 * cntField C + rowsField C * blenField C) := h.length
    obtain ⟨hres, hresWord⟩ := Bool.and_eq_true_iff.mp h.reserved
    have hword : be16 C 8 ++ 0#16 = be32 C 8 := be32_of_low_reserved (eq_of_beq hresWord)
    rw [← Nat.add_assoc] at hlen
    have hlist : len16 (readList16 (cntField C) (C.drop 12)) = be16 C 4 := len16_readList16 _ _
    have hrows (D : Bytes) : len16 (readRows (rowsField C) (blenField C) D) = be16 C 8 :=
      len16_readRows _ _ _
    rw [decodeFields, encode, h.headM_eq (eq_of_beq hres), hlist, hrows, ← be32_eq_append C 4, hword,
      toBe32_be32_zero (by omega), take_append_word (by omega), take_append_word (by omega),
      take_append_list16 (by omega), take_append_rows hlen.ge, List.take_of_length_le hlen.le]
  | eceDecode =>
    have hlen : C.length = 8 + (2 * cntField C + cntField C * blenField C) := h.length
    rw [← Nat.add_assoc] at hlen
    have hlist : len16 (readList16 (cntField C) (C.drop 8)) = be16 C 4 := len16_readList16 _ _
    rw [decodeFields, encode, h.headM_eq (eq_of_beq h.reserved), hlist, ← be32_eq_append C 4,
      toBe32_be32_zero (by omega), take_append_word (by omega), take_append_list16 (by omega),
      take_append_rows hlen.ge, List.take_of_length_le hlen.le]

theorem countFits_readList16 (v : BitVec 16) (B : Bytes) :
    countFits (readList16 v.toNat B) = true := by
  simpa [countFits] using v.isLt

theorem lengthFits_drop {maxLen m : Nat} {C : Bytes} {v : BitVec 16} (hlen : C.length = m + v.toNat)
    (hfits : ¬maxLen < v.toNat) : lengthFits maxLen (C.drop m) = true := by
  have := v.isLt
  rw [lengthFits_iff, List.length_drop]
  omega

theorem rowsFit_readRows {maxLen m : Nat} {C : Bytes} {rows blen : BitVec 16}
    (hlen : C.length = m + rows.toNat * blen.toNat) (hfits : ¬maxLen < blen.toNat) :
    rowsFit maxLen blen (readRows rows.toNat blen.toNat (C.drop m)) = true := by
  rw [rowsFit_iff, length_readRows]
  exact ⟨rows.isLt, fun r hr => length_of_mem_readRows (by rw [List.length_drop]; omega) hr,
    Nat.not_lt.mp hfits⟩

/-- Its fields are those of a well-formed command: a count field counts the list that it frames, and
the length fields have passed the test of R98 (b). -/
theorem wellFormed_decodeFields {maxLen : Nat} {op : Opcode} {C : Bytes}
    (h : IsCommand maxLen op C) : (decodeFields C op).wellFormed maxLen = true := by
  cases op with
  | gfInit | eceNewmatrix | robTimer | robRestart | grpExpire | csrRd | csrWr | sysTeardown
  | sysReset => rfl
  | eceBuilddec => exact countFits_readList16 _ _
  | rtpParse => exact lengthFits_drop (v := be16 C 2) h.length (of_decide_eq_false h.fits)
  | robAccept => exact lengthFits_drop (v := be16 C 18) h.length (of_decide_eq_false h.fits)
  | grpAdd => exact lengthFits_drop (v := be16 C 10) h.length (of_decide_eq_false h.fits)
  | depPacket => exact lengthFits_drop (v := be16 C 10) h.length (of_decide_eq_false h.fits)
  | eceEncode =>
    have hrows := rowsFit_readRows (rows := be16 C 8) (blen := be16 C 6)
      (h.length.trans (Nat.add_assoc ..).symm) (of_decide_eq_false h.fits)
    exact Bool.and_eq_true_iff.mpr ⟨countFits_readList16 _ _, hrows⟩
  | eceDecode =>
    have hrows := rowsFit_readRows (rows := be16 C 4) (blen := be16 C 6)
      (h.length.trans (Nat.add_assoc ..).symm) (of_decide_eq_false h.fits)
    have hsame : ((readList16 (cntField C) (C.drop 8)).length ==
        (readRows (cntField C) (blenField C) (C.drop (8 + 2 * cntField C))).length) = true := by
      simp
    exact Bool.and_eq_true_iff.mpr
      ⟨Bool.and_eq_true_iff.mpr ⟨countFits_readList16 _ _, hrows⟩, hsame⟩

/-- Settles O56: the port has read one whole command, which is the encoding of its fields. -/
theorem decodedBytesAreTheEncoding : Obligations.DecodedBytesAreTheEncoding := by
  intro maxLen B ended i rest h
  obtain ⟨op, C, hC, rfl, rfl⟩ := frame_eq_command_iff.mp h
  exact ⟨wellFormed_decodeFields hC, by rw [encode_decodeFields hC]⟩

end Sys2Proof
end

section
/-! PROOFS. The step at the port (spec/10_state.md R21; spec/30_encoding.md R81, R98) and the binary form
of the records of fixed length (R99). -/

namespace Sys2Proof.Machine

/-! ## What the port holds, and the step -/

theorem stepWith_of_command {P : Params} {s : State} {i : Instr} {rest : Bytes}
    (h : frame P.maxLen s.port s.portEnd = .command i rest) :
    stepWith P s = execWith P i (consume rest s) := by
  rw [stepWith, h]

theorem stepWith_of_reject {P : Params} {s : State} {op : Byte} {why : FrameError} {rest : Bytes}
    (h : frame P.maxLen s.port s.portEnd = .reject op why rest) :
    stepWith P s = .next ((consume rest s).ended op [] (frameStatus why)) := by
  rw [stepWith, h]
  simp only [portReject, reject_eq_finish, finish_eq_ended]

/-- Only GF, ECE and GRP commands read the parameters (R9). -/
theorem execWith_eq_exec (P : Params) {i : Instr} (s : State)
    (h : i.opcode ∉
      [.gfInit, .eceNewmatrix, .eceEncode, .eceBuilddec, .eceDecode, .grpAdd, .grpExpire]) :
    execWith P i s = exec i s := by
  cases i with
  | gfInit | eceNewmatrix | eceEncode | eceBuilddec | eceDecode | grpAdd | grpExpire =>
    simp [Instr.opcode] at h
  | rtpParse | robAccept | robTimer | robRestart | depPacket | csrRd | csrWr | sysTeardown
  | sysReset => rfl

/-- Settles O53: `step` is the parametric step, which runs the command that was framed. -/
theorem stepRunsTheCommand : Obligations.StepRunsTheCommand := by
  refine ⟨fun s i rest h => ?_, fun P s i rest h => stepWith_of_command h, step_eq_stepWith,
    exec_eq_execWith, fun P i s h => execWith_eq_exec P s h⟩
  rw [step_eq_stepWith, exec_eq_execWith]
  exact stepWith_of_command h

/-- Settles O54: the port at fewer than four bytes, at an unassigned opcode, and at an assigned one. -/
theorem framingErrorsAreRejected : Obligations.FramingErrorsAreRejected := by
  refine ⟨?_, ?_⟩
  · rintro maxLen B tail b0 rfl
    refine ⟨fun hlen => frame_of_length_lt_four hlen,
      fun hlen hb ended => frame_unassigned hlen hb, ?_⟩
    rintro op rfl
    have hframe (ended : Bool) := frame_assigned maxLen op ended (List.cons_ne_nil op.code tail) rfl
    refine ⟨fun hcut => ?_, fun hlen ended => ⟨fun hres => ?_, fun hres hlong => ?_⟩⟩
    · rw [hframe, if_pos hcut]; rfl
    · rw [hframe, if_neg (Nat.not_lt.mpr hlen), if_pos hres]
    · rw [hframe, if_neg (Nat.not_lt.mpr hlen), hres, hlong]; rfl
  · intro P s t b0 why rest h ht
    have hend : t = (consume rest s).ended b0 [] (frameStatus why) := by
      rw [ht]; cases why <;> rfl
    have hstep : stepWith P s = .next t := by rw [stepWith_of_reject h, hend]
    refine ⟨hstep, ?_⟩
    rintro rfl
    rwa [step_eq_stepWith]

/-- Settles O57: each sample is the encoding of its command (O55), written out. -/
theorem sampleWordsDecode : Obligations.SampleWordsDecode :=
  ⟨encodedCommandDecodes _ .gfInit [] _ rfl,
    encodedCommandDecodes _ (.eceNewmatrix 2 4) [] _ rfl,
    encodedCommandDecodes _ (.rtpParse [0xAB, 0xCD]) [] _ rfl,
    encodedCommandDecodes _ (.grpExpire 9) [] _ rfl,
    encodedCommandDecodes _ (.csrWr 3 2) [] _ rfl,
    encodedCommandDecodes _ .sysReset [0x21] _ rfl⟩

/-! ## The binary form of a record -/

theorem toBe16_eq (a : BitVec 16) :
    toBe16 a = [BitVec.ofNat 8 (a.toNat / 256), BitVec.ofNat 8 a.toNat] := by
  simp [toBe16, BitVec.extractLsb', Nat.shiftRight_eq_div_pow]

theorem toBe32_eq (a : W32) : toBe32 a =
    [BitVec.ofNat 8 (a.toNat / 2 ^ 24), BitVec.ofNat 8 (a.toNat / 2 ^ 16),
     BitVec.ofNat 8 (a.toNat / 2 ^ 8), BitVec.ofNat 8 a.toNat] := by
  simp [toBe32, BitVec.extractLsb', Nat.shiftRight_eq_div_pow]

/-- The header word of a record (R99). -/
theorem toBe32_kind (kind : Byte) : toBe32 (kind ++ 0#24) = [kind, 0, 0, 0] := by
  rw [toBe32, BitVec.extractLsb'_append_eq_of_le (by decide),
    BitVec.extractLsb'_append_eq_of_add_le (by decide),
    BitVec.extractLsb'_append_eq_of_add_le (by decide),
    BitVec.extractLsb'_append_eq_of_add_le (by decide)]
  exact congrArg (· :: _) BitVec.extractLsb'_eq_self

/-- A length word below 256 (R99). -/
theorem toBe32_lenField {n : Nat} (hn : n < 256) :
    toBe32 (lenField 32 n) = [0, 0, 0, BitVec.ofNat 8 n] := by
  have hword : (lenField 32 n).toNat = n := by
    rw [lenField, if_pos (by omega), BitVec.toNat_ofNat, Nat.mod_eq_of_lt (by omega)]
  rw [toBe32_eq, hword, Nat.div_eq_of_lt (by omega), Nat.div_eq_of_lt (by omega),
    Nat.div_eq_of_lt (by omega)]
  rfl

/-- A record whose body is known to be short: the kind, its zero bytes, the length, the body (R99). -/
theorem Record.encode_of_length {r : Record} {n : Nat} (h : r.body.length = n) (hn : n < 256) :
    r.encode = [r.kind, 0, 0, 0, 0, 0, 0, BitVec.ofNat 8 n] ++ r.body := by
  rw [Record.encode, toBe32_kind, h, toBe32_lenField hn]
  rfl

/-- The table of R300 gives each status its code. -/
theorem code_of_mem_statusNumbers {e : Status × BitVec 8} (h : e ∈ statusNumbers) :
    e.1.code = e.2 := by
  revert e
  decide

theorem mem_statusNumbers (st : Status) : (st, st.code) ∈ statusNumbers := by
  cases st <;> decide

/-- A concatenation of bit strings as a number. -/
theorem toNat_append_add {m n : Nat} (a : BitVec m) (b : BitVec n) :
    (a ++ b).toNat = a.toNat * 2 ^ n + b.toNat := by
  rw [BitVec.toNat_append, ← Nat.shiftLeft_add_eq_or_of_lt b.isLt, Nat.shiftLeft_eq]

/-- The flag bytes of R99 as numbers. -/
theorem flagBytes_eq (v : BitVec 2) (p x : Bool) (cc : BitVec 4) (m : Bool) (pt : BitVec 7) :
    flagBytes v p x cc m pt =
      [BitVec.ofNat 8 (64 * v.toNat + 32 * p.toNat + 16 * x.toNat + cc.toNat),
       BitVec.ofNat 8 (128 * m.toNat + pt.toNat)] := by
  have hv := v.isLt
  have hcc := cc.isLt
  have hpt := pt.isLt
  have hp := p.toNat_le
  have hx := x.toNat_le
  have hm := m.toNat_le
  refine congrArg₂ (fun a b => [a, b]) (BitVec.eq_of_toNat_eq ?_) (BitVec.eq_of_toNat_eq ?_)
  · simp only [toNat_append_add, BitVec.toNat_ofBool, BitVec.toNat_ofNat]
    omega
  · simp only [toNat_append_add, BitVec.toNat_ofBool, BitVec.toNat_ofNat]
    omega

/-- Settles O60: every body has a known length, and the codes are the numbers of the tables. -/
theorem fixedRecordsBinaryForm : Obligations.FixedRecordsBinaryForm := by
  refine ⟨toBe16_eq, toBe32_eq, fun st => ⟨_, mem_statusNumbers st⟩, fun e he op => ?_, fun h => ?_,
    fun a b => ⟨?_, ?_⟩, fun gid k n received tag htag cause hcause why hwhy => ?_, fun a b c => ?_,
    fun reg v => ?_⟩
  · rw [← code_of_mem_statusNumbers he]
    refine ⟨?_, ?_, ?_, ?_, ?_⟩ <;> exact Record.encode_of_length rfl (by decide)
  · rw [Record.encode_of_length (n := 16) rfl (by decide), Record.body, flagBytes_eq]
    rfl
  · exact Record.encode_of_length rfl (by decide)
  · exact Record.encode_of_length rfl (by decide)
  · have htagCode : tag.1.code = tag.2 := by revert tag; decide
    have hcauseCode : cause.1.code = cause.2 := by revert cause; decide
    rw [← htagCode, ← hcauseCode, ← code_of_mem_statusNumbers hwhy]
    exact Record.encode_of_length rfl (by decide)
  · exact Record.encode_of_length rfl (by decide)
  · exact Record.encode_of_length rfl (by decide)

end Sys2Proof.Machine
end

section
/-! PROOFS. GF(2^8) (spec/40_gf_arithmetic.md R120 to R132): `gmul` is the sum of the shifts of its first
argument, so it is bilinear and its laws are those of powers of `x`; the powers of `GF_ALPHA` are all the
nonzero bytes, which gives the inverses. -/

namespace Sys2Proof.Machine

variable {F : GfField} {a b : Byte}

/-! ## Sums of bytes -/

@[simp] theorem gsum_nil : gsum [] = 0 := rfl

@[simp] theorem gsum_cons (x : Byte) (l : List Byte) : gsum (x :: l) = x ^^^ gsum l := rfl

theorem gsum_append (l m : List Byte) : gsum (l ++ m) = gsum l ^^^ gsum m := by
  induction l with
  | nil => simp
  | cons x l ih => simp [ih, BitVec.xor_assoc]

theorem gsum_map_xor {α : Type} (f g : α → Byte) (l : List α) :
    gsum (l.map fun i => f i ^^^ g i) = gsum (l.map f) ^^^ gsum (l.map g) := by
  induction l with
  | nil => simp
  | cons i l ih => simp only [List.map_cons, gsum_cons, ih]; ac_rfl

/-- A sum with one term that is not zero. -/
theorem gsum_range_ite_eq {n j : Nat} (f : Nat → Byte) :
    gsum ((List.range n).map fun i => if j = i then f i else 0) = if j < n then f j else 0 := by
  induction n with
  | zero => rfl
  | succ n ih =>
    rw [List.range_succ, List.map_append, gsum_append, ih]
    rcases lt_trichotomy j n with h | rfl | h
    · simp [h, h.ne, h.trans n.lt_succ_self]
    · simp
    · simp [h.ne', Nat.not_lt.mpr h.le, Nat.not_lt.mpr (Nat.succ_le_of_lt h)]

/-- A byte is the sum of the powers of `x` at its set bits (R120). -/
theorem gsum_twoPow (a : Byte) :
    gsum ((List.range 8).map fun i => if a.getLsbD i then BitVec.twoPow 8 i else 0) = a := by
  revert a
  decide +kernel

/-- What holds of the powers of `x` below degree 8 and of sums holds of every byte. -/
theorem byte_induction {p : Byte → Prop} (hpow : ∀ i, i < 8 → p (BitVec.twoPow 8 i))
    (hxor : ∀ a b, p a → p b → p (a ^^^ b)) (a : Byte) : p a := by
  have hzero : p 0 := by simpa using hxor _ _ (hpow 0 (by omega)) (hpow 0 (by omega))
  have hsum (l : List Byte) (hl : ∀ x ∈ l, p x) : p (gsum l) := by
    induction l with
    | nil => exact hzero
    | cons x l ih => exact hxor _ _ (hl x (by simp)) (ih fun y hy => hl y (by simp [hy]))
  rw [← gsum_twoPow a]
  refine hsum _ fun x hx => ?_
  obtain ⟨i, hi, rfl⟩ := List.mem_map.mp hx
  split
  · exact hpow i (List.mem_range.mp hi)
  · exact hzero

/-! ## Multiplication by `x` -/

/-- A term taken where a sum of two bits is set. -/
theorem ite_xor_eq_xor {α : Type} [XorOp α] [Zero α] [LawfulXor α] (p q : Bool) (x : α) :
    (if (p ^^ q) = true then x else 0) = (if p then x else 0) ^^^ (if q then x else 0) := by
  cases p <;> cases q <;> simp

theorem xtime_eq_xor (F : GfField) (a : Byte) :
    xtime F a = a <<< 1 ^^^ if a.getLsbD 7 then F.poly.setWidth 8 else 0 := by
  unfold xtime
  split
  · rfl
  · exact BitVec.xor_zero.symm

theorem xtime_xor (F : GfField) (a b : Byte) : xtime F (a ^^^ b) = xtime F a ^^^ xtime F b := by
  simp only [xtime_eq_xor, BitVec.shiftLeft_xor_distrib, BitVec.getLsbD_xor, ite_xor_eq_xor]
  ac_rfl

theorem iterate_xtime_xor (F : GfField) (i : Nat) (a b : Byte) :
    (xtime F)^[i] (a ^^^ b) = (xtime F)^[i] a ^^^ (xtime F)^[i] b := by
  induction i generalizing a b with
  | zero => rfl
  | succ i ih => simp only [Function.iterate_succ_apply, xtime_xor, ih]

/-- Below degree 8 nothing is reduced. -/
theorem iterate_xtime_one (F : GfField) {i : Nat} (hi : i < 8) :
    (xtime F)^[i] 0x01 = BitVec.twoPow 8 i := by
  induction i with
  | zero => rfl
  | succ i ih =>
    have hbit : (BitVec.twoPow 8 i).getLsbD 7 = false := by simp; omega
    rw [Function.iterate_succ_apply', ih (by omega), xtime, hbit]
    simp [BitVec.twoPow_eq, BitVec.shiftLeft_add]

/-! ## The product -/

/-- The loop of R124 after `n` rounds. -/
theorem foldl_gmulStep (F : GfField) (a b : Byte) (n : Nat) :
    (List.range n).foldl (gmulStep F b) (0, a) =
      (gsum ((List.range n).map fun i => if b.getLsbD i then (xtime F)^[i] a else 0),
        (xtime F)^[n] a) := by
  induction n with
  | zero => rfl
  | succ n ih =>
    rw [List.range_succ, List.foldl_append, ih, List.map_append, gsum_append,
      Function.iterate_succ_apply']
    cases hb : b.getLsbD n <;> simp [gmulStep, hb]

/-- The product is the sum of the shifts of `a` at the set bits of `b` (R124). -/
theorem gmul_eq_gsum (F : GfField) (a b : Byte) : gmul F a b =
    gsum ((List.range 8).map fun i => if b.getLsbD i then (xtime F)^[i] a else 0) := by
  rw [gmul, foldl_gmulStep]

/-- The product distributes over sums (R127). -/
theorem gmul_xor (F : GfField) (a b c : Byte) : gmul F a (b ^^^ c) = gmul F a b ^^^ gmul F a c := by
  simp only [gmul_eq_gsum, ← gsum_map_xor]
  congr 2 with i
  rw [BitVec.getLsbD_xor, ite_xor_eq_xor]

theorem xor_gmul (F : GfField) (a b c : Byte) : gmul F (a ^^^ b) c = gmul F a c ^^^ gmul F b c := by
  simp only [gmul_eq_gsum, ← gsum_map_xor]
  congr 2 with i
  rw [iterate_xtime_xor]
  cases c.getLsbD i <;> simp

/-- A product with a power of `x` is a shift. -/
theorem gmul_twoPow (F : GfField) (a : Byte) {i : Nat} (hi : i < 8) :
    gmul F a (BitVec.twoPow 8 i) = (xtime F)^[i] a := by
  have hterm (j : Nat) : (if (BitVec.twoPow 8 i).getLsbD j then (xtime F)^[j] a else 0) =
      if i = j then (xtime F)^[j] a else 0 := by simp [BitVec.getLsbD_twoPow, hi]
  simp only [gmul_eq_gsum, hterm, gsum_range_ite_eq, if_pos hi]

theorem gmul_comm (F : GfField) (a b : Byte) : gmul F a b = gmul F b a := by
  induction b using byte_induction with
  | hxor b c hb hc => rw [gmul_xor, xor_gmul, hb, hc]
  | hpow i hi =>
    induction a using byte_induction with
    | hxor a c ha hc => rw [gmul_xor, xor_gmul, ha, hc]
    | hpow j hj =>
      rw [gmul_twoPow F _ hi, gmul_twoPow F _ hj, ← iterate_xtime_one F hi, ← iterate_xtime_one F hj,
        ← Function.iterate_add_apply, ← Function.iterate_add_apply, Nat.add_comm]

theorem iterate_xtime_gmul (F : GfField) (i : Nat) (a b : Byte) :
    gmul F ((xtime F)^[i] a) b = (xtime F)^[i] (gmul F a b) := by
  induction b using byte_induction with
  | hxor b c hb hc => rw [gmul_xor, gmul_xor, hb, hc, iterate_xtime_xor]
  | hpow j hj =>
    rw [gmul_twoPow F _ hj, gmul_twoPow F _ hj, ← Function.iterate_add_apply,
      ← Function.iterate_add_apply, Nat.add_comm]

theorem gmul_assoc (F : GfField) (a b c : Byte) :
    gmul F (gmul F a b) c = gmul F a (gmul F b c) := by
  induction c using byte_induction with
  | hxor c d hc hd => simp only [gmul_xor, hc, hd]
  | hpow i hi =>
    rw [gmul_twoPow F _ hi, gmul_twoPow F _ hi, gmul_comm F a ((xtime F)^[i] b), iterate_xtime_gmul,
      gmul_comm F b a]

theorem gmul_one (F : GfField) (a : Byte) : gmul F a 1 = a :=
  gmul_twoPow F a (i := 0) (by omega)

theorem one_gmul (F : GfField) (a : Byte) : gmul F 1 a = a := by rw [gmul_comm, gmul_one]

theorem gmul_zero (F : GfField) (a : Byte) : gmul F a 0 = 0 := by
  simpa using gmul_xor F a 0 0

theorem zero_gmul (F : GfField) (a : Byte) : gmul F 0 a = 0 := by
  rw [gmul_comm, gmul_zero]

/-! ## Powers of `GF_ALPHA`, and inverses -/

theorem gpow_add (F : GfField) (a : Byte) (m n : Nat) :
    gpow F a (m + n) = gmul F (gpow F a m) (gpow F a n) := by
  induction m with
  | zero => rw [Nat.zero_add, gpow, one_gmul]
  | succ m ih => rw [Nat.succ_add, gpow, gpow, ih, gmul_assoc]

/-- A power of `GF_ALPHA` and the one that completes it to exponent 255 are inverse (R9). -/
theorem gpow_alpha_mul (h : FieldLegal F) {i : Nat} (hi : i ≤ 255) :
    gmul F (gpow F F.alpha i) (gpow F F.alpha (255 - i)) = 0x01 := by
  rw [← gpow_add, Nat.add_sub_cancel' hi, h.orderOne]

theorem gpow_alpha_ne_zero (h : FieldLegal F) {i : Nat} (hi : i ≤ 255) :
    gpow F F.alpha i ≠ 0 := by
  intro hz
  have := gpow_alpha_mul h hi
  rw [hz, zero_gmul] at this
  exact absurd this (by decide)

/-- The first 255 powers of `GF_ALPHA` are distinct: an equality would give an order below 255. -/
theorem gpow_alpha_inj (h : FieldLegal F) {i j : Nat} (hi : i < 255) (hj : j < 255)
    (heq : gpow F F.alpha i = gpow F F.alpha j) : i = j := by
  have hlt {i j : Nat} (hij : i < j) (hj : j < 255) : gpow F F.alpha i ≠ gpow F F.alpha j := by
    intro heq
    refine h.orderLeast (i + (255 - j)) (by omega) (by omega) ?_
    rw [gpow_add, heq, gpow_alpha_mul h hj.le]
  rcases lt_trichotomy i j with hij | hij | hij
  · exact absurd heq (hlt hij hj)
  · exact hij
  · exact absurd heq.symm (hlt hij hi)

theorem card_byte : Fintype.card Byte = 256 := by
  rw [← FinEnum.card_eq_fintypeCard, FinEnum.card_bitVec]
  norm_num

/-- 255 distinct nonzero powers are all the nonzero bytes (R121). -/
theorem exists_gpow_alpha_eq (h : FieldLegal F) (ha : a ≠ 0) :
    ∃ i, i ≤ 254 ∧ gpow F F.alpha i = a := by
  have hcard : ((Finset.range 255).image (gpow F F.alpha)).card = 255 := by
    rw [Finset.card_image_of_injOn, Finset.card_range]
    intro i hi j hj heq
    exact gpow_alpha_inj h (by simpa using hi) (by simpa using hj) heq
  have hsub : (Finset.range 255).image (gpow F F.alpha) ⊆ Finset.univ.erase 0 := by
    intro x hx
    obtain ⟨i, hi, rfl⟩ := Finset.mem_image.mp hx
    exact Finset.mem_erase.mpr ⟨gpow_alpha_ne_zero h (Finset.mem_range.mp hi).le, Finset.mem_univ _⟩
  have hle : (Finset.univ.erase (0 : Byte)).card ≤
      ((Finset.range 255).image (gpow F F.alpha)).card := by
    rw [hcard, Finset.card_erase_of_mem (Finset.mem_univ _), Finset.card_univ, card_byte]
  have hmem : a ∈ (Finset.range 255).image (gpow F F.alpha) := by
    rw [Finset.eq_of_subset_of_card_le hsub hle]
    exact Finset.mem_erase.mpr ⟨ha, Finset.mem_univ _⟩
  obtain ⟨i, hi, hpow⟩ := Finset.mem_image.mp hmem
  exact ⟨i, Nat.le_of_lt_succ (Finset.mem_range.mp hi), hpow⟩

theorem mem_allBytes (a : Byte) : a ∈ allBytes :=
  List.mem_map.mpr ⟨a.toNat, List.mem_range.mpr a.isLt, by simp⟩

/-- `ginv` finds an inverse of every nonzero byte (R126). -/
theorem gmul_ginv (h : FieldLegal F) (ha : a ≠ 0) : gmul F a (ginv F a) = 0x01 := by
  obtain ⟨i, hi, rfl⟩ := exists_gpow_alpha_eq h ha
  have hfound : (allBytes.find? fun b => gmul F (gpow F F.alpha i) b == 0x01).isSome := by
    rw [List.find?_isSome]
    exact ⟨_, mem_allBytes _, by simpa using gpow_alpha_mul h (by omega : i ≤ 255)⟩
  obtain ⟨b, hb⟩ := Option.isSome_iff_exists.mp hfound
  rw [ginv, if_neg ha, hb]
  simpa using List.find?_some hb

/-- A factor is recovered from the product by the inverse of the other. -/
theorem eq_gmul_gmul_ginv (h : FieldLegal F) (ha : a ≠ 0) (b : Byte) :
    b = gmul F (gmul F a b) (ginv F a) :=
  calc b = gmul F (gmul F a (ginv F a)) b := by rw [gmul_ginv h ha, one_gmul]
    _ = gmul F (gmul F a b) (ginv F a) := by rw [gmul_assoc, gmul_comm F (ginv F a), ← gmul_assoc]

/-- The inverse is unique (R127). -/
theorem eq_ginv_of_gmul_eq_one (h : FieldLegal F) (ha : a ≠ 0) (hab : gmul F a b = 0x01) :
    b = ginv F a := by
  rw [eq_gmul_gmul_ginv h ha b, hab, one_gmul]

theorem eq_zero_or_eq_zero_of_gmul_eq_zero (h : FieldLegal F) (hab : gmul F a b = 0x00) :
    a = 0x00 ∨ b = 0x00 := by
  refine or_iff_not_imp_left.mpr fun ha => ?_
  rw [eq_gmul_gmul_ginv h ha b, hab, zero_gmul]

/-- Settles O4: the laws of R127, one by one. -/
theorem fieldLawsHold : Obligations.FieldLawsHold := by
  intro F h a b c
  exact ⟨BitVec.xor_assoc a b c, BitVec.xor_comm a b, gmul_assoc F a b c, gmul_comm F a b,
    gmul_xor F a b c, BitVec.xor_zero, gmul_one F a, BitVec.xor_self,
    fun ha => ⟨ginv F a, gmul_ginv h ha, fun y => eq_ginv_of_gmul_eq_one h ha⟩,
    eq_zero_or_eq_zero_of_gmul_eq_zero h⟩

end Sys2Proof.Machine
end

section
/-! PROOFS. GF.INIT and what it builds (spec/40_gf_arithmetic.md R120 to R128): the tables entry by entry,
their forms of the product, and the product as a residue modulo `GF_POLY`. -/

namespace Sys2Proof.Machine

variable {F : GfField} {a : Byte}

/-! ## The tables -/

/-- A table over all bytes is read at a byte. -/
theorem allBytes_map_getD {α : Type} (f : Byte → α) (a : Byte) (d : α) :
    (allBytes.map f).getD a.toNat d = f a := by
  simp [allBytes, List.getD_eq_getElem?_getD, a.isLt]

theorem mulTable_getD (F : GfField) (a b : Byte) :
    ((mulTable F).getD a.toNat []).getD b.toNat 0 = gmul F a b := by
  rw [mulTable, allBytes_map_getD, allBytes_map_getD]

theorem expTable_getD (h : FieldLegal F) {i : Nat} (hi : i ≤ 509) :
    (expTable F).getD i 0 = gpow F F.alpha i := by
  rw [expTable, List.getD_eq_getElem _ _ (by simp; omega), List.getElem_map, List.getElem_range]
  split
  · rfl
  · calc gpow F F.alpha (i - 255) = gpow F F.alpha (255 + (i - 255)) := by
          rw [gpow_add, h.orderOne, one_gmul]
      _ = gpow F F.alpha i := by rw [Nat.add_sub_cancel' (by omega)]

/-- `LOG[a]` is the exponent of `a` (R122). -/
theorem logEntry_spec (h : FieldLegal F) (ha : a ≠ 0) :
    (logEntry F a).toNat ≤ 254 ∧ gpow F F.alpha (logEntry F a).toNat = a := by
  obtain ⟨i, hi, hpow⟩ := exists_gpow_alpha_eq h ha
  have hfound : ((List.range 255).find? fun i => gpow F F.alpha i == a).isSome := by
    rw [List.find?_isSome]
    exact ⟨i, List.mem_range.mpr (by omega), by simpa using hpow⟩
  obtain ⟨j, hj⟩ := Option.isSome_iff_exists.mp hfound
  have hlt : j < 255 := List.mem_range.mp (List.mem_of_find?_eq_some hj)
  have hentry : (logEntry F a).toNat = j := by
    rw [logEntry, if_neg ha, hj, Option.elim_some, BitVec.toNat_ofNat, Nat.mod_eq_of_lt (by omega)]
  rw [hentry]
  exact ⟨by omega, by simpa using List.find?_some hj⟩

/-- Settles O2: each table entry by entry. -/
theorem tablesHoldFieldValues : Obligations.TablesHoldFieldValues := by
  intro F h
  simp only [expOf, logOf, invOf, mulOf]
  have hexp {i : Nat} (hi : i ≤ 509) := expTable_getD h hi
  refine ⟨⟨by simp [expTable], fun i hi => hexp (by omega), fun i hlo hhi => ?_, fun i hi => ?_,
    fun a ha => ?_, fun i j hi hj heq => ?_⟩, ⟨by simp [logTable, allBytes], fun a ha => ?_⟩,
    ⟨by simp [invTable, allBytes], fun a ha => ?_⟩, ⟨by simp [mulTable, allBytes], fun row hrow => ?_,
    fun a b => ?_, fun a => ?_⟩⟩
  · rw [hexp hhi, hexp (by omega), ← Nat.add_sub_cancel' hlo, gpow_add, h.orderOne, one_gmul,
      Nat.add_sub_cancel_left]
  · rw [hexp (by omega)]
    exact gpow_alpha_ne_zero h (by omega)
  · obtain ⟨i, hi, hpow⟩ := exists_gpow_alpha_eq h ha
    exact ⟨i, hi, (hexp (by omega)).trans hpow⟩
  · rw [hexp (by omega), hexp (by omega)] at heq
    exact gpow_alpha_inj h (by omega) (by omega) heq
  · obtain ⟨hle, hpow⟩ := logEntry_spec h ha
    rw [logTable, allBytes_map_getD]
    exact ⟨hle, (hexp (by omega)).trans hpow⟩
  · rw [invTable, allBytes_map_getD]
    exact ⟨rfl, gmul_ginv h ha⟩
  · obtain ⟨a, -, rfl⟩ := List.mem_map.mp hrow
    simp [allBytes]
  · exact mulTable_getD F a b
  · exact ⟨(mulTable_getD F 0 a).trans (zero_gmul F a), (mulTable_getD F a 0).trans (gmul_zero F a)⟩

/-! ## The polynomial product -/

theorem clmul_xor (a b c : Nat) : clmul a (b ^^^ c) = clmul a b ^^^ clmul a c := by
  simp only [clmul_unroll, Nat.testBit_xor, ite_xor_eq_xor]
  ac_rfl

theorem clmul_one (a : Nat) : clmul a 1 = a := by
  simp [clmul_unroll, Nat.testBit_one_eq_true_iff_self_eq_zero]

theorem clmul_shiftLeft_one {q : Nat} (a : Nat) (hq : q < 128) :
    clmul a (q <<< 1) = clmul a q <<< 1 := by
  have htop : q.testBit 7 = false := Nat.testBit_lt_two_pow hq
  have hsh (p : Bool) (x : Nat) : (if p then x else 0) <<< 1 = if p then x <<< 1 else 0 := by
    cases p <;> simp
  simp only [clmul_unroll, Nat.testBit_shiftLeft, Nat.shiftLeft_xor_distrib, hsh, htop,
    ← Nat.shiftLeft_add]
  simp

theorem getLsbD_xtime (F : GfField) (a : Byte) (j : Nat) : (xtime F a).getLsbD j =
    (decide (j < 8) && ((decide (1 ≤ j) && a.getLsbD (j - 1)) ^^ (a.getLsbD 7 && F.poly.getLsbD j))) := by
  rw [xtime_eq_xor, BitVec.getLsbD_xor, BitVec.getLsbD_shiftLeft]
  by_cases hj : j < 8 <;> cases a.getLsbD 7 <;> simp [hj, Nat.one_le_iff_ne_zero]

/-- Where the shift reaches degree 8, `GF_POLY` is subtracted. -/
theorem toNat_xtime (h : FieldLegal F) (a : Byte) :
    (xtime F a).toNat = a.toNat <<< 1 ^^^ if a.getLsbD 7 then F.poly.toNat else 0 := by
  refine Nat.eq_of_testBit_eq fun j => ?_
  have hpoly : (if a.getLsbD 7 then F.poly.toNat else 0).testBit j =
      (a.getLsbD 7 && F.poly.getLsbD j) := by
    cases a.getLsbD 7 <;> simp [BitVec.testBit_toNat]
  rw [BitVec.testBit_toNat, getLsbD_xtime, Nat.testBit_xor, Nat.testBit_shiftLeft,
    BitVec.testBit_toNat, hpoly]
  rcases lt_trichotomy j 8 with hj | rfl | hj
  · simp [hj]
  · simp [h.degree]
  · simp [BitVec.getLsbD_of_ge a _ (Nat.le_sub_one_of_lt hj), BitVec.getLsbD_of_ge F.poly j hj,
      hj.not_gt]

/-- The byte `r` is a residue of the polynomial `m` modulo `GF_POLY`, with a quotient of degree below `d`
(R120). -/
def ReducesTo (F : GfField) (d m : Nat) (r : Byte) : Prop :=
  ∃ q : Nat, q < 2 ^ d ∧ m = clmul F.poly.toNat q ^^^ r.toNat

theorem ReducesTo.mono {d e m : Nat} {r : Byte} (h : ReducesTo F d m r) (hde : d ≤ e) :
    ReducesTo F e m r := by
  obtain ⟨q, hq, hm⟩ := h
  exact ⟨q, hq.trans_le (Nat.pow_le_pow_right two_pos hde), hm⟩

theorem reducesTo_self (F : GfField) (d : Nat) (r : Byte) : ReducesTo F d r.toNat r :=
  ⟨0, Nat.two_pow_pos d, by simp [clmul_unroll]⟩

theorem ReducesTo.xor {d m m' : Nat} {r r' : Byte} (h : ReducesTo F d m r)
    (h' : ReducesTo F d m' r') : ReducesTo F d (m ^^^ m') (r ^^^ r') := by
  obtain ⟨q, hq, rfl⟩ := h
  obtain ⟨q', hq', rfl⟩ := h'
  refine ⟨q ^^^ q', Nat.xor_lt_two_pow hq hq', ?_⟩
  rw [clmul_xor, BitVec.toNat_xor]
  ac_rfl

theorem ReducesTo.shiftLeft_one (hF : FieldLegal F) {d m : Nat} {r : Byte} (hd : d ≤ 7)
    (h : ReducesTo F d m r) : ReducesTo F (d + 1) (m <<< 1) (xtime F r) := by
  obtain ⟨q, hq, rfl⟩ := h
  have hq7 : q < 128 := hq.trans_le (Nat.pow_le_pow_right two_pos hd)
  have hodd : (if r.getLsbD 7 then 1 else 0) < 2 ^ (d + 1) := by
    have := Nat.one_lt_two_pow (Nat.succ_ne_zero d)
    split <;> omega
  have hpoly : clmul F.poly.toNat (if r.getLsbD 7 then 1 else 0) =
      if r.getLsbD 7 then F.poly.toNat else 0 := by
    split
    · exact clmul_one _
    · simp [clmul_unroll]
  refine ⟨q <<< 1 ^^^ if r.getLsbD 7 then 1 else 0, Nat.xor_lt_two_pow ?_ hodd, ?_⟩
  · rw [Nat.shiftLeft_eq, Nat.pow_succ]
    omega
  · rw [clmul_xor, clmul_shiftLeft_one _ hq7, hpoly, toNat_xtime hF, Nat.shiftLeft_xor_distrib,
      Nat.xor_assoc, Nat.xor_comm (r.toNat <<< 1), xor_cancel_left]

/-- Each shift of a byte reduces to the byte that R124's loop holds. -/
theorem reducesTo_shiftLeft (hF : FieldLegal F) (a : Byte) {i : Nat} (hi : i ≤ 7) :
    ReducesTo F i (a.toNat <<< i) ((xtime F)^[i] a) := by
  induction i with
  | zero => exact reducesTo_self F 0 a
  | succ i ih =>
    rw [Nat.shiftLeft_add, Function.iterate_succ_apply']
    exact (ih (by omega)).shiftLeft_one hF (by omega)

/-- The carry-less product reduces to `gmul` (R120, R124): the two are summed over the same bits. -/
theorem reducesTo_clmul_gmul (hF : FieldLegal F) (a b : Byte) :
    ReducesTo F 7 (clmul a.toNat b.toNat) (gmul F a b) := by
  have hsum (n : Nat) (hn : n ≤ 8) : ReducesTo F 7
      ((List.range n).foldl (fun r i => if b.getLsbD i then r ^^^ (a.toNat <<< i) else r) 0)
      (gsum ((List.range n).map fun i => if b.getLsbD i then (xtime F)^[i] a else 0)) := by
    induction n with
    | zero => exact reducesTo_self F 7 0
    | succ n ih =>
      have hn' := ih (by omega)
      rw [List.range_succ, List.foldl_append, List.map_append, gsum_append]
      simp only [List.foldl_cons, List.foldl_nil, List.map_cons, List.map_nil, gsum_cons, gsum_nil,
        xor_zero]
      split
      · exact hn'.xor ((reducesTo_shiftLeft hF a (Nat.le_of_lt_succ hn)).mono (Nat.le_of_lt_succ hn))
      · rwa [xor_zero]
  rw [gmul_eq_gsum, clmul]
  simp only [BitVec.testBit_toNat]
  exact hsum 8 le_rfl

/-- The product by `EXP` and `LOG` adds exponents (R124). -/
theorem mulByLog_eq_gmul (h : FieldLegal F) (a b : Byte) : mulByLog (.built F) a b = gmul F a b := by
  by_cases ha : a = 0
  · rw [mulByLog, if_pos (.inl ha), ha, zero_gmul]
  by_cases hb : b = 0
  · rw [mulByLog, if_pos (.inr hb), hb, gmul_zero]
  obtain ⟨hla, hpa⟩ := logEntry_spec h ha
  obtain ⟨hlb, hpb⟩ := logEntry_spec h hb
  rw [mulByLog, if_neg (not_or.mpr ⟨ha, hb⟩)]
  simp only [expOf, logOf, logTable, allBytes_map_getD]
  rw [expTable_getD h (by omega), gpow_add, hpa, hpb]

/-- Settles O3: the reduction, the two table forms, and the bound on the index into `EXP`. -/
theorem productFormsAgree : Obligations.ProductFormsAgree := by
  intro F h a b
  refine ⟨reducesTo_clmul_gmul h a b, mulByLog_eq_gmul h a b, mulTable_getD F a b, fun ha hb => ?_,
    gmul_zero F a, zero_gmul F a, gmul_one F a⟩
  obtain ⟨hla, -⟩ := logEntry_spec h ha
  obtain ⟨hlb, -⟩ := logEntry_spec h hb
  simp only [logOf, logTable, allBytes_map_getD]
  omega

/-! ## GF.INIT -/

theorem answers_of_execWith {P : Params} {i : Instr} {s t : State} (h : execWith P i s = .next t) :
    Answers P i s t :=
  ⟨h, fun hP => by rw [exec_eq_execWith, ← hP, h]⟩

/-- Settles O1: the E_FAULTED test, then the guard of R128. -/
theorem gfInitBuildsTablesOnce : Obligations.GfInitBuildsTablesOnce := by
  intro P s
  have hexec : execWith P .gfInit s = .next (unlessFatal 0x01
      (fun s => finish 0x01 .ok { s with gf := gfInit P.gf.field s.gf }) s) := rfl
  refine ⟨fun hf => answers_of_execWith ?_, fun hf hr => answers_of_execWith ?_,
    fun hf hr => answers_of_execWith ?_⟩
  · rw [hexec, unlessFatal_faulted _ _ _ hf]
  · rw [hexec, unlessFatal_running _ _ _ hf, gfInit, if_pos hr, finish_eq_ended]
  · rw [hexec, unlessFatal_running _ _ _ hf, gfInit, if_neg (by simp [hr]), finish_eq_ended, gfBuilt]

end Sys2Proof.Machine
end

section
/-! PROOFS. Matrices over GF(2^8) (spec/40_gf_arithmetic.md R127, R129, R130): the bytes are a field under
`⊕` and `⊗`, so byte rows are vectors and byte matrices are matrices over it (`ByteField`); the passes of
`MatInv` keep an invariant (`Gauss`) that gives the inverse, or a vector that the matrix sends to zero. -/

namespace Sys2Proof.Machine

open Matrix

variable {F : GfField} {K : Type} [Field K] {k : Nat}

theorem scaleRow_getD (F : GfField) (c : Byte) (row : List Byte) (j : Nat) :
    (scaleRow F c row).getD j 0 = gmul F c (row.getD j 0) := by
  conv_lhs => rw [scaleRow, ← gmul_zero F c, List.getD_map]

/-! ## The field of bytes -/

/-- The bytes under `⊕` and `⊗` as a field (R127). Every byte is its own negative. -/
abbrev gfField (h : FieldLegal F) : Field Byte :=
  @Field.ofMinimalAxioms Byte ⟨gadd⟩ ⟨gmul F⟩ ⟨id⟩ ⟨fun a => if a = 0 then 0 else ginv F a⟩ ⟨0⟩ ⟨1⟩
    BitVec.xor_assoc (fun _ => BitVec.zero_xor) (fun _ => BitVec.xor_self) (gmul_assoc F) (gmul_comm F)
    (one_gmul F) (fun _ ha => (congrArg (gmul F _) (if_neg ha)).trans (gmul_ginv h ha)) (if_pos rfl)
    (gmul_xor F) ⟨0, 1, by decide⟩

/-- `K` is the field of the bytes, by the reading `toK` of a byte. -/
structure ByteField (F : GfField) (K : Type) [Field K] where
  toK : Byte → K
  injective : Function.Injective toK
  map_one : toK 1 = 1
  map_xor : ∀ a b, toK (a ^^^ b) = toK a + toK b
  map_gmul : ∀ a b, toK (gmul F a b) = toK a * toK b

theorem exists_byteField (h : FieldLegal F) :
    ∃ (K : Type) (_ : Field K), Nonempty (ByteField F K) :=
  ⟨Byte, gfField h, ⟨@ByteField.mk F Byte (gfField h) id Function.injective_id rfl (fun _ _ => rfl)
    (fun _ _ => rfl)⟩⟩

namespace ByteField

variable (φ : ByteField F K)

@[simp] theorem map_zero : φ.toK 0 = 0 := by simpa using φ.map_xor 0 0

theorem map_ite (p : Prop) [Decidable p] : φ.toK (if p then 1 else 0) = if p then 1 else 0 := by
  split_ifs
  · exact φ.map_one
  · exact φ.map_zero

theorem add_self (a : Byte) : φ.toK a + φ.toK a = 0 := by
  rw [← φ.map_xor, BitVec.xor_self]
  exact φ.map_zero

theorem toK_ginv_mul (h : FieldLegal F) {a : Byte} (ha : a ≠ 0) : φ.toK (ginv F a) * φ.toK a = 1 := by
  rw [← φ.map_gmul, gmul_comm, gmul_ginv h ha]
  exact φ.map_one

theorem map_gsum (l : List Byte) : φ.toK (gsum l) = (l.map φ.toK).sum := by
  induction l with
  | nil => exact φ.map_zero
  | cons x l ih => rw [gsum_cons, φ.map_xor, ih, List.map_cons, List.sum_cons]

/-! ## Rows as vectors -/

/-- The first `k` bytes of a row as a vector. -/
def vec (k : Nat) (row : List Byte) : Fin k → K := fun j => φ.toK (row.getD j 0)

theorem vec_scaleRow (c : Byte) (row : List Byte) :
    φ.vec k (scaleRow F c row) = φ.toK c • φ.vec k row := by
  funext j
  rw [vec, scaleRow_getD, φ.map_gmul]
  rfl

theorem vec_addMul {dst src : List Byte} (c : Byte) (hdst : dst.length = k) (hsrc : src.length = k) :
    φ.vec k (addMul F dst src c) = φ.vec k dst + φ.toK c • φ.vec k src := by
  funext j
  rw [vec, addMul_getD (hsrc.trans hdst.symm) (j.isLt.trans_eq hdst.symm), φ.map_xor, φ.map_gmul]
  rfl

theorem vec_unitRow (i : Fin k) : φ.vec k (unitRow k i) = Pi.single i 1 := by
  funext j
  have hget : (unitRow k i).getD j 0 = if i = j then 1 else 0 := by
    simp [unitRow, List.getD_eq_getElem?_getD, Fin.ext_iff]
  rw [vec, hget, φ.map_ite, Pi.single_apply]
  simp only [eq_comm]

theorem vec_injective {r s : List Byte} (hr : r.length = k) (hs : s.length = k)
    (h : φ.vec k r = φ.vec k s) : r = s := by
  refine List.ext_getElem (hr.trans hs.symm) fun j hj hj' => ?_
  have := φ.injective (congrFun h ⟨j, hr ▸ hj⟩)
  rwa [List.getD_eq_getElem _ _ hj, List.getD_eq_getElem _ _ hj'] at this

/-! ## Byte matrices as matrices -/

/-- The first `m` rows and `k` columns of a byte matrix as a matrix. -/
def mat (m k : Nat) (A : Matrix8) : Matrix (Fin m) (Fin k) K := fun i => φ.vec k (A.getD i [])

theorem mat_matMul {m n : Nat} {A : Matrix8} (hA : A.length = m) (B : Matrix8) :
    φ.mat m n (matMul F k n A B) = φ.mat m k A * φ.mat k n B := by
  ext i j
  have hi : (i : Nat) < A.length := hA ▸ i.isLt
  have hentry : ((matMul F k n A B).getD i []).getD j 0 =
      gsum ((List.range k).map fun t => gmul F ((A.getD i []).getD t 0) (entry B t j)) := by
    simp [matMul, List.getD_eq_getElem?_getD, hi]
  calc φ.toK (((matMul F k n A B).getD i []).getD j 0)
      = ∑ t ∈ Finset.range k, φ.toK (gmul F ((A.getD i []).getD t 0) (entry B t j)) := by
        rw [hentry, φ.map_gsum, List.map_map]
        rfl
    _ = ∑ t : Fin k, φ.toK ((A.getD i []).getD t 0) * φ.toK (entry B t j) := by
        simp only [φ.map_gmul, Finset.sum_range]

theorem mat_identity : φ.mat k k (identity k) = 1 := by
  funext i
  have hrow : (identity k).getD i [] = unitRow k i := by
    simp [identity, List.getD_eq_getElem?_getD]
  rw [mat, hrow, vec_unitRow]
  funext j
  rw [Pi.single_apply, Matrix.one_apply]
  simp only [eq_comm]

end ByteField

theorem square_iff {A : Matrix8} :
    square k A = true ↔ A.length = k ∧ ∀ r ∈ A, r.length = k := by
  simp [square]

theorem square_identity : square k (identity k) = true := by
  simp [square_iff, identity, unitRow]

theorem square_matMul {A : Matrix8} (hA : A.length = k) (B : Matrix8) :
    square k (matMul F k k A B) = true := by
  simp [square_iff, matMul, hA]

theorem ByteField.mat_injective (φ : ByteField F K) {A B : Matrix8} (hA : square k A = true)
    (hB : square k B = true) (h : φ.mat k k A = φ.mat k k B) : A = B := by
  obtain ⟨hAlen, hArow⟩ := square_iff.mp hA
  obtain ⟨hBlen, hBrow⟩ := square_iff.mp hB
  refine List.ext_getElem (hAlen.trans hBlen.symm) fun i hi hi' => ?_
  have hrow := congrFun h ⟨i, hAlen ▸ hi⟩
  simp only [ByteField.mat, List.getD_eq_getElem _ _ hi, List.getD_eq_getElem _ _ hi'] at hrow
  exact φ.vec_injective (hArow _ (List.getElem_mem _)) (hBrow _ (List.getElem_mem _)) hrow

/-- A product of byte matrices is the identity when it is one over the field. -/
theorem ByteField.matMul_eq_identity_iff (φ : ByteField F K) {A : Matrix8} (hA : square k A = true)
    (B : Matrix8) : matMul F k k A B = identity k ↔ φ.mat k k A * φ.mat k k B = 1 := by
  have hlen := (square_iff.mp hA).1
  rw [← φ.mat_matMul hlen, ← φ.mat_identity]
  exact ⟨fun h => by rw [h], φ.mat_injective (square_matMul hlen B) square_identity⟩

/-! ## The passes of MatInv -/

/-- `W[i][j]` in the working pairs. -/
def leftEntry (rows : List RowPair) (i j : Nat) : Byte := (rows.getD i ([], [])).1.getD j 0

/-- The pivot row of a column, normalized. -/
def pivotRow (F : GfField) (col : Nat) (rows : List RowPair) : RowPair :=
  normalize F col (rows.getD col ([], []))

/-- The pass for a column after the exchange: the pivot row at its place, every other row cleared. -/
def clearColumn (F : GfField) (col : Nat) (rows : List RowPair) : List RowPair :=
  rows.mapIdx fun r row =>
    if r = col then pivotRow F col rows else eliminate F col (pivotRow F col rows) row

theorem gaussStep_eq_some {rows rows' : List RowPair} {col : Nat}
    (h : gaussStep F rows col = some rows') :
    ∃ p, findPivot col rows = some p ∧ rows' = clearColumn F col (swapRows col p rows) := by
  unfold gaussStep at h
  split at h
  · cases h
  · next p hp => exact ⟨p, hp, (Option.some.inj h).symm⟩

theorem gaussStep_eq_none {rows : List RowPair} {col : Nat} (h : gaussStep F rows col = none) :
    findPivot col rows = none := by
  unfold gaussStep at h
  split at h
  · assumption
  · cases h

theorem findPivot_eq_some {rows : List RowPair} {col p : Nat} (h : findPivot col rows = some p) :
    p < rows.length ∧ col ≤ p ∧ leftEntry rows p col ≠ 0 := by
  have hp := List.find?_some h
  have hlt := List.mem_range.mp (List.mem_of_find?_eq_some h)
  simp only [Bool.and_eq_true, decide_eq_true_eq, bne_iff_ne] at hp
  exact ⟨hlt, hp⟩

theorem findPivot_eq_none {rows : List RowPair} {col : Nat} (h : findPivot col rows = none) {r : Nat}
    (hr : r < rows.length) (hcol : col ≤ r) : leftEntry rows r col = 0 := by
  have := List.find?_eq_none.mp h r (List.mem_range.mpr hr)
  simpa [hcol, leftEntry] using this

theorem swapRows_perm {rows : List RowPair} {i j : Nat} (hi : i < rows.length)
    (hj : j < rows.length) : (swapRows i j rows).Perm rows := by
  rw [swapRows, List.getD_eq_getElem _ _ hi, List.getD_eq_getElem _ _ hj]
  exact List.set_set_perm hi hj

theorem leftEntry_swapRows {rows : List RowPair} {i j : Nat} (hi : i < rows.length)
    (hj : j < rows.length) (r c : Nat) : leftEntry (swapRows i j rows) r c =
      if r = j then leftEntry rows i c else if r = i then leftEntry rows j c else leftEntry rows r c := by
  simp only [leftEntry, swapRows, List.getD_eq_getElem?_getD, List.getElem?_set, List.length_set, hi, hj,
    if_true, eq_comm (b := r)]
  split_ifs <;> rfl

theorem clearColumn_getD {rows : List RowPair} {col r : Nat} (hr : r < rows.length) :
    (clearColumn F col rows).getD r ([], []) =
      if r = col then pivotRow F col rows
      else eliminate F col (pivotRow F col rows) (rows.getD r ([], [])) := by
  rw [clearColumn, List.getD_eq_getElem _ _ (by simpa using hr), List.getElem_mapIdx,
    List.getD_eq_getElem rows _ hr]

theorem mem_clearColumn {rows : List RowPair} {col : Nat} {row' : RowPair}
    (h : row' ∈ clearColumn F col rows) :
    row' = pivotRow F col rows ∨ ∃ row ∈ rows, row' = eliminate F col (pivotRow F col rows) row := by
  obtain ⟨r, hr, rfl⟩ := List.mem_mapIdx.mp h
  split_ifs
  · exact .inl rfl
  · exact .inr ⟨_, List.getElem_mem hr, rfl⟩

theorem pivotRow_mem_clearColumn {rows : List RowPair} {col : Nat} (hcol : col < rows.length) :
    pivotRow F col rows ∈ clearColumn F col rows :=
  List.mem_mapIdx.mpr ⟨col, hcol, if_pos rfl⟩

theorem eliminate_mem_clearColumn {rows : List RowPair} {col r : Nat} (hr : r < rows.length)
    (hne : r ≠ col) : eliminate F col (pivotRow F col rows) rows[r] ∈ clearColumn F col rows :=
  List.mem_mapIdx.mpr ⟨r, hr, if_neg hne⟩

theorem leftEntry_clearColumn {rows : List RowPair} (hlen : ∀ r ∈ rows, r.1.length = k) {col r c : Nat}
    (hcol : col < rows.length) (hr : r < rows.length) (hc : c < k) :
    leftEntry (clearColumn F col rows) r c =
      if r = col then gmul F (ginv F (leftEntry rows col col)) (leftEntry rows col c)
      else leftEntry rows r c ^^^ gmul F (leftEntry rows r col)
        (gmul F (ginv F (leftEntry rows col col)) (leftEntry rows col c)) := by
  have hrow {i : Nat} (hi : i < rows.length) : (rows.getD i ([], [])).1.length = k := by
    rw [List.getD_eq_getElem _ _ hi]
    exact hlen _ (List.getElem_mem hi)
  rw [leftEntry, clearColumn_getD hr]
  split
  · exact scaleRow_getD _ _ _ _
  · refine (addMul_getD ?_ ((hrow hr).symm ▸ hc)).trans ?_
    · rw [pivotRow, normalize, scaleRow, List.length_map, hrow hcol, hrow hr]
    · rw [pivotRow, normalize, scaleRow_getD]
      rfl

/-- A working pair of rows: the row of `W` is the row of `B` times `A`. -/
structure Solves (φ : ByteField F K) (A : Matrix (Fin k) (Fin k) K) (row : RowPair) : Prop where
  left : row.1.length = k
  right : row.2.length = k
  eq : φ.vec k row.1 = φ.vec k row.2 ᵥ* A

/-- The invariant of `MatInv` before the pass of column `col`: each row of `W` is the same row of `B`
times `A`; what `W` sends to zero, `A` sends to zero; the columns before `col` are those of `I`. -/
structure Gauss (φ : ByteField F K) (A : Matrix (Fin k) (Fin k) K) (col : Nat) (rows : List RowPair) :
    Prop where
  length : rows.length = k
  solves : ∀ row ∈ rows, Solves φ A row
  kernel : ∀ v : Fin k → K, (∀ row ∈ rows, φ.vec k row.1 ⬝ᵥ v = 0) → A *ᵥ v = 0
  reduced : ∀ i j, i < k → j < col → leftEntry rows i j = if i = j then 1 else 0

section

variable {φ : ByteField F K} {A : Matrix (Fin k) (Fin k) K} {rows : List RowPair} {col : Nat}
  {row pivot : RowPair}

theorem Solves.normalize (h : Solves φ A row) (col : Nat) : Solves φ A (normalize F col row) where
  left := (List.length_map _).trans h.left
  right := (List.length_map _).trans h.right
  eq := by simp only [Machine.normalize, φ.vec_scaleRow, h.eq, smul_vecMul]

theorem Solves.eliminate (hpivot : Solves φ A pivot) (h : Solves φ A row) (col : Nat) :
    Solves φ A (eliminate F col pivot row) where
  left := (addMul_length (hpivot.left.trans h.left.symm)).trans h.left
  right := (addMul_length (hpivot.right.trans h.right.symm)).trans h.right
  eq := by
    rw [Machine.eliminate, φ.vec_addMul _ h.left hpivot.left, φ.vec_addMul _ h.right hpivot.right,
      h.eq, hpivot.eq, add_vecMul, smul_vecMul]

theorem Gauss.getD_mem (h : Gauss φ A col rows) {r : Nat} (hr : r < k) :
    rows.getD r ([], []) ∈ rows := by
  rw [List.getD_eq_getElem _ _ (h.length.symm ▸ hr)]
  exact List.getElem_mem _

/-- `MatInv` begins with `W = A` and `B = I`. -/
theorem Gauss.init (φ : ByteField F K) {M : Matrix8} (hM : square k M = true) :
    Gauss φ (φ.mat k k M) 0 (M.zip (identity k)) := by
  obtain ⟨hlen, hrow⟩ := square_iff.mp hM
  obtain ⟨hIlen, hIrow⟩ := square_iff.mp (square_identity (k := k))
  have hget {i : Nat} (hi : i < k) : (M.getD i [], unitRow k i) ∈ M.zip (identity k) := by
    refine List.mem_iff_getElem.mpr ⟨i, by simp [hlen, hIlen, hi], ?_⟩
    rw [List.getElem_zip, List.getD_eq_getElem _ _ (hlen.symm ▸ hi)]
    simp [identity]
  refine ⟨by simp [hlen, hIlen], fun r hr =>
    ⟨hrow _ (List.of_mem_zip hr).1, hIrow _ (List.of_mem_zip hr).2, ?_⟩, fun v hv => ?_,
    fun i j _ hj => absurd hj (Nat.not_lt_zero j)⟩
  · obtain ⟨i, hi, rfl⟩ := List.mem_iff_getElem.mp hr
    have hik : i < k := by simpa [hlen, hIlen] using hi
    have hunit := φ.vec_unitRow ⟨i, hik⟩
    simp only [List.getElem_zip, identity, List.getElem_map, List.getElem_range] at hunit ⊢
    rw [hunit, single_one_vecMul, Matrix.row, ByteField.mat, List.getD_eq_getElem _ _ (hlen.symm ▸ hik)]
  · funext i
    exact hv _ (hget i.isLt)

/-- The exchange of two rows at or below the column keeps the invariant. -/
theorem Gauss.swapRows {p : Nat} (h : Gauss φ A col rows) (hp : p < k) (hcol : col ≤ p) :
    Gauss φ A col (swapRows col p rows) := by
  have hplen : p < rows.length := h.length.symm ▸ hp
  have hclen : col < rows.length := hcol.trans_lt hplen
  have hperm := swapRows_perm hclen hplen
  refine ⟨hperm.length_eq.trans h.length, fun r hr => h.solves r (hperm.mem_iff.mp hr),
    fun v hv => h.kernel v fun r hr => hv r (hperm.mem_iff.mpr hr), fun i j hi hj => ?_⟩
  rw [leftEntry_swapRows hclen hplen, h.reduced i j hi hj, h.reduced p j hp hj,
    h.reduced col j (hcol.trans_lt hp) hj]
  grind

/-- The rows before the pass are combinations of those after it, so `W` sends no more to zero. -/
theorem Gauss.kernel_clearColumn (hF : FieldLegal F) (h : Gauss φ A col rows) (hcol : col < k)
    (hne : leftEntry rows col col ≠ 0) {v : Fin k → K}
    (hv : ∀ row ∈ clearColumn F col rows, φ.vec k row.1 ⬝ᵥ v = 0) : A *ᵥ v = 0 := by
  have hclen : col < rows.length := h.length.symm ▸ hcol
  have hpivot : Solves φ A (pivotRow F col rows) := (h.solves _ (h.getD_mem hcol)).normalize col
  have hpv := hv _ (pivotRow_mem_clearColumn hclen)
  refine h.kernel v fun row hrow => ?_
  obtain ⟨r, hr, rfl⟩ := List.mem_iff_getElem.mp hrow
  obtain rfl | hrc := eq_or_ne r col
  · have hscale : φ.toK (ginv F (leftEntry rows r r)) ≠ 0 :=
      left_ne_zero_of_mul_eq_one (φ.toK_ginv_mul hF hne)
    rw [leftEntry, List.getD_eq_getElem _ _ hr] at hscale
    rw [pivotRow, Machine.normalize, φ.vec_scaleRow, smul_dotProduct, smul_eq_mul,
      List.getD_eq_getElem _ _ hr] at hpv
    exact (mul_eq_zero.mp hpv).resolve_left hscale
  · have hrv := hv _ (eliminate_mem_clearColumn hr hrc)
    rwa [Machine.eliminate, φ.vec_addMul _ (h.solves _ hrow).left hpivot.left, add_dotProduct,
      smul_dotProduct, hpv, smul_zero, add_zero] at hrv

/-- The columns before `col` stay, and column `col` becomes that of `I`. -/
theorem Gauss.reduced_clearColumn (hF : FieldLegal F) (h : Gauss φ A col rows) (hcol : col < k)
    (hne : leftEntry rows col col ≠ 0) {i j : Nat} (hi : i < k) (hj : j < col + 1) :
    leftEntry (clearColumn F col rows) i j = if i = j then 1 else 0 := by
  have hlen : ∀ row ∈ rows, row.1.length = k := fun row hrow => (h.solves row hrow).left
  rw [leftEntry_clearColumn hlen (h.length.symm ▸ hcol) (h.length.symm ▸ hi) (by omega)]
  obtain hlt | rfl := Nat.lt_succ_iff_lt_or_eq.mp hj
  · rw [h.reduced col j hcol hlt, if_neg hlt.ne', gmul_zero, gmul_zero, xor_zero, h.reduced i j hi hlt]
    grind
  · rw [gmul_comm F (ginv F _), gmul_ginv hF hne]
    split_ifs
    · rfl
    · exact (congrArg _ (gmul_one F _)).trans BitVec.xor_self

/-- The pivot and the elimination take the invariant to the next column. -/
theorem Gauss.clearColumn (hF : FieldLegal F) (h : Gauss φ A col rows) (hcol : col < k)
    (hne : leftEntry rows col col ≠ 0) : Gauss φ A (col + 1) (clearColumn F col rows) := by
  have hpivot : Solves φ A (pivotRow F col rows) := (h.solves _ (h.getD_mem hcol)).normalize col
  refine ⟨(List.length_mapIdx ..).trans h.length, fun row' hrow' => ?_,
    fun v => h.kernel_clearColumn hF hcol hne, fun i j => h.reduced_clearColumn hF hcol hne⟩
  obtain rfl | ⟨row, hrow, rfl⟩ := mem_clearColumn hrow'
  · exact hpivot
  · exact hpivot.eliminate (h.solves row hrow) col

/-- The entries of column `col` above the diagonal, then 1, then zeros. -/
def kernelVec (φ : ByteField F K) (k col : Nat) (rows : List RowPair) : Fin k → K := fun j =>
  if (j : Nat) < col then φ.toK (leftEntry rows j col) else if (j : Nat) = col then 1 else 0

/-- Without a pivot, `W` sends that vector to zero: each entry above the diagonal meets itself,
and is its own negative. -/
theorem Gauss.exists_kernel (h : Gauss φ A col rows) (hcol : col < k)
    (hzero : ∀ r, r < k → col ≤ r → leftEntry rows r col = 0) : ∃ v, v ≠ 0 ∧ A *ᵥ v = 0 := by
  refine ⟨kernelVec φ k col rows, fun hv => ?_, h.kernel _ fun row hrow => ?_⟩
  · simpa [kernelVec] using congrFun hv ⟨col, hcol⟩
  obtain ⟨i, hi, rfl⟩ := List.mem_iff_getElem.mp hrow
  have hik : i < k := h.length ▸ hi
  have hterm (j : Fin k) : φ.toK (leftEntry rows i j) * kernelVec φ k col rows j =
      (if j = ⟨i, hik⟩ then if i < col then φ.toK (leftEntry rows i col) else 0 else 0) +
      (if j = ⟨col, hcol⟩ then φ.toK (leftEntry rows i col) else 0) := by
    simp only [Fin.ext_iff]
    rcases lt_trichotomy (j : Nat) col with hj | hj | hj
    · rw [kernelVec, if_pos hj, h.reduced i j hik hj, φ.map_ite, if_neg hj.ne, add_zero, ite_mul, one_mul,
        zero_mul]
      grind
    · rw [kernelVec, if_neg hj.not_lt, if_pos hj, if_pos hj, hj, mul_one]
      grind
    · rw [kernelVec, if_neg hj.not_gt, if_neg hj.ne', if_neg hj.ne', mul_zero, add_zero]
      grind
  calc φ.vec k rows[i].1 ⬝ᵥ kernelVec φ k col rows
      = ∑ j : Fin k, φ.toK (leftEntry rows i j) * kernelVec φ k col rows j := by
        simp only [leftEntry, List.getD_eq_getElem rows _ hi]
        rfl
    _ = (if i < col then φ.toK (leftEntry rows i col) else 0) + φ.toK (leftEntry rows i col) := by
        simp only [hterm, Finset.sum_add_distrib, Finset.sum_ite_eq', Finset.mem_univ, if_true]
    _ = 0 := by
        split_ifs with hlt
        · exact φ.add_self _
        · rw [hzero i hik (Nat.not_lt.mp hlt), φ.map_zero, add_zero]

/-- A pass either takes the invariant to the next column or shows `A` singular. -/
theorem Gauss.step (hF : FieldLegal F) (h : Gauss φ A col rows) (hcol : col < k) :
    (∀ rows', gaussStep F rows col = some rows' → Gauss φ A (col + 1) rows') ∧
    (gaussStep F rows col = none → ∃ v, v ≠ 0 ∧ A *ᵥ v = 0) := by
  refine ⟨fun rows' hsome => ?_, fun hnone => ?_⟩
  · obtain ⟨p, hp, rfl⟩ := gaussStep_eq_some hsome
    obtain ⟨hlt, hle, hne⟩ := findPivot_eq_some hp
    refine (h.swapRows (h.length ▸ hlt) hle).clearColumn hF hcol ?_
    rw [leftEntry_swapRows (h.length.symm ▸ hcol) hlt]
    obtain rfl | hcp := eq_or_ne col p
    · rwa [if_pos rfl]
    · rwa [if_neg hcp, if_pos rfl]
  · exact h.exists_kernel hcol fun r hr => findPivot_eq_none (gaussStep_eq_none hnone) (h.length.symm ▸ hr)

/-- All passes from column `col` on. -/
theorem Gauss.steps (hF : FieldLegal F) (n : Nat) (h : Gauss φ A col rows) (hn : col + n = k) :
    (∀ rows', gaussSteps F (List.range' col n) rows = some rows' → Gauss φ A k rows') ∧
    (gaussSteps F (List.range' col n) rows = none → ∃ v, v ≠ 0 ∧ A *ᵥ v = 0) := by
  induction n generalizing col rows with
  | zero =>
    obtain rfl : col = k := hn
    exact ⟨fun rows' hsome => Option.some.inj hsome ▸ h, fun hnone => nomatch hnone⟩
  | succ n ih =>
    obtain ⟨hsome, hnone⟩ := h.step hF (by omega)
    rw [List.range'_succ, gaussSteps]
    cases hstep : gaussStep F rows col with
    | none => exact ⟨fun _ hs => (nomatch hs), fun _ => hnone hstep⟩
    | some rows' => exact ih (hsome rows' hstep) (by omega)

/-- After the last pass `W` is the identity, so `B` is a left inverse. -/
theorem Gauss.mat_snd_mul (h : Gauss φ A k rows) : φ.mat k k (rows.map Prod.snd) * A = 1 := by
  funext i
  have hi : (i : Nat) < rows.length := h.length.symm ▸ i.isLt
  have hrow : (rows.map Prod.snd).getD i [] = rows[(i : Nat)].2 := by
    rw [List.getD_eq_getElem _ _ (by simpa using hi), List.getElem_map]
  rw [mul_apply_eq_vecMul, ByteField.mat, hrow, ← (h.solves _ (List.getElem_mem hi)).eq]
  funext j
  have hentry := h.reduced i j i.isLt j.isLt
  rw [leftEntry, List.getD_eq_getElem _ _ hi] at hentry
  rw [ByteField.vec, hentry, φ.map_ite, one_apply]
  simp only [Fin.ext_iff]

theorem Gauss.square_snd (h : Gauss φ A k rows) : square k (rows.map Prod.snd) = true :=
  square_iff.mpr ⟨by rw [List.length_map, h.length], fun r hr => by
    obtain ⟨row, hrow, rfl⟩ := List.mem_map.mp hr
    exact (h.solves row hrow).right⟩

end

/-! ## MatInv -/

/-- `Inverse(B)`: `B` is a left inverse over the field (R130). -/
theorem matInv_eq_some (hF : FieldLegal F) (φ : ByteField F K) {A B : Matrix8} (hA : square k A = true)
    (h : matInv F k A = some B) : square k B = true ∧ φ.mat k k B * φ.mat k k A = 1 := by
  rw [matInv, List.range_eq_range', Option.map_eq_some_iff] at h
  obtain ⟨rows, hrows, rfl⟩ := h
  have hdone := ((Gauss.init φ hA).steps hF k (Nat.zero_add k)).1 rows hrows
  exact ⟨hdone.square_snd, hdone.mat_snd_mul⟩

/-- `Singular`: the matrix sends a nonzero vector to zero (R130). -/
theorem matInv_eq_none (hF : FieldLegal F) (φ : ByteField F K) {A : Matrix8} (hA : square k A = true)
    (h : matInv F k A = none) : ∃ v : Fin k → K, v ≠ 0 ∧ φ.mat k k A *ᵥ v = 0 := by
  rw [matInv, List.range_eq_range', Option.map_eq_none_iff] at h
  exact ((Gauss.init φ hA).steps hF k (Nat.zero_add k)).2 h

/-- Settles O5: a left inverse over a field is two-sided and unique, and a matrix with a nonzero vector in
its kernel has none. -/
theorem matInvIsTheInverse : Obligations.MatInvIsTheInverse := by
  intro F hF k A hA
  obtain ⟨K, _, ⟨φ⟩⟩ := exists_byteField hF
  refine ⟨fun B h => ?_, fun h C hC hinv => ?_⟩
  · obtain ⟨hB, hBA⟩ := matInv_eq_some hF φ hA h
    have hAB := mul_eq_one_comm.mp hBA
    refine ⟨hB, (φ.matMul_eq_identity_iff hA B).mpr hAB, (φ.matMul_eq_identity_iff hB A).mpr hBA,
      fun C hC hAC _ => φ.mat_injective hC hB ?_⟩
    exact (left_inv_eq_right_inv hBA ((φ.matMul_eq_identity_iff hA C).mp hAC)).symm
  · obtain ⟨v, hv, hAv⟩ := matInv_eq_none hF φ hA h
    have hCA := (φ.matMul_eq_identity_iff hC A).mp hinv.2
    refine hv ?_
    rw [← one_mulVec v, ← hCA, ← mulVec_mulVec, hAv, mulVec_zero]

end Sys2Proof.Machine
end

section
/-! PROOFS. The code of the engine (spec/41_erasure_engine.md R142 to R147): row `r` of `ENC(k, n)` holds the
values at point `r` of the Lagrange basis on the points of the first `k` blocks, so its product with the values
of a polynomial of degree below `k` on those points is the value at point `r`. That gives the Vandermonde form
and, as `k` points determine such a polynomial, the inverse of any `k` rows. -/

namespace Sys2Proof.Machine

open Matrix Polynomial

variable {P : GfParams} {F : GfField} {K : Type} [Field K] {k n : Nat}

namespace ByteField

variable (φ : ByteField F K)

/-! ## Sums, inverses and products over the field -/

theorem map_xor_eq_sub (a b : Byte) : φ.toK (a ^^^ b) = φ.toK a - φ.toK b := by
  rw [φ.map_xor, sub_eq_add_neg, ← eq_neg_of_add_eq_zero_left (φ.add_self b)]

theorem map_ginv (h : FieldLegal F) {a : Byte} (ha : a ≠ 0) : φ.toK (ginv F a) = (φ.toK a)⁻¹ :=
  eq_inv_of_mul_eq_one_left (φ.toK_ginv_mul h ha)

theorem map_gprod (l : List Byte) : φ.toK (gprod F l) = (l.map φ.toK).prod := by
  induction l with
  | nil => exact φ.map_one
  | cons x l ih => rw [List.map_cons, List.prod_cons, ← ih, ← φ.map_gmul]; rfl

theorem map_gpow (a : Byte) (e : Nat) : φ.toK (gpow F a e) = φ.toK a ^ e := by
  induction e with
  | zero => exact φ.map_one.trans (pow_zero _).symm
  | succ e ih => rw [gpow, φ.map_gmul, ih, pow_succ']

/-- Byte matrices of `m` rows of `k` bytes are equal when they are over the field. -/
theorem mat_injective_of_length {m : Nat} {A B : Matrix8} (hA : A.length = m) (hB : B.length = m)
    (hArow : ∀ r ∈ A, r.length = k) (hBrow : ∀ r ∈ B, r.length = k) (h : φ.mat m k A = φ.mat m k B) :
    A = B := by
  refine List.ext_getElem (hA.trans hB.symm) fun i hi hi' => ?_
  have hrow := congrFun h ⟨i, hA ▸ hi⟩
  simp only [mat, List.getD_eq_getElem _ _ hi, List.getD_eq_getElem _ _ hi'] at hrow
  exact φ.vec_injective (hArow _ (List.getElem_mem _)) (hBrow _ (List.getElem_mem _)) hrow

/-- The rows of a byte matrix that is given row by row. -/
theorem mat_map {α : Type} (f : α → List Byte) {l : List α} (hl : l.length = k) (m : Nat) (i : Fin k) :
    φ.mat k m (l.map f) i = φ.vec m (f (l[(i : Nat)]'(hl ▸ i.isLt))) := by
  rw [mat, List.getD_eq_getElem _ _ (by simp [hl]), List.getElem_map]

/-! ## The evaluation points -/

/-- `XPT(i)` over the field (R142). -/
def point (P : GfParams) (i : Nat) : K := φ.toK (P.xpt i)

theorem point_injOn (hP : GfLegal P) : Set.InjOn (φ.point P) {i | i < 256} :=
  fun i hi j hj h => hP.points i j hi hj (φ.injective h)

/-- The points of the first `k` blocks. -/
def nodes (P : GfParams) (k : Nat) : Fin k → K := fun i => φ.point P i

theorem nodes_injective (hP : GfLegal P) (hk : k ≤ 256) : Function.Injective (φ.nodes P k) :=
  fun i j h => Fin.ext (φ.point_injOn hP (i.isLt.trans_le hk) (j.isLt.trans_le hk) h)

end ByteField

/-- A product over the other positions, as a list and over `Fin k`. -/
theorem prod_map_filter_range_ne (f : Nat → K) (c : Fin k) :
    (((List.range k).filter (fun j => j != (c : Nat))).map f).prod = ∏ j ∈ Finset.univ.erase c, f j := by
  rw [← List.prod_toFinset f (List.nodup_range.filter _), List.toFinset_filter, List.toFinset_range,
    Finset.prod_filter, Finset.prod_range, ← Finset.filter_ne', Finset.prod_filter]
  simp [Fin.ext_iff]

section

variable (φ : ByteField P.field K)

/-! ## The encoding rows -/

/-- The factor of R146 is the value of a divisor of the Lagrange basis. -/
theorem toK_lagrangeFactor (hP : GfLegal P) (hk : k ≤ 256) (r : Nat) {c j : Fin k} (hj : j ≠ c) :
    φ.toK (lagrangeFactor P r c j) =
      (Lagrange.basisDivisor (φ.nodes P k c) (φ.nodes P k j)).eval (φ.point P r) := by
  have hne : P.xpt c ^^^ P.xpt j ≠ 0 := fun h => hj <|
    φ.nodes_injective hP hk (sub_eq_zero.mp (by rw [← φ.map_zero, ← h, φ.map_xor_eq_sub]; rfl)).symm
  rw [lagrangeFactor, φ.map_gmul, φ.map_ginv hP.field hne, φ.map_xor_eq_sub, φ.map_xor_eq_sub,
    Lagrange.basisDivisor, eval_mul, eval_C, eval_sub, eval_X, eval_C, mul_comm]
  rfl

/-- The closed form of R146 is the value of the Lagrange basis. -/
theorem toK_parityCoeff (hP : GfLegal P) (hk : k ≤ 256) (r : Nat) (c : Fin k) :
    φ.toK (parityCoeff P k r c) =
      (Lagrange.basis Finset.univ (φ.nodes P k) c).eval (φ.point P r) := by
  rw [parityCoeff, φ.map_gprod, List.map_map, prod_map_filter_range_ne, Lagrange.basis, eval_prod]
  exact Finset.prod_congr rfl fun j hj => toK_lagrangeFactor φ hP hk r (Finset.ne_of_mem_erase hj)

/-- A row of the encoding matrix, primary or parity, holds the values of the Lagrange basis. -/
theorem vec_encRow (hP : GfLegal P) (hk : k ≤ 256) (r : Nat) : φ.vec k (encRow P k r) =
    fun c => (Lagrange.basis Finset.univ (φ.nodes P k) c).eval (φ.point P r) := by
  have hinj := (φ.nodes_injective hP hk).injOn (s := (Finset.univ : Finset (Fin k)))
  funext c
  by_cases hr : r < k
  · have hpoint : φ.point P r = φ.nodes P k ⟨r, hr⟩ := rfl
    rw [encRow, if_pos hr, φ.vec_unitRow ⟨r, hr⟩, Pi.single_apply, hpoint]
    split_ifs with hc
    · rw [hc, Lagrange.eval_basis_self hinj (Finset.mem_univ _)]
    · rw [Lagrange.eval_basis_of_ne hc (Finset.mem_univ _)]
  · rw [encRow, if_neg hr, ByteField.vec, List.getD_eq_getElem _ _ (by simp), List.getElem_map,
      List.getElem_range]
    exact toK_parityCoeff φ hP hk r c

/-- An encoding row takes the values of a polynomial on the first `k` points to its value at point `r`. -/
theorem vec_encRow_dotProduct (hP : GfLegal P) (hk : k ≤ 256) (r : Nat) {p : K[X]} (hp : p.degree < k) :
    φ.vec k (encRow P k r) ⬝ᵥ (fun c => p.eval (φ.nodes P k c)) = p.eval (φ.point P r) := by
  have hcard : p.degree < (Finset.univ : Finset (Fin k)).card := by simpa using hp
  conv_rhs => rw [Lagrange.eq_interpolate (φ.nodes_injective hP hk).injOn hcard]
  simp only [vec_encRow φ hP hk, dotProduct, Lagrange.interpolate_apply, eval_finsetSum, eval_mul, eval_C,
    mul_comm]

/-- Some polynomial of degree below `k` has given values on the first `k` points. -/
theorem exists_poly_of_values (hP : GfLegal P) (hk : k ≤ 256) (v : Fin k → K) :
    ∃ p : K[X], p.degree < k ∧ ∀ c, p.eval (φ.nodes P k c) = v c := by
  have hinj := (φ.nodes_injective hP hk).injOn (s := (Finset.univ : Finset (Fin k)))
  have hdeg := Lagrange.degree_interpolate_lt v hinj
  rw [Finset.card_univ, Fintype.card_fin] at hdeg
  exact ⟨_, hdeg, fun c => Lagrange.eval_interpolate_at_node v hinj (Finset.mem_univ c)⟩

/-- `k` distinct encoding rows send only zero to zero: the polynomial through the entries vanishes at `k`
points. -/
theorem eq_zero_of_encRows_mulVec (hP : GfLegal P) (hk : k ≤ 256) {rows : List Nat}
    (hlen : rows.length = k) (hnodup : rows.Nodup) (hlt : ∀ r ∈ rows, r < 256) {v : Fin k → K}
    (hv : φ.mat k k (rows.map (encRow P k)) *ᵥ v = 0) : v = 0 := by
  obtain ⟨p, hdeg, hnode⟩ := exists_poly_of_values φ hP hk v
  have hroot : ∀ r ∈ rows.toFinset, p.eval (φ.point P r) = 0 := by
    intro r hr
    obtain ⟨i, hi, rfl⟩ := List.mem_iff_getElem.mp (List.mem_toFinset.mp hr)
    have hrow := congrFun hv ⟨i, hlen ▸ hi⟩
    rw [mulVec, φ.mat_map _ hlen] at hrow
    rw [← vec_encRow_dotProduct φ hP hk _ hdeg, funext hnode]
    exact hrow
  have hp : p = 0 := by
    refine Polynomial.eq_zero_of_degree_lt_of_eval_index_eq_zero rows.toFinset
      ((φ.point_injOn hP).mono fun r hr => hlt r (by simpa using hr)) ?_ hroot
    rwa [List.toFinset_card_of_nodup hnodup, hlen]
  funext c
  rw [← hnode, hp, eval_zero, Pi.zero_apply]

end

/-- A square byte matrix that sends only zero to zero has an inverse (R130). -/
theorem exists_matInv (hF : FieldLegal F) (φ : ByteField F K) {A : Matrix8} (hA : square k A = true)
    (hker : ∀ v, φ.mat k k A *ᵥ v = 0 → v = 0) : ∃ B, matInv F k A = some B := by
  cases h : matInv F k A with
  | some B => exact ⟨B, rfl⟩
  | none =>
    obtain ⟨v, hv, hAv⟩ := matInv_eq_none hF φ hA h
    exact absurd (hker v hAv) hv

theorem square_map_encRow {rows : List Nat} (hlen : rows.length = k) :
    square k (rows.map (encRow P k)) = true := by
  simp [square_iff, hlen, encRow_length]

/-- Any `k` distinct encoding rows have an inverse (R147). -/
theorem exists_matInv_encRows (hP : GfLegal P) (hk : k ≤ 256) {rows : List Nat} (hlen : rows.length = k)
    (hnodup : rows.Nodup) (hlt : ∀ r ∈ rows, r < 256) :
    ∃ B, matInv P.field k (rows.map (encRow P k)) = some B := by
  obtain ⟨K, _, ⟨φ⟩⟩ := exists_byteField hP.field
  exact exists_matInv hP.field φ (square_map_encRow hlen)
    fun v => eq_zero_of_encRows_mulVec φ hP hk hlen hnodup hlt

/-- Settles O7: the rows asked for are the encoding rows of those numbers. -/
theorem anyKRowsAreInvertible : Obligations.AnyKRowsAreInvertible := by
  intro P hP k n _ hkn hn rows hlen hnodup hlt
  rw [List.map_congr_left fun r hr => enc_getD (hlt r hr)]
  exact exists_matInv_encRows hP (hkn.trans hn) hlen hnodup fun r hr => (hlt r hr).trans_le hn

/-! ## The Vandermonde form -/

/-- Row `i` of `VDM(n, k)` (R143). -/
def vandermondeRow (P : GfParams) (k i : Nat) : List Byte := (List.range k).map (gpow P.field (P.xpt i))

theorem vandermonde_eq_map (P : GfParams) (n k : Nat) :
    Machine.vandermonde P n k = (List.range n).map (vandermondeRow P k) := rfl

theorem take_vandermonde (hkn : k ≤ n) :
    (Machine.vandermonde P n k).take k = (List.range k).map (vandermondeRow P k) := by
  rw [vandermonde_eq_map, ← List.map_take, List.take_range, Nat.min_eq_left hkn]

theorem square_vandermondeRows : square k ((List.range k).map (vandermondeRow P k)) = true := by
  simp [square_iff, vandermondeRow]

section

variable (φ : ByteField P.field K)

theorem vec_vandermondeRow (k i : Nat) :
    φ.vec k (vandermondeRow P k i) = fun j : Fin k => φ.point P i ^ (j : Nat) := by
  funext j
  simp [ByteField.vec, vandermondeRow, List.getD_eq_getElem?_getD, φ.map_gpow, ByteField.point]

/-- The upper block is Mathlib's square Vandermonde matrix on the first `k` points. -/
theorem mat_vandermondeRows (k : Nat) :
    φ.mat k k ((List.range k).map (vandermondeRow P k)) = Matrix.vandermonde (φ.nodes P k) := by
  funext i
  rw [φ.mat_map _ List.length_range, vec_vandermondeRow, List.getElem_range]
  rfl

/-- An encoding row times the upper Vandermonde block is the Vandermonde row: it takes each power from the
first `k` points to point `r`. -/
theorem vec_encRow_vecMul_vandermonde (hP : GfLegal P) (hk : k ≤ 256) (r : Nat) :
    φ.vec k (encRow P k r) ᵥ* Matrix.vandermonde (φ.nodes P k) = φ.vec k (vandermondeRow P k r) := by
  funext j
  have hdeg : (X ^ (j : Nat) : K[X]).degree < k := by
    rw [degree_X_pow]
    exact_mod_cast j.isLt
  have hpow := vec_encRow_dotProduct φ hP hk r hdeg
  simp only [eval_pow, eval_X] at hpow
  rw [vec_vandermondeRow]
  exact hpow

end

/-- The upper Vandermonde block has an inverse, and it takes Vandermonde rows to encoding rows (R144). -/
theorem exists_vandermonde_inverse (hP : GfLegal P) (hk : k ≤ 256) :
    ∃ T, matInv P.field k ((List.range k).map (vandermondeRow P k)) = some T ∧
      ∀ rows : List Nat, rows.map (encRow P k) =
        matMul P.field k k (rows.map (vandermondeRow P k)) T := by
  obtain ⟨K, _, ⟨φ⟩⟩ := exists_byteField hP.field
  have hdet := det_vandermonde_ne_zero_iff.mpr (φ.nodes_injective hP hk)
  rw [← mat_vandermondeRows] at hdet
  obtain ⟨T, hT⟩ := exists_matInv hP.field φ square_vandermondeRows fun v => eq_zero_of_mulVec_eq_zero hdet
  have hVT := mul_eq_one_comm.mp (matInv_eq_some hP.field φ square_vandermondeRows hT).2
  rw [mat_vandermondeRows] at hVT
  refine ⟨T, hT, fun rows => φ.mat_injective_of_length (k := k) (List.length_map _)
    (by simp [matMul]) (by simp [encRow_length]) (by simp [matMul]) ?_⟩
  rw [φ.mat_matMul (List.length_map _)]
  funext i
  rw [mul_apply_eq_vecMul, φ.mat_map _ rfl, φ.mat_map _ rfl, ← vec_encRow_vecMul_vandermonde φ hP hk,
    vecMul_vecMul, hVT, vecMul_one]

/-- Settles O6: the first rows are the identity by definition, the others by interpolation of the powers. -/
theorem encodingMatrixIsVandermonde : Obligations.EncodingMatrixIsVandermonde := by
  intro P hP k n _ hkn hn
  obtain ⟨T, hT, hrows⟩ := exists_vandermonde_inverse hP (hkn.trans hn)
  refine ⟨by simp [enc], ?_, T, ?_, ?_⟩
  · rw [enc, ← List.map_take, List.take_range, Nat.min_eq_left hkn, identity]
    exact List.map_congr_left fun r hr => if_pos (List.mem_range.mp hr)
  · rwa [take_vandermonde hkn]
  · rw [enc, vandermonde_eq_map, ← List.map_drop, ← List.map_drop, hrows]

end Sys2Proof.Machine
end

section
/-! PROOFS. Decoding (spec/41_erasure_engine.md R155 to R160): the rows of an accepted `DecInput` are encoding
rows, so it has an inverse exactly when no parity index is repeated, and the inverse takes the received blocks,
which are those rows times the data, back to the data. -/

namespace Sys2Proof.Machine

open Matrix

variable {P : GfParams} {F : GfField} {K : Type} [Field K] {k n blen : Nat} {idx : List Nat}

/-! ## Products row by row -/

/-- A product of byte matrices is one sum of rows for each row (R130, R150). -/
theorem matMul_eq_map_laneRow (F : GfField) (k m : Nat) (A B : Matrix8) :
    matMul F k m A B = A.map fun row => laneRow F k m row B := rfl

theorem matMul_getD {A : Matrix8} {i : Nat} (hi : i < A.length) (m : Nat) (B : Matrix8) :
    (matMul F k m A B).getD i [] = laneRow F k m (A.getD i []) B := by
  rw [matMul_eq_map_laneRow, List.getD_eq_getElem _ _ (by simpa using hi), List.getElem_map,
    List.getD_eq_getElem _ _ hi]

theorem getD_mem {α : Type} {l : List α} {i : Nat} (hi : i < l.length) (d : α) : l.getD i d ∈ l := by
  rw [List.getD_eq_getElem _ _ hi]
  exact List.getElem_mem hi

theorem ByteField.vec_laneRow (φ : ByteField F K) (k m : Nat) (coeffs : List Byte) (rows : Matrix8) :
    φ.vec m (laneRow F k m coeffs rows) = φ.vec k coeffs ᵥ* φ.mat k m rows :=
  congrFun (φ.mat_matMul (A := [coeffs]) (m := 1) (k := k) (n := m) rfl rows) 0

/-- The identity row picks a row. -/
theorem laneRow_unitRow (hF : FieldLegal F) {rows : List Bytes} (hlen : rows.length = k)
    (hrow : ∀ r ∈ rows, r.length = blen) {i : Nat} (hi : i < k) :
    laneRow F k blen (unitRow k i) rows = rows.getD i [] := by
  obtain ⟨K, _, ⟨φ⟩⟩ := exists_byteField hF
  refine φ.vec_injective laneRow_length (hrow _ (getD_mem (hlen.symm ▸ hi) [])) ?_
  rw [φ.vec_laneRow, φ.vec_unitRow ⟨i, hi⟩, single_one_vecMul]
  rfl

/-- Where a matrix has the identity row, its inverse has it too. -/
theorem matInv_getD_eq_unitRow (hF : FieldLegal F) {A B : Matrix8} (hA : square k A = true)
    (h : matInv F k A = some B) {i : Nat} (hi : i < k) (hrow : A.getD i [] = unitRow k i) :
    B.getD i [] = unitRow k i := by
  obtain ⟨hB, hAB, -⟩ := (matInvIsTheInverse F hF k A hA).1 B h
  obtain ⟨hBlen, hBrow⟩ := square_iff.mp hB
  have hAi : i < A.length := (square_iff.mp hA).1.symm ▸ hi
  calc B.getD i [] = laneRow F k k (unitRow k i) B := (laneRow_unitRow hF hBlen hBrow hi).symm
    _ = (identity k).getD i [] := by rw [← hrow, ← matMul_getD hAi, hAB]
    _ = unitRow k i := by
      rw [identity, List.getD_eq_getElem _ _ (by simpa using hi), List.getElem_map, List.getElem_range]

/-! ## The matrix of the received blocks -/

/-- An index list that `CheckIdx` accepts has encoding rows throughout (R156). -/
theorem decInput_eq_map_encRow (hidx : checkIdx k n idx = true) :
    decInput P k idx = idx.map (encRow P k) := by
  refine List.ext_getElem (by simp [decInput]) fun i hi _ => ?_
  have hilen : i < idx.length := by simpa [decInput] using hi
  obtain ⟨-, hprimary⟩ := checkIdx_iff.mp hidx i hilen
  rw [List.getD_eq_getElem _ _ hilen] at hprimary
  simpa [decInput] using decInputRow_eq_encRow hprimary

theorem square_decInput (hlen : idx.length = k) (hidx : checkIdx k n idx = true) :
    square k (decInput P k idx) = true := by
  rw [decInput_eq_map_encRow hidx]
  exact square_map_encRow hlen

/-- A primary index stands at its own position, so only a parity index can be repeated (R157). -/
theorem parityDistinct_iff_nodup (hidx : checkIdx k n idx = true) :
    parityDistinct k idx ↔ idx.Nodup := by
  have hprimary {i : Nat} (hi : i < idx.length) : idx[i] < k → idx[i] = i := by
    have := (checkIdx_iff.mp hidx i hi).2
    rwa [List.getD_eq_getElem _ _ hi] at this
  rw [parityDistinct, List.Nodup, List.pairwise_filter, List.pairwise_iff_getElem,
    List.pairwise_iff_getElem]
  refine ⟨fun h i j hi hj hij heq => ?_, fun h i j hi hj hij _ _ => h i j hi hj hij⟩
  have hpi := hprimary hi
  have hpj := hprimary hj
  by_cases hk : idx[i] < k
  · omega
  · exact h i j hi hj hij (by simpa using hk) (by simpa [← heq] using hk) heq

/-- A matrix with two equal rows has no inverse. -/
theorem nodup_of_matInv_map (hF : FieldLegal F) {f : Nat → List Byte} {rows : List Nat} {B : Matrix8}
    (hsq : square k (rows.map f) = true) (h : matInv F k (rows.map f) = some B) : rows.Nodup := by
  obtain ⟨K, _, ⟨φ⟩⟩ := exists_byteField hF
  have hAB := mul_eq_one_comm.mp (matInv_eq_some hF φ hsq h).2
  have hlen : rows.length = k := by simpa using (square_iff.mp hsq).1
  rw [List.Nodup, List.pairwise_iff_getElem]
  intro i j hi hj hij heq
  have hrow : φ.mat k k (rows.map f) ⟨i, hlen ▸ hi⟩ = φ.mat k k (rows.map f) ⟨j, hlen ▸ hj⟩ := by
    rw [φ.mat_map f hlen, φ.mat_map f hlen]
    exact congrArg _ (congrArg f heq)
  have hone : (1 : Matrix (Fin k) (Fin k) K) ⟨i, hlen ▸ hi⟩ =
      (1 : Matrix (Fin k) (Fin k) K) ⟨j, hlen ▸ hj⟩ := by
    rw [← hAB, mul_apply_eq_vecMul, mul_apply_eq_vecMul, hrow]
  have := congrFun hone ⟨i, hlen ▸ hi⟩
  simp [one_apply, hij.ne'] at this

/-- Distinct parity indices: `DecMat` exists (R156, R158). -/
theorem exists_decMat (hP : GfLegal P) (hkn : k ≤ n) (hn : n ≤ 256) (hlen : idx.length = k)
    (hidx : checkIdx k n idx = true) (hdistinct : parityDistinct k idx) :
    ∃ B, decMat P k idx = some B := by
  rw [decMat, decInput_eq_map_encRow hidx]
  refine exists_matInv_encRows hP (hkn.trans hn) hlen ((parityDistinct_iff_nodup hidx).mp hdistinct)
    fun r hr => ?_
  obtain ⟨i, hi, rfl⟩ := List.mem_iff_getElem.mp hr
  obtain ⟨hlt, -⟩ := checkIdx_iff.mp hidx i hi
  rw [List.getD_eq_getElem _ _ hi] at hlt
  omega

/-- A repeated parity index: `DecInput` is singular (R158). -/
theorem decMat_eq_none (hP : GfLegal P) (hlen : idx.length = k) (hidx : checkIdx k n idx = true)
    (hrepeat : ¬parityDistinct k idx) : decMat P k idx = none := by
  rw [Option.eq_none_iff_forall_ne_some]
  intro B hB
  rw [decMat, decInput_eq_map_encRow hidx] at hB
  exact hrepeat ((parityDistinct_iff_nodup hidx).mpr
    (nodup_of_matInv_map hP.field (square_map_encRow hlen) hB))

/-- `DecMat` is a square matrix, the two-sided inverse of `DecInput`, with the identity row at every primary
position (R155, R156). -/
theorem decMat_spec (hP : GfLegal P) (hlen : idx.length = k) (hidx : checkIdx k n idx = true)
    {B : Matrix8} (h : decMat P k idx = some B) : square k B = true ∧
      matMul P.field k k (decInput P k idx) B = identity k ∧
      matMul P.field k k B (decInput P k idx) = identity k ∧
      ∀ i, i < k → idx.getD i 0 < k → B.getD i [] = unitRow k i := by
  have hsq : square k (decInput P k idx) = true := square_decInput hlen hidx
  obtain ⟨hB, hAB, hBA, -⟩ := (matInvIsTheInverse P.field hP.field k _ hsq).1 B h
  refine ⟨hB, hAB, hBA, fun i hi hprimary => matInv_getD_eq_unitRow hP.field hsq h hi ?_⟩
  have hilen : i < idx.length := hlen.symm ▸ hi
  rw [List.getD_eq_getElem _ _ hilen] at hprimary
  rw [List.getD_eq_getElem _ _ (by simpa [decInput] using hilen)]
  simp [decInput, decInputRow, hprimary]

/-! ## The round trip -/

/-- A row of Decode byte by byte (R162). -/
theorem decodeRow_eq {ins : List Bytes} {B : Matrix8} (hB : square k B = true) (hins : ins.length = k)
    (hrow : ∀ r ∈ ins, r.length = blen) {i : Nat} (hi : i < k) :
    decodeRow P k blen idx ins B i = if idx.getD i 0 < k then ins.getD i []
      else laneRow P.field k blen (B.getD i []) ins := by
  obtain ⟨hBlen, hBrow⟩ := square_iff.mp hB
  rw [decodeRow, combine_eq_laneRow (hBrow _ (getD_mem (hBlen.symm ▸ hi) [])) hins hrow]

/-- Decode of operands that pass its tests (R162). -/
theorem engineDecode_eq_ok {ins : List Bytes} {B : Matrix8} (hkn : validKN k n = true)
    (hlen : idx.length = k) (hins : ins.length = k) (hidx : checkIdx k n idx = true)
    (hB : decMat P k idx = some B) : engineDecode P true k n blen idx ins =
      .ok ((List.range k).map (decodeRow P k blen idx ins B)) := by
  simp [engineDecode, hkn, hlen, hins, hidx, hB]

/-- Every block of a code word, primary or parity, is its encoding row times the data rows (R150, R160). -/
theorem codeBlock_eq_laneRow (hF : FieldLegal P.field) {d : List Bytes} (hd : d.length = k)
    (hrow : ∀ r ∈ d, r.length = blen) (r : Nat) :
    codeBlock P k blen d r = laneRow P.field k blen (encRow P k r) d := by
  unfold codeBlock
  split
  · next hr => rw [encRow, if_pos hr, laneRow_unitRow hF hd hrow hr]
  · rfl

/-- The inverse of some encoding rows takes the blocks of those numbers to the data rows (R160). -/
theorem matMul_codeBlocks (hF : FieldLegal P.field) {d : List Bytes} (hd : d.length = k)
    (hrow : ∀ r ∈ d, r.length = blen) {rows : List Nat} (hlen : rows.length = k) {B : Matrix8}
    (hB : matInv P.field k (rows.map (encRow P k)) = some B) :
    matMul P.field k blen B (rows.map (codeBlock P k blen d)) = d := by
  obtain ⟨K, _, ⟨φ⟩⟩ := exists_byteField hF
  obtain ⟨hBsq, hBE⟩ := matInv_eq_some hF φ (square_map_encRow hlen) hB
  obtain ⟨hBlen, -⟩ := square_iff.mp hBsq
  have hblocks : rows.map (codeBlock P k blen d) =
      matMul P.field k blen (rows.map (encRow P k)) d := by
    rw [funext (codeBlock_eq_laneRow hF hd hrow), matMul_eq_map_laneRow, List.map_map]
    rfl
  refine φ.mat_injective_of_length (m := k) (by simp [matMul, hBlen]) hd (by simp [matMul]) hrow ?_
  rw [hblocks, φ.mat_matMul hBlen, φ.mat_matMul (by simpa using hlen), ← Matrix.mul_assoc, hBE,
    Matrix.one_mul]

/-- Settles O8: a primary row is passed through, every other row is a row of the inverse times the blocks. -/
theorem roundTripLaw : Obligations.RoundTripLaw := by
  intro P hP k n blen d idx hk hkn hn hd hrow hlen hpos hdistinct
  have hidx : checkIdx k n idx = true := checkIdx_iff.mpr (hlen.symm ▸ hpos)
  obtain ⟨B, hB⟩ := exists_decMat hP hkn hn hlen hidx hdistinct
  obtain ⟨hBsq, -⟩ := decMat_spec hP hlen hidx hB
  have hins : (idx.map (codeBlock P k blen d)).length = k := by simpa using hlen
  have hinsrow : ∀ r ∈ idx.map (codeBlock P k blen d), r.length = blen := by
    simp [codeBlock_eq_laneRow hP.field hd hrow, laneRow_length]
  rw [engineDecode_eq_ok (validKN_iff.mpr ⟨hk, hkn, hn⟩) hlen hins hidx hB, Except.ok.injEq]
  refine List.ext_getElem (by simp [hd]) fun i hi hid => ?_
  have hik : i < k := hd ▸ hid
  have hilen : i < idx.length := hlen.symm ▸ hik
  rw [List.getElem_map, List.getElem_range, decodeRow_eq hBsq hins hinsrow hik]
  split
  · next hprimary =>
    have hself := (hpos i hik).2 hprimary
    rw [List.getD_eq_getElem _ _ hilen] at hself
    rw [List.getD_eq_getElem _ _ (by simpa using hilen), List.getElem_map, hself, codeBlock, if_pos hik,
      List.getD_eq_getElem _ _ hid]
  · rw [decMat, decInput_eq_map_encRow hidx] at hB
    have hBi : i < B.length := (square_iff.mp hBsq).1.symm ▸ hik
    rw [← matMul_getD hBi, matMul_codeBlocks hP.field hd hrow hlen hB, List.getD_eq_getElem _ _ hid]

end Sys2Proof.Machine
end

section
/-! PROOFS. The ECE commands (spec/41_erasure_engine.md R145, R150, R155, R159): the tests that all of them make
first, once, then the tests of each and its record. -/

namespace Sys2Proof.Machine

variable {P : Params} {i : Instr} {s : State} {op : Byte}

/-! ## The tests every ECE command makes -/

/-- While `fatal = 1` a command under the E_FAULTED test is rejected (R308). -/
theorem answers_faulted {body : State → State} (hexec : execWith P i s = .next (unlessFatal op body s))
    (hf : s.fatal = true) : Answers P i s (s.ended op [] .eFaulted) :=
  answers_of_execWith (by rw [hexec, unlessFatal_faulted _ _ _ hf])

theorem answers_running {body : State → State} {t : State}
    (hexec : execWith P i s = .next (unlessFatal op body s)) (hf : s.fatal = false) (ht : body s = t) :
    Answers P i s t :=
  answers_of_execWith (by rw [hexec, unlessFatal_running _ _ _ hf, ht])

/-- ECE.ENCODE, ECE.BUILDDEC and ECE.DECODE test E_FAULTED, E_NOINIT and E_KN in this order; then the command
is rejected with the status of the tests that are left, or emits one record (R150, R155, R159). -/
theorem engine_answers {α : Type} {record : α → Record} {k n : Nat} {rest : Except Status α}
    (hexec : execWith P i s = .next (unlessFatal op (fun s => engineDone op record
      (if s.gf.gfReady = false then .error .eNoinit
        else if validKN k n = false then .error .eKn else rest) s) s)) :
    (s.fatal = true → Answers P i s (s.ended op [] .eFaulted)) ∧
    (s.fatal = false → s.gf.gfReady = false → Answers P i s (s.ended op [] .eNoinit)) ∧
    (s.fatal = false → s.gf.gfReady = true → ¬(1 ≤ k ∧ k ≤ n ∧ n ≤ 256) →
      Answers P i s (s.ended op [] .eKn)) ∧
    (s.fatal = false → s.gf.gfReady = true → 1 ≤ k → k ≤ n → n ≤ 256 →
      (∀ st, rest = .error st → Answers P i s (s.ended op [] st)) ∧
      (∀ a, rest = .ok a → Answers P i s (s.ended op [record a] .ok))) := by
  refine ⟨answers_faulted hexec, fun hf hr => answers_running hexec hf ?_,
    fun hf hr hkn => answers_running hexec hf ?_, fun hf hr hk hkn hn => ?_⟩
  · simp only [hr, if_true, engineDone, reject_eq_finish, finish_eq_ended]
  · have hinvalid : validKN k n = false := Bool.eq_false_iff.mpr (mt validKN_iff.mp hkn)
    simp [hr, hinvalid, engineDone, finish_eq_ended]
  · have hvalid : validKN k n = true := validKN_iff.mpr ⟨hk, hkn, hn⟩
    refine ⟨fun st hst => answers_running hexec hf ?_, fun a ha => answers_running hexec hf ?_⟩
    · simp [hr, hvalid, hst, engineDone, finish_eq_ended]
    · simp [hr, hvalid, ha, engineDone]

/-! ## ECE.NEWMATRIX and ECE.ENCODE -/

/-- Settles O9: the tests of R145 in their order; `E_KN` alone sets `fatal`. -/
theorem newMatrixEmitsParityRows : Obligations.NewMatrixEmitsParityRows := by
  intro P k n s
  have hexec : execWith P (.eceNewmatrix k n) s = .next (unlessFatal 0x02 (newMatrix P.gf k n) s) := rfl
  refine ⟨answers_faulted hexec, fun hf hr => answers_running hexec hf ?_,
    fun hf hr hkn => answers_running hexec hf ?_, fun hf hr hk hkn hn => answers_running hexec hf ?_⟩
  · rw [newMatrix, if_pos hr, reject_eq_finish, finish_eq_ended]
  · rw [newMatrix, if_neg (by simp [hr]), if_pos (Bool.eq_false_iff.mpr (mt validKN_iff.mp hkn)),
      reject_eq_finish, finish_eq_ended]
  · rw [newMatrix, if_neg (by simp [hr]), if_neg (by simp [validKN_iff, hk, hkn, hn]), finish_emitAll,
      parityRows]

/-- A parity block byte by byte (R150). -/
theorem parityBlock_eq_laneRow {P : GfParams} {k n blen r : Nat} {rows : List Bytes} (hr : r < n)
    (hlen : rows.length = k) (hrow : ∀ row ∈ rows, row.length = blen) :
    parityBlock P k blen rows r = laneRow P.field k blen ((enc P k n).getD r []) rows := by
  rw [parityBlock, combine_eq_laneRow (encRow_length P k r) hlen hrow, enc_getD hr]

/-- Settles O10: the tests of R150 in their order, then `parityBlock_eq_laneRow` for each number asked for. -/
theorem encodeComputesParityRows : Obligations.EncodeComputesParityRows := by
  intro P k n blen blocks rows s hrow
  obtain ⟨hfaulted, hnoinit, hinvalid, hrun⟩ :=
    engine_answers (P := P) (i := .eceEncode k n blen blocks rows) (s := s) rfl
  refine ⟨hfaulted, hnoinit, hinvalid, fun hf hr hk hkn hn => ?_⟩
  obtain ⟨herror, hok⟩ := hrun hf hr hk hkn hn
  refine ⟨fun hlen => herror _ (if_pos hlen), fun hlen hbad => herror _ ?_,
    fun hlen hgood => ?_⟩
  · rw [if_neg (not_not.mpr hlen), if_pos (by simpa using hbad)]
  · have hblocks : (blocks.map BitVec.toNat).map (parityBlock P.gf k.toNat blen.toNat rows) =
        blocks.map fun b => laneRow P.gf.field k.toNat blen.toNat
          ((enc P.gf k.toNat n.toNat).getD b.toNat []) rows := by
      rw [List.map_map]
      exact List.map_congr_left fun b hb => parityBlock_eq_laneRow (hgood b hb).2 hlen hrow
    refine hblocks ▸ hok _ ?_
    rw [if_neg (not_not.mpr hlen), if_neg (by simpa using hgood)]

/-! ## ECE.BUILDDEC and ECE.DECODE -/

theorem map_toNat_getD (idx : List (BitVec 16)) (i : Nat) :
    (idx.map BitVec.toNat).getD i 0 = (idx.getD i 0).toNat :=
  List.getD_map idx 0 BitVec.toNat

/-- `CheckIdx` of the operand, position by position (R157). -/
theorem checkIdx_map_toNat_iff {k n : Nat} {idx : List (BitVec 16)} (hlen : idx.length = k) :
    checkIdx k n (idx.map BitVec.toNat) = true ↔ ∀ i, i < k →
      (idx.getD i 0).toNat < n ∧ ((idx.getD i 0).toNat < k → (idx.getD i 0).toNat = i) := by
  simp only [checkIdx_iff, List.length_map, hlen, map_toNat_getD]

theorem checkIdx_map_toNat_eq_false {k n : Nat} {idx : List (BitVec 16)} (hlen : idx.length = k)
    (hbad : ∃ i, i < k ∧ (n ≤ (idx.getD i 0).toNat ∨
      ((idx.getD i 0).toNat < k ∧ (idx.getD i 0).toNat ≠ i))) :
    checkIdx k n (idx.map BitVec.toNat) = false := by
  obtain ⟨i, hi, hbad⟩ := hbad
  rw [Bool.eq_false_iff, Ne, checkIdx_map_toNat_iff hlen]
  intro hgood
  have := hgood i hi
  omega

/-- Settles O11: the tests of R155 in their order, then `decMat_spec`. -/
theorem buildDecEmitsInverse : Obligations.BuildDecEmitsInverse := by
  intro P k n idx s hP
  obtain ⟨hfaulted, hnoinit, hinvalid, hrun⟩ :=
    engine_answers (P := P) (i := .eceBuilddec k n idx) (s := s) rfl
  refine ⟨hfaulted, hnoinit, hinvalid, fun hf hr hk hkn hn => ?_⟩
  obtain ⟨herror, hok⟩ := hrun hf hr hk hkn hn
  have hmap {l : Nat} (hlen : idx.length = l) : (idx.map BitVec.toNat).length = l := by simpa using hlen
  refine ⟨fun hlen => herror _ (if_pos (by simpa using hlen)), fun hlen hbad => herror _ ?_,
    fun hlen hgood => ?_⟩
  · rw [if_neg (not_not.mpr (hmap hlen)), if_pos (checkIdx_map_toNat_eq_false hlen hbad)]
  have hidx := (checkIdx_map_toNat_iff hlen).mpr hgood
  refine ⟨fun hrepeat => herror _ ?_, fun hdistinct => ?_⟩
  · simp [hlen, hidx, decMat_eq_none hP (hmap hlen) hidx hrepeat]
  · obtain ⟨B, hB⟩ := exists_decMat hP hkn hn (hmap hlen) hidx hdistinct
    obtain ⟨hsq, hAB, hBA, hprimary⟩ := decMat_spec hP (hmap hlen) hidx hB
    refine ⟨B, hok B ?_, hsq, hAB, hBA, fun i hi hlt => hprimary i hi ?_⟩
    · simp [hlen, hidx, hB]
    · rwa [map_toNat_getD]

/-- Settles O12: the tests of R159 in their order, then `decodeRow_eq` for each row. -/
theorem decodeRecomputesMissingRows : Obligations.DecodeRecomputesMissingRows := by
  intro P k n blen idx ins s hP hrow
  obtain ⟨hfaulted, hnoinit, hinvalid, hrun⟩ :=
    engine_answers (P := P) (i := .eceDecode k n blen idx ins) (s := s) rfl
  refine ⟨hfaulted, hnoinit, hinvalid, fun hf hr hk hkn hn => ?_⟩
  obtain ⟨herror, hok⟩ := hrun hf hr hk hkn hn
  have hmap {l : Nat} (hlen : idx.length = l) : (idx.map BitVec.toNat).length = l := by simpa using hlen
  refine ⟨fun hlen => herror _ (if_pos (by simpa using hlen)), fun hlen hins hbad => herror _ ?_,
    fun hlen hins hgood => ?_⟩
  · rw [if_neg (by simp [hlen, hins]), if_pos (checkIdx_map_toNat_eq_false hlen hbad)]
  have hidx := (checkIdx_map_toNat_iff hlen).mpr hgood
  refine ⟨fun hrepeat => herror _ ?_, fun hdistinct => ?_⟩
  · simp [hlen, hins, hidx, decMat_eq_none hP (hmap hlen) hidx hrepeat]
  · obtain ⟨B, hB⟩ := exists_decMat hP hkn hn (hmap hlen) hidx hdistinct
    obtain ⟨hsq, -⟩ := decMat_spec hP (hmap hlen) hidx hB
    have hrows : (List.range k.toNat).map
          (decodeRow P.gf k.toNat blen.toNat (idx.map BitVec.toNat) ins B) =
        (List.range k.toNat).map fun i => if (idx.getD i 0).toNat < k.toNat then ins.getD i []
          else laneRow P.gf.field k.toNat blen.toNat (B.getD i []) ins := by
      refine List.map_congr_left fun i hi => ?_
      rw [decodeRow_eq hsq hins hrow (List.mem_range.mp hi), map_toNat_getD]
    refine ⟨B, hB, ?_⟩
    rw [← hrows, BitVec.ofNat_toNat]
    exact hok _ (by simp [hlen, hins, hidx, hB])

end Sys2Proof.Machine
end

section
/-! PROOFS. RTP.PARSE as one command (spec/42_rtp_parser.md R170): its tests in their order over the statement's
header length and padding count, then how each verdict of the parser ends the command. -/

namespace Sys2Proof.Machine

variable {B : Bytes} {s : State}

/-- The statement's header length is the parser's (R174). -/
theorem rtpHdr_eq_rtpHeaderBytes (B : Bytes) : rtpHdr B = rtpHeaderBytes B := by
  unfold rtpHdr rtpX rtpCsrcEnd rtpHeaderBytes
  split <;> omega

/-- The payload length is what the header and the padding leave, as an integer (R177). -/
theorem rtpPlen_eq_sub_rtpPadding (B : Bytes) :
    rtpPlen B = (B.length : Int) - rtpHeaderBytes B - rtpPadding B := by
  rw [rtpPlen, rtpHdr_eq_rtpHeaderBytes, rtpP, rtpPadding, Nat.cast_ite, Nat.cast_zero]

/-- An extension header that is cut (R175) is a header past the end of the datagram (R176), with the same
status: the two tests are one. -/
theorem rtpParse_eq_ite (B : Bytes) : rtpParse B =
    if B.length < 12 then .error .eRtpShort
    else if (byteAt B 0).extractLsb' 6 2 ≠ 2#2 then .error .eRtpVersion
    else if B.length < rtpHdr B then .error .eRtpHdrlen
    else if rtpPlen B ≤ 0 then .error .eRtpPayload
    else .ok (rtpFields B) := by
  by_cases hext : rtpX B = true ∧ rtpCsrcEnd B + 4 > B.length
  · have hhdr : B.length < rtpHdr B := hext.2.trans_le (rtpCsrcEnd_add_four_le_rtpHdr hext.1)
    rw [rtpParse, if_pos hext, if_pos hhdr]
  · rw [rtpParse, if_neg hext]

/-- A malformed datagram is counted and reported (R170, `fail`). -/
theorem exec_rtpParse_of_error {st : Status} (hf : s.fatal = false) (h : rtpParse B = .error st) :
    exec (.rtpParse B) s =
      .next ({ s with rtpMalformed := s.rtpMalformed + 1 }.ended 0x10 [.drop .rtp st] st) := by
  rw [exec_rtpParse, unlessFatal_running _ _ _ hf]
  simp only [parseDatagram, h, reject_eq_finish, finish_emitAll]

theorem exec_rtpParse_of_ok {h : ParsedRtp} (hf : s.fatal = false) (hp : rtpParse B = .ok h) :
    exec (.rtpParse B) s = .next (s.ended 0x10 [.parsed h] .ok) := by
  rw [exec_rtpParse, unlessFatal_running _ _ _ hf]
  simp only [parseDatagram, hp, finish_emitAll]

/-- The fields of a datagram of version 2, with the payload range as the statement counts it (R173, R180). -/
theorem rtpFields_of_version (hv : (byteAt B 0).extractLsb' 6 2 = 2#2) : rtpFields B =
    { v := 2#2, p := (byteAt B 0).getLsbD 5, x := (byteAt B 0).getLsbD 4
      cc := (byteAt B 0).extractLsb' 0 4, m := (byteAt B 1).getLsbD 7
      pt := (byteAt B 1).extractLsb' 0 7, seq := be16 B 2, ts := be32 B 4
      ssrc := be32 B 8, payloadOff := BitVec.ofNat 16 (rtpHeaderBytes B)
      payloadLen := BitVec.ofNat 16 (B.length - rtpHeaderBytes B - rtpPadding B) } := by
  have hlen : (rtpPlen B).toNat = B.length - rtpHeaderBytes B - rtpPadding B := by
    rw [rtpPlen_eq_sub_rtpPadding]
    omega
  rw [rtpFields, hv, rtpHdr_eq_rtpHeaderBytes, hlen, rtpP, rtpX]

/-- Settles O13: the tests of `rtpParse_eq_ite` in their order, then the fields of an accepted datagram. -/
theorem parserTestsAndFields : Obligations.ParserTestsAndFields := by
  intro B s
  have hhdr := rtpHdr_eq_rtpHeaderBytes B
  have hplen := rtpPlen_eq_sub_rtpPadding B
  refine ⟨fun hf => ?faulted, fun hf => ⟨fun hshort => ?short, fun hlen hv => ?version, fun hlen hv =>
    ⟨fun hcut => ?hdrlen, fun hfit hempty => ?payload, fun hrest => ?parsed⟩⟩⟩
  case faulted => rw [exec_rtpParse, unlessFatal_faulted _ _ _ hf]
  case short => exact exec_rtpParse_of_error hf (by rw [rtpParse_eq_ite, if_pos hshort])
  case version =>
    exact exec_rtpParse_of_error hf (by rw [rtpParse_eq_ite, if_neg hlen.not_gt, if_pos hv])
  case hdrlen =>
    refine exec_rtpParse_of_error hf ?_
    rw [rtpParse_eq_ite, if_neg hlen.not_gt, if_neg (not_not.mpr hv), if_pos (hhdr ▸ hcut)]
  case payload =>
    refine exec_rtpParse_of_error hf ?_
    rw [rtpParse_eq_ite, if_neg hlen.not_gt, if_neg (not_not.mpr hv), if_neg (by omega),
      if_pos (by omega)]
  case parsed =>
    refine exec_rtpParse_of_ok hf ?_
    exact rtpParse_eq_ok_iff.mpr ⟨hlen, hv, by omega, by omega, rtpFields_of_version hv⟩

end Sys2Proof.Machine
end

section
/-! PROOFS. The commands of the reorder buffer (spec/43_reorder_buffer.md R187, R199, R208): the verdicts of
ROB.ACCEPT and ROB.TIMER as exact next states, and what either can do, said once. -/

namespace Sys2Proof.Machine

variable {pkt : Packet} {arrival : W32} {s t : State}

/-- A command has one next state. -/
theorem eq_of_exec {i : Instr} {u : State} (h : exec i s = .next t) (hu : exec i s = .next u) :
    t = u :=
  Host.Outcome.next.inj (h.symm.trans hu)

/-! ## ROB.ACCEPT -/

/-- The meaning of ROB.ACCEPT (R187). -/
theorem exec_robAccept (pkt : Packet) (arrival : W32) (s : State) :
    exec (.robAccept pkt arrival) s = .next (unlessFatal 0x20
      (fun s => if pkt.payload = [] then reject 0x20 .eOperand s else acceptPacket pkt arrival s) s) :=
  rfl

theorem exec_robAccept_of_fatal (hf : s.fatal = true) :
    exec (.robAccept pkt arrival) s = .next (s.ended 0x20 [] .eFaulted) := by
  rw [exec_robAccept, unlessFatal_faulted _ _ _ hf]

theorem exec_robAccept_of_empty (hf : s.fatal = false) (hp : pkt.payload = []) :
    exec (.robAccept pkt arrival) s = .next (s.ended 0x20 [] .eOperand) := by
  rw [exec_robAccept, unlessFatal_running _ _ _ hf, if_pos hp, reject_eq_finish, finish_eq_ended]

/-- A packet in the irrecoverably late class is dropped (R192). -/
theorem exec_robAccept_of_late (hf : s.fatal = false) (hp : pkt.payload ≠ [])
    (hl : isLate s.csr.lateThreshold (robStart pkt.seq s.rob).expected pkt.seq = true) :
    exec (.robAccept pkt arrival) s =
      .next ({ s with rob := (robLateDrop pkt.seq (robStart pkt.seq s.rob)).1 }.ended 0x20
        (robLateDrop pkt.seq (robStart pkt.seq s.rob)).2 .sLate) := by
  rw [exec_robAccept, unlessFatal_running _ _ _ hf, if_neg hp]
  simp only [acceptPacket, if_pos hl, finish_emitAll]

/-- Every other packet is inserted (R187). -/
theorem exec_robAccept_of_not_late (hf : s.fatal = false) (hp : pkt.payload ≠ [])
    (hl : isLate s.csr.lateThreshold (robStart pkt.seq s.rob).expected pkt.seq = false) :
    exec (.robAccept pkt arrival) s =
      .next ({ s with
          rob := (robInsert s.csr pkt arrival (!s.rob.started) (robStart pkt.seq s.rob)).1 }.ended 0x20
        (robInsert s.csr pkt arrival (!s.rob.started) (robStart pkt.seq s.rob)).2 .ok) := by
  rw [exec_robAccept, unlessFatal_running _ _ _ hf, if_neg hp]
  simp only [acceptPacket, hl, Bool.false_eq_true, if_false, finish_emitAll]

/-- What ROB.ACCEPT can do (R187): nothing, a late drop, or an insertion. -/
theorem exec_robAccept_cases (h : exec (.robAccept pkt arrival) s = .next t) :
    (∃ st, t = s.ended 0x20 [] st) ∨
    (isLate s.csr.lateThreshold (robStart pkt.seq s.rob).expected pkt.seq = true ∧
      t = { s with rob := (robLateDrop pkt.seq (robStart pkt.seq s.rob)).1 }.ended 0x20
        (robLateDrop pkt.seq (robStart pkt.seq s.rob)).2 .sLate) ∨
    (pkt.payload ≠ [] ∧
      t = { s with
          rob := (robInsert s.csr pkt arrival (!s.rob.started) (robStart pkt.seq s.rob)).1 }.ended 0x20
        (robInsert s.csr pkt arrival (!s.rob.started) (robStart pkt.seq s.rob)).2 .ok) := by
  rcases Bool.eq_false_or_eq_true s.fatal with hf | hf
  · exact .inl ⟨_, eq_of_exec h (exec_robAccept_of_fatal hf)⟩
  · by_cases hp : pkt.payload = []
    · exact .inl ⟨_, eq_of_exec h (exec_robAccept_of_empty hf hp)⟩
    · cases hl : isLate s.csr.lateThreshold (robStart pkt.seq s.rob).expected pkt.seq with
      | true => exact .inr (.inl ⟨rfl, eq_of_exec h (exec_robAccept_of_late hf hp hl)⟩)
      | false => exact .inr (.inr ⟨hp, eq_of_exec h (exec_robAccept_of_not_late hf hp hl)⟩)

/-- The late class in the statement's words (R189). -/
theorem isLate_iff {threshold : BitVec 16} {expected seq : Seq} :
    isLate threshold expected seq = true ↔
      threshold.toNat < sdist expected seq ∧ sdist expected seq < 32768 := by
  simp [isLate]

/-- A distance as a 16-bit word is the difference (R12). -/
theorem ofNat_sdist (a b : Seq) : BitVec.ofNat 16 (sdist a b) = a - b := BitVec.ofNat_toNat _ _

/-- Settles O15: the verdicts in their order; `robStart` and `robInsert` are the statement's steps. -/
theorem acceptRunsItsProcedure : Obligations.AcceptRunsItsProcedure := by
  intro pkt arrival s r hr
  obtain rfl : r = robStart pkt.seq s.rob := hr
  refine ⟨exec_robAccept_of_fatal, exec_robAccept_of_empty, fun hf hp hlow hhigh => ?late,
    fun hf hp hl => ?inserted⟩
  case late =>
    rw [exec_robAccept_of_late hf hp (isLate_iff.mpr ⟨hlow, hhigh⟩), ofNat_sdist]
    rfl
  case inserted =>
    rintro _ _ _ rfl rfl rfl
    exact exec_robAccept_of_not_late hf hp (Bool.eq_false_iff.mpr (mt isLate_iff.mp hl))

/-! ## ROB.TIMER and ROB.RESTART -/

/-- The meaning of ROB.TIMER (R199). -/
theorem exec_robTimer (s : State) : exec .robTimer s = .next (unlessFatal 0x21 robTimer s) := rfl

theorem exec_robTimer_of_fatal (hf : s.fatal = true) :
    exec .robTimer s = .next (s.ended 0x21 [] .eFaulted) := by
  rw [exec_robTimer, unlessFatal_faulted _ _ _ hf]

theorem exec_robTimer_of_disarmed (hf : s.fatal = false) (ht : s.rob.timer = false) :
    exec .robTimer s = .next (s.ended 0x21 [] .sNotArmed) := by
  rw [exec_robTimer, unlessFatal_running _ _ _ hf, robTimer, if_pos ht, finish_eq_ended]

theorem exec_robTimer_of_armed (hf : s.fatal = false) (ht : s.rob.timer = true) :
    exec .robTimer s =
      .next ({ s with rob := (timerFlush s.rob).1 }.ended 0x21 (timerFlush s.rob).2 .ok) := by
  rw [exec_robTimer, unlessFatal_running _ _ _ hf, robTimer, if_neg (by simp [ht]), finish_emitAll]

/-- What ROB.TIMER can do (R199): nothing, or a forced advance of an armed buffer. -/
theorem exec_robTimer_cases (h : exec .robTimer s = .next t) :
    (∃ st, t = s.ended 0x21 [] st) ∨
    (s.rob.timer = true ∧
      t = { s with rob := (timerFlush s.rob).1 }.ended 0x21 (timerFlush s.rob).2 .ok) := by
  rcases Bool.eq_false_or_eq_true s.fatal with hf | hf
  · exact .inl ⟨_, eq_of_exec h (exec_robTimer_of_fatal hf)⟩
  · rcases Bool.eq_false_or_eq_true s.rob.timer with ht | ht
    · exact .inr ⟨ht, eq_of_exec h (exec_robTimer_of_armed hf ht)⟩
    · exact .inl ⟨_, eq_of_exec h (exec_robTimer_of_disarmed hf ht)⟩

/-- Settles O21: `timerFlush` is ForceAdvance between disarming and arming again. -/
theorem timerForcesAdvance : Obligations.TimerForcesAdvance := by
  refine fun s => ⟨exec_robTimer_of_fatal, exec_robTimer_of_disarmed, fun hf ht => ?_⟩
  rintro _ rfl
  exact exec_robTimer_of_armed hf ht

/-- The meaning of ROB.RESTART (R208). -/
theorem exec_robRestart (s : State) :
    exec .robRestart s =
      .next (unlessFatal 0x22 (fun s => finish 0x22 .ok { s with rob := robRestart s.rob }) s) := rfl

/-- Settles O22: `robRestart` writes every field of the unit. -/
theorem restartClearsReorderBuffer : Obligations.RestartClearsReorderBuffer := by
  refine fun s => ⟨fun hf => ?_, fun hf => ?_⟩
  · rw [exec_robRestart, unlessFatal_faulted _ _ _ hf]
  · rw [exec_robRestart, unlessFatal_running _ _ _ hf, finish_eq_ended]
    rfl

end Sys2Proof.Machine
end

section
/-! PROOFS. The walk of `expected` (spec/43_reorder_buffer.md R193, R194, R200) and the bound of the window
(R196): no other unit appends a record of the walk, one command extends it, and runs follow by induction. -/

namespace Sys2Proof.Machine

variable {s t u : State}

/-! ## Records that leave the walk alone -/

/-- No record of the list is a `RobEmit` or a `RobSkip`. -/
def NoRobMoves (recs : List Record) : Prop := ∀ r ∈ recs, isRobMove r = false

@[simp] theorem noRobMoves_nil : NoRobMoves [] := by simp [NoRobMoves]

@[simp] theorem noRobMoves_cons {r : Record} {recs : List Record} :
    NoRobMoves (r :: recs) ↔ isRobMove r = false ∧ NoRobMoves recs := List.forall_mem_cons

@[simp] theorem noRobMoves_append {a b : List Record} :
    NoRobMoves (a ++ b) ↔ NoRobMoves a ∧ NoRobMoves b := List.forall_mem_append

/-- Such records do not move `expected` (R200). -/
theorem robTrace_of_noRobMoves (e : Seq) {recs : List Record} (h : NoRobMoves recs) :
    robTrace e recs = some e := by
  induction recs with
  | nil => rfl
  | cons r recs ih =>
    obtain ⟨hr, hrecs⟩ := noRobMoves_cons.mp h
    cases r with
    | robEmit | robSkip => simp [isRobMove] at hr
    | _ => exact ih hrecs

/-- A walk followed by such records (R200). -/
theorem robTrace_append_noRobMoves {e e' : Seq} {a b : List Record} (ha : robTrace e a = some e')
    (hb : NoRobMoves b) : robTrace e (a ++ b) = some e' :=
  (robTrace_append ha).trans (robTrace_of_noRobMoves e' hb)

/-! ## The depacketizer -/

theorem closeAu_noRobMoves {x : DepOut} (h : NoRobMoves x.2) : NoRobMoves (closeAu x).2 := by
  simp [closeAu, h, isRobMove]

theorem addNal_noRobMoves (ts : W32) (bytes : Bytes) {x : DepOut} (h : NoRobMoves x.2) :
    NoRobMoves (addNal ts bytes x).2 := by
  have hboundary : NoRobMoves (boundaryByTs ts x).2 := by
    unfold boundaryByTs
    split
    · exact closeAu_noRobMoves h
    · exact h
  simp [addNal, hboundary, isRobMove]

theorem stapLoop_noRobMoves (ts : W32) (fuel : Nat) (B : Bytes) {x : DepOut} (h : NoRobMoves x.2) :
    NoRobMoves (stapLoop ts fuel B x).1.2 := by
  induction fuel generalizing B x with
  | zero => exact h
  | succ fuel ih =>
    unfold stapLoop
    split_ifs
    · exact h
    · exact h
    · exact h
    · exact ih _ h
    · exact ih _ (addNal_noRobMoves _ _ h)

theorem fuFinish_noRobMoves (fh : Byte) {x : DepOut} (h : NoRobMoves x.2) :
    NoRobMoves (fuFinish fh x).2 := by
  unfold fuFinish
  split
  · exact addNal_noRobMoves _ _ h
  · exact h

theorem fuA_noRobMoves (ts : W32) (payload : Bytes) {x : DepOut} (h : NoRobMoves x.2) :
    NoRobMoves (fuA ts payload x).1.2 := by
  unfold fuA
  split_ifs
  · exact h
  · exact fuFinish_noRobMoves _ h
  · exact h
  · exact h
  · exact fuFinish_noRobMoves _ h

theorem dispatchNal_noRobMoves (ts : W32) (payload : Bytes) {x : DepOut} (h : NoRobMoves x.2) :
    NoRobMoves (dispatchNal ts payload x).1.2 := by
  simp only [dispatchNal]
  split_ifs
  · exact addNal_noRobMoves _ _ h
  · exact stapLoop_noRobMoves _ _ _ h
  · exact fuA_noRobMoves _ _ h
  · exact h

theorem checkSeq_noRobMoves (threshold : BitVec 16) (seq : Seq) {x : DepOut} (h : NoRobMoves x.2) :
    NoRobMoves (checkSeq threshold seq x).2 := by
  simp only [checkSeq]
  split
  · simp [h, isRobMove]
  · exact h

/-- DEP.PACKET, in every state of the unit (R250). -/
theorem depStep_noRobMoves (threshold : BitVec 16) (seq : Seq) (ts : W32) (m : Bool) (payload : Bytes)
    (d : Dep) : NoRobMoves (depStep threshold seq ts m payload d).1.2 := by
  have hdispatch := dispatchNal_noRobMoves ts payload
    (checkSeq_noRobMoves threshold seq (x := (d, [])) noRobMoves_nil)
  have hnote : ∀ y : DepOut × Status, NoRobMoves y.1.2 → NoRobMoves (noteMalformed y).2 := by
    intro y h
    unfold noteMalformed
    split
    · exact h
    · simp [h, isRobMove]
  simp only [depStep, markerClose]
  split
  · exact closeAu_noRobMoves (hnote _ hdispatch)
  · exact hnote _ hdispatch

/-! ## The group assembler -/

/-- A record of the group assembler is none of the walk. -/
theorem noRobMoves_of_isGrpRecord {recs : List Record} (h : ∀ r ∈ recs, isGrpRecord r = true) :
    NoRobMoves recs := by
  intro r hr
  have hgrp := h r hr
  cases r with
  | robEmit | robSkip => simp [isGrpRecord] at hgrp
  | _ => rfl

theorem flushGroup_noRobMoves (P : GfParams) (ready : Bool) (g : Group) (cause : Cause) {x : GrpOut}
    (h : NoRobMoves x.2) : NoRobMoves (flushGroup P ready g cause x).2 := by
  obtain ⟨-, recs, he, hrecs⟩ := flushGroup_groups P ready g cause x
  rw [he]
  exact noRobMoves_append.mpr ⟨h, noRobMoves_of_isGrpRecord hrecs⟩

theorem evictLoop_noRobMoves (P : GfParams) (ready : Bool) (maxGroups fuel : Nat) {x : GrpOut}
    (h : NoRobMoves x.2) : NoRobMoves (evictLoop P ready maxGroups fuel x).2 := by
  induction fuel generalizing x with
  | zero => exact h
  | succ fuel ih =>
    unfold evictLoop
    split
    · exact h
    · split
      · exact h
      · exact ih (flushGroup_noRobMoves P ready _ _ h)

theorem addToGroup_noRobMoves (P : GfParams) (ready : Bool) (index : BitVec 16) (payload : Bytes)
    (g : Group) {x : GrpOut} (h : NoRobMoves x.2) :
    NoRobMoves (addToGroup P ready index payload g x).2 := by
  simp only [addToGroup]
  split
  · exact flushGroup_noRobMoves P ready _ _ h
  · exact h

/-- AddPacket, in every state of the unit (R220). -/
theorem groupAdd_noRobMoves {P : GfParams} {ready : Bool} {maxGroups : Nat} {gid : W32}
    {index : BitVec 16} {k n : BitVec 8} {payload : Bytes} {g : Grp} {x : GrpOut}
    (h : groupAdd P ready maxGroups gid index k n payload g = some x) : NoRobMoves x.2 := by
  unfold groupAdd at h
  split at h
  · split_ifs at h
    obtain rfl := Option.some.inj h
    exact addToGroup_noRobMoves P ready _ _ _
      (evictLoop_noRobMoves P ready _ _ (x := (g, [])) noRobMoves_nil)
  · split_ifs at h
    obtain rfl := Option.some.inj h
    exact addToGroup_noRobMoves P ready _ _ _ noRobMoves_nil

/-! ## Commands of the other units -/

/-- From `s` to `t` records are appended to OQ, none of them a record of the walk. -/
def AppendsNoRobMoves (s t : State) : Prop :=
  ∃ recs : List Record, t.oq = s.oq ++ recs ∧ NoRobMoves recs

/-- The end of a command that emitted no record of the walk. -/
theorem AppendsNoRobMoves.ended {recs : List Record} (hu : u.oq = s.oq) (h : NoRobMoves recs)
    (op : Byte) (st : Status) : AppendsNoRobMoves s (u.ended op recs st) :=
  ⟨recs ++ [.done op st], by rw [ended_oq, hu, List.append_assoc], by simp [h, isRobMove]⟩

/-- The same where nothing but the closing record is emitted. -/
theorem AppendsNoRobMoves.finish (hu : u.oq = s.oq) (op : Byte) (st : Status) :
    AppendsNoRobMoves s (finish op st u) :=
  finish_eq_ended u op st ▸ .ended hu noRobMoves_nil op st

/-- The E_FAULTED test before a body (R308). -/
theorem AppendsNoRobMoves.unlessFatal {body : State → State} (op : Byte)
    (h : AppendsNoRobMoves s (body s)) : AppendsNoRobMoves s (Machine.unlessFatal op body s) := by
  cases hf : s.fatal with
  | true => rw [unlessFatal_faulted _ _ _ hf]; exact .ended rfl noRobMoves_nil _ _
  | false => rwa [unlessFatal_running _ _ _ hf]

/-- The end of an engine command whose record is none of the walk (R150, R155, R159). -/
theorem engineDone_appendsNoRobMoves {α : Type} (op : Byte) {record : α → Record}
    (r : Except Status α) (s : State) (h : ∀ a, isRobMove (record a) = false) :
    AppendsNoRobMoves s (engineDone op record r s) := by
  cases r with
  | error st => exact .finish rfl op st
  | ok a => exact .ended rfl (by simp [h]) op .ok

/-- No command of another unit appends a record of the walk (R60, R200); SYS.RESET empties OQ. -/
theorem exec_appendsNoRobMoves {i : Instr} (hreset : i ≠ .sysReset)
    (hrob : i.opcode ∉ [.robAccept, .robTimer]) (h : exec i s = .next t) : AppendsNoRobMoves s t := by
  cases i with
  | sysReset => exact absurd rfl hreset
  | robAccept | robTimer => simp [Instr.opcode] at hrob
  | csrRd reg =>
    obtain rfl := Host.Outcome.next.inj h
    cases csrRead reg s with
    | none => exact ⟨_, rfl, by simp [isRobMove]⟩
    | some value => exact ⟨_, rfl, by simp [isRobMove]⟩
  | gfInit | robRestart | sysTeardown =>
    obtain rfl := Host.Outcome.next.inj h
    exact .unlessFatal _ (.finish rfl _ _)
  | eceNewmatrix k n =>
    obtain rfl := Host.Outcome.next.inj h
    refine .unlessFatal _ ?_
    unfold newMatrix
    split_ifs
    · exact .finish rfl _ _
    · exact .finish rfl _ _
    · exact .ended rfl (by simp [isRobMove]) _ _
  | eceEncode | eceBuilddec | eceDecode =>
    obtain rfl := Host.Outcome.next.inj h
    exact .unlessFatal _ (engineDone_appendsNoRobMoves _ _ _ fun _ => rfl)
  | rtpParse B =>
    obtain rfl := Host.Outcome.next.inj h
    refine .unlessFatal _ ?_
    unfold parseDatagram
    split
    · exact .ended rfl (by simp [isRobMove]) _ _
    · exact .ended rfl (by simp [isRobMove]) _ _
  | grpAdd gid index k n payload =>
    obtain rfl := Host.Outcome.next.inj h
    refine .unlessFatal _ ?_
    unfold addBlock
    split
    · exact .finish rfl _ _
    · split
      · exact .ended rfl (by simp [isRobMove]) _ _
      · next hx => exact .ended rfl (groupAdd_noRobMoves hx) _ _
  | grpExpire gid =>
    obtain rfl := Host.Outcome.next.inj h
    refine .unlessFatal _ ?_
    unfold expireGroup
    split
    · exact .finish rfl _ _
    · exact .ended rfl (flushGroup_noRobMoves _ _ _ _ noRobMoves_nil) _ _
  | depPacket seq ts m payload =>
    obtain rfl := Host.Outcome.next.inj h
    refine .unlessFatal _ ?_
    split
    · exact .finish rfl _ _
    · exact .ended rfl (depStep_noRobMoves _ _ _ _ _ _) _ _
  | csrWr reg value =>
    obtain rfl := Host.Outcome.next.inj h
    refine .unlessFatal _ ?_
    split
    · exact .finish rfl _ _
    · exact .finish rfl _ _

/-! ## The walk -/

/-- What a run without reset, restart and teardown does to `expected` (R200): either the buffer neither
starts nor moves, and no record of the walk is appended; or it has started, and the records walk to the
new `expected`, from the old one where it had started before. -/
def RobWalks (s t : State) : Prop :=
  ∃ recs : List Record, t.oq = s.oq ++ recs ∧
    ((NoRobMoves recs ∧ t.rob.started = s.rob.started ∧ t.rob.expected = s.rob.expected) ∨
      (t.rob.started = true ∧ ∃ e : Seq, (s.rob.started = true → e = s.rob.expected) ∧
        robTrace e recs = some t.rob.expected))

theorem RobWalks.refl (s : State) : RobWalks s s :=
  ⟨[], by simp, .inl ⟨noRobMoves_nil, rfl, rfl⟩⟩

theorem RobWalks.trans (h : RobWalks s t) (h' : RobWalks t u) : RobWalks s u := by
  obtain ⟨a, ha, hs⟩ := h
  obtain ⟨b, hb, ht⟩ := h'
  refine ⟨a ++ b, by rw [hb, ha, List.append_assoc], ?_⟩
  rcases hs with ⟨hqa, hsa, hea⟩ | ⟨hsa, e, hea, hwa⟩
  · rcases ht with ⟨hqb, hsb, heb⟩ | ⟨hsb, e', heb, hwb⟩
    · exact .inl ⟨noRobMoves_append.mpr ⟨hqa, hqb⟩, hsb.trans hsa, heb.trans hea⟩
    · refine .inr ⟨hsb, e', fun h => (heb (hsa.trans h)).trans hea, ?_⟩
      rw [robTrace_append (robTrace_of_noRobMoves e' hqa), hwb]
  · rcases ht with ⟨hqb, hsb, heb⟩ | ⟨hsb, e', heb, hwb⟩
    · exact .inr ⟨hsb.trans hsa, e, hea, heb ▸ robTrace_append_noRobMoves hwa hqb⟩
    · refine .inr ⟨hsb, e, hea, ?_⟩
      rw [robTrace_append hwa, ← heb hsa, hwb]

/-- No record of the walk, and the buffer where it was. -/
theorem AppendsNoRobMoves.robWalks (h : AppendsNoRobMoves s t)
    (hs : t.rob.started = s.rob.started) (he : t.rob.expected = s.rob.expected) : RobWalks s t := by
  obtain ⟨recs, hoq, hq⟩ := h
  exact ⟨recs, hoq, .inl ⟨hq, hs, he⟩⟩

/-- The end of a command of the buffer that walked. -/
theorem robWalks_ended {r : Rob} {e : Seq} {recs : List Record} (op : Byte) (st : Status)
    (hr : r.started = true) (he : s.rob.started = true → e = s.rob.expected)
    (hw : robTrace e recs = some r.expected) :
    RobWalks s (State.ended { s with rob := r } op recs st) :=
  ⟨recs ++ [.done op st], by simp, .inr ⟨hr, e, he,
    robTrace_append_noRobMoves hw (by simp [isRobMove])⟩⟩

/-- A started buffer keeps its `expected` at the start of ROB.ACCEPT (R188). -/
theorem robStart_of_started {seq : Seq} {r : Rob} (h : r.started = true) : robStart seq r = r := by
  rw [robStart, if_pos h]

/-- A packet that is inserted, into a buffer that meets its invariant (R187). -/
theorem robInsert_robStart_spec {pkt : Packet} (arrival : W32) {r : Rob} (c : Csr) (hr : RobInv r)
    (hp : pkt.payload ≠ []) :
    let x := robInsert c pkt arrival (!r.started) (robStart pkt.seq r)
    x.1.started = true ∧ robTrace (robStart pkt.seq r).expected x.2 = some x.1.expected ∧
      (r.buf.length ≤ c.robWindow.toNat → x.1.buf.length ≤ c.robWindow.toNat) := by
  obtain ⟨-, hstarted, hwalk, -, hwindow⟩ := robInsert_spec pkt arrival (!r.started)
    (robStart pkt.seq r) c (by simpa using hr.sorted) (by simpa using hr.keyed)
    (by simpa using hr.filled) (robStart_started _ _) hp
  exact ⟨hstarted, hwalk, by simpa using hwindow⟩

/-- ROB.ACCEPT walks (R193, R194). -/
theorem exec_robAccept_walks {pkt : Packet} {arrival : W32} (hr : RobInv s.rob)
    (h : exec (.robAccept pkt arrival) s = .next t) : RobWalks s t := by
  have hstart : s.rob.started = true → (robStart pkt.seq s.rob).expected = s.rob.expected :=
    fun hs => by rw [robStart_of_started hs]
  rcases exec_robAccept_cases h with ⟨st, rfl⟩ | ⟨-, rfl⟩ | ⟨hp, rfl⟩
  · exact (AppendsNoRobMoves.ended rfl noRobMoves_nil _ _).robWalks rfl rfl
  · exact robWalks_ended _ _ (robStart_started _ _) hstart rfl
  · obtain ⟨hstarted, hwalk, -⟩ := robInsert_robStart_spec arrival s.csr hr hp
    exact robWalks_ended _ _ hstarted hstart hwalk

/-- ROB.TIMER walks (R194, R199): while it is armed the buffer has started. -/
theorem exec_robTimer_walks (hr : RobInv s.rob) (h : exec .robTimer s = .next t) : RobWalks s t := by
  rcases exec_robTimer_cases h with ⟨st, rfl⟩ | ⟨ht, rfl⟩
  · exact (AppendsNoRobMoves.ended rfl noRobMoves_nil _ _).robWalks rfl rfl
  · obtain ⟨-, hstarted, hwalk, -⟩ := timerFlush_spec s.rob hr (hr.started_of_timer ht)
    exact robWalks_ended _ _ hstarted (fun _ => rfl) hwalk

/-- A command of another unit keeps the buffer (R60). -/
theorem exec_rob_eq {i : Instr}
    (hi : i.opcode ∉ [.robAccept, .robTimer, .robRestart, .sysTeardown, .sysReset])
    (h : exec i s = .next t) : t.rob = s.rob := by
  obtain ⟨-, hrob, -⟩ := unitsDoNotInterfere i s t h
  exact not_not.mp (mt hrob hi)

/-- Every command but reset, restart and teardown walks (R200). -/
theorem exec_robWalks {i : Instr} (hi : i ≠ .sysReset ∧ i ≠ .robRestart ∧ i ≠ .sysTeardown)
    (hr : RobInv s.rob) (h : exec i s = .next t) : RobWalks s t := by
  obtain ⟨hreset, hrestart, hteardown⟩ := hi
  cases i with
  | robAccept => exact exec_robAccept_walks hr h
  | robTimer => exact exec_robTimer_walks hr h
  | robRestart => exact absurd rfl hrestart
  | sysTeardown => exact absurd rfl hteardown
  | sysReset => exact absurd rfl hreset
  | _ =>
    have hsame : t.rob = s.rob := exec_rob_eq (by simp [Instr.opcode]) h
    have hquiet := exec_appendsNoRobMoves hreset (by simp [Instr.opcode]) h
    exact hquiet.robWalks (by rw [hsame]) (by rw [hsame])

/-! ## Runs -/

/-- What a command may change keeps the buffer's invariant (R30). -/
theorem Changes.robInv {P : Params} {i : Instr} (h : Changes P s u i) (hr : RobInv s.rob) :
    RobInv u.rob := by
  cases i with
  | robAccept | robTimer | robRestart => obtain ⟨_, rfl, hrob⟩ := h; exact hrob hr
  | sysTeardown =>
    rcases h with rfl | rfl
    · exact hr
    · exact robInv_of_idle rfl rfl rfl rfl
  | sysReset => obtain rfl : u = hardReset s := h; exact robInv_of_idle rfl rfl rfl rfl
  | _ =>
    obtain ⟨-, hrob, -⟩ := h.units
    have hsame : u.rob = s.rob := not_not.mp (mt hrob (by simp [Instr.opcode]))
    exact hsame ▸ hr

/-- Every command keeps the buffer's invariant (R30). -/
theorem exec_robInv {i : Instr} (hr : RobInv s.rob) (h : exec i s = .next t) : RobInv t.rob := by
  rw [exec_eq_execWith] at h
  obtain ⟨u, hu, ht, -⟩ := execWith_next h
  rw [ht]
  exact hu.robInv hr

/-- The first command of a run, and the run from the state it leaves (R68). -/
theorem runAll_cons {i : Instr} {is : List Instr} (h : runAll (i :: is) s = .next u) :
    ∃ t, exec i s = .next t ∧ runAll is t = .next u := by
  unfold runAll at h
  split at h
  · next t ht => exact ⟨t, ht, h⟩
  · cases h
  · cases h

/-- A run without reset, restart and teardown walks (R200). -/
theorem runAll_robWalks {cmds : List Instr} (hr : RobInv s.rob)
    (hc : ∀ i ∈ cmds, i ≠ .sysReset ∧ i ≠ .robRestart ∧ i ≠ .sysTeardown)
    (h : runAll cmds s = .next t) : RobWalks s t := by
  induction cmds generalizing s with
  | nil => obtain rfl := Host.Outcome.next.inj h; exact .refl s
  | cons i is ih =>
    obtain ⟨v, hv, hrest⟩ := runAll_cons h
    obtain ⟨hi, his⟩ := List.forall_mem_cons.mp hc
    exact (exec_robWalks hi hr hv).trans (ih (exec_robInv hr hv) his hrest)

/-- Settles O23: the run is a walk; where nothing moved the walk stands still at `expected`. -/
theorem emissionFollowsExpected : Obligations.EmissionFollowsExpected := by
  intro cmds s t hr hc h
  obtain ⟨recs, hoq, ⟨hq, -, he⟩ | ⟨-, e, he, hw⟩⟩ := runAll_robWalks hr hc h
  · exact ⟨recs, s.rob.expected, hoq, fun _ => rfl, he ▸ robTrace_of_noRobMoves _ hq⟩
  · exact ⟨recs, e, hoq, he, hw⟩

/-! ## The window -/

/-- Only CSR.WR of register 1 writes `ROB_WINDOW` (R40, R287). -/
theorem csrWrite_robWindow {reg : BitVec 8} (value : W32) (c : Csr) (h : reg ≠ 0x01) :
    (csrWrite reg value c).robWindow = c.robWindow := by
  unfold csrWrite
  split
  case h_2 hone => exact absurd (BitVec.eq_of_toNat_eq hone) h
  all_goals rfl

/-- CSR.WR of another register keeps the buffer and `ROB_WINDOW` (R287). -/
theorem exec_csrWr_window {reg : BitVec 8} {value : W32} (hreg : reg ≠ 0x01)
    (h : exec (.csrWr reg value) s = .next t) :
    t.rob = s.rob ∧ t.csr.robWindow = s.csr.robWindow := by
  obtain rfl := Host.Outcome.next.inj h
  unfold unlessFatal
  split
  · exact ⟨rfl, rfl⟩
  · split
    · exact ⟨rfl, csrWrite_robWindow value s.csr hreg⟩
    · exact ⟨rfl, rfl⟩

/-- Settles O24: an insertion ends within the window, a forced advance adds no entry, restart, teardown and
reset leave none, and no other command reaches the buffer. -/
theorem windowBoundsTheBuffer : Obligations.WindowBoundsTheBuffer := by
  intro i s t hi hr hw h
  cases i with
  | robAccept pkt arrival =>
    rcases exec_robAccept_cases h with ⟨st, rfl⟩ | ⟨-, rfl⟩ | ⟨hp, rfl⟩
    · exact hw
    · simpa [robLateDrop] using hw
    · obtain ⟨-, -, hwindow⟩ := robInsert_robStart_spec arrival s.csr hr hp
      exact hwindow hw
  | robTimer =>
    rcases exec_robTimer_cases h with ⟨st, rfl⟩ | ⟨ht, rfl⟩
    · exact hw
    · obtain ⟨-, -, -, -, hshorter⟩ := timerFlush_spec s.rob hr (hr.started_of_timer ht)
      exact hshorter.trans hw
  | robRestart | sysTeardown =>
    obtain rfl := Host.Outcome.next.inj h
    unfold unlessFatal
    split
    · exact hw
    · exact Nat.zero_le _
  | sysReset =>
    obtain rfl := Host.Outcome.next.inj h
    exact Nat.zero_le _
  | csrWr reg value =>
    obtain ⟨hrob, hwin⟩ := exec_csrWr_window (fun hreg => hi value (by rw [hreg])) h
    rwa [hrob, hwin]
  | _ =>
    obtain ⟨-, -, -, -, -, hcsr, -⟩ := unitsDoNotInterfere _ s t h
    have hcsr : t.csr = s.csr := not_not.mp (mt hcsr (by simp [Instr.opcode]))
    rwa [exec_rob_eq (by simp [Instr.opcode]) h, hcsr]

end Sys2Proof.Machine
end

section
/-! PROOFS. The procedures of the reorder buffer as functions (spec/43_reorder_buffer.md R188 to R205): the
run FlushInOrder emits, the entry ForceAdvance skips to, the statistics, and the two plain outcomes of ROB.ACCEPT. -/

namespace Sys2Proof.Machine

variable {r : Rob} {out : List Record}

/-! ## FlushInOrder -/

/-- FlushInOrder after `n` rounds: the entries under the `n` keys from `expected` on have left, in that
order (R193). -/
def flushedRun (r : Rob) (out : List Record) (n : Nat) : RobOut :=
  ({ r with
      expected := r.expected + BitVec.ofNat 16 n
      buf := r.buf.filter (fun e =>
        !((List.range n).any (fun i => e.1 == r.expected + BitVec.ofNat 16 i))) },
    out ++ (List.range n).filterMap (fun i =>
      (kvGet (r.expected + BitVec.ofNat 16 i) r.buf).map
        (fun e => Record.robEmit e.pkt e.arrival)))

/-- The keys of the run of `n` from `expected` on are present. -/
def RunPresent (r : Rob) (n : Nat) : Prop :=
  ∀ i, i < n → (kvGet (r.expected + BitVec.ofNat 16 i) r.buf).isSome = true

/-- The buffer after one round of FlushInOrder (R193). -/
def popExpected (r : Rob) : Rob :=
  { r with buf := kvDel r.expected r.buf, expected := r.expected + 1 }

theorem flushLoop_of_none {x : RobOut} (fuel : Nat) (h : kvGet x.1.expected x.1.buf = none) :
    flushLoop fuel x = x := by
  cases fuel with
  | zero => rfl
  | succ fuel => simp only [flushLoop, h]

theorem flushLoop_of_some {e : RobEntry} (fuel : Nat) (out : List Record)
    (h : kvGet r.expected r.buf = some e) : flushLoop (fuel + 1) (r, out) =
      flushLoop fuel (popExpected r, out ++ [.robEmit e.pkt e.arrival]) := by
  simp only [flushLoop, h, popExpected]

theorem flushedRun_zero (r : Rob) (out : List Record) : flushedRun r out 0 = (r, out) := by
  simp [flushedRun]

/-- The key `i` places after the first one. -/
theorem popExpected_key (r : Rob) (i : Nat) :
    (popExpected r).expected + BitVec.ofNat 16 i = r.expected + BitVec.ofNat 16 (i + 1) := by
  rw [popExpected, BitVec.ofNat_add, BitVec.add_comm (BitVec.ofNat 16 i), ← BitVec.add_assoc]
  rfl

/-- A key still present after a round is another than `expected`, and its entry is untouched. -/
theorem kvGet_popExpected {k : Seq} (h : (kvGet k (popExpected r).buf).isSome = true) :
    kvGet k (popExpected r).buf = kvGet k r.buf := by
  refine kvGet_kvDel_other ?_
  rintro rfl
  simp [popExpected] at h

/-- A round and a run of `n` after it are a run of `n + 1`. -/
theorem runPresent_succ {n : Nat} (hfirst : (kvGet r.expected r.buf).isSome = true)
    (hrest : RunPresent (popExpected r) n) : RunPresent r (n + 1) := by
  rintro (_ | i) hi
  · simpa using hfirst
  · have hrest := hrest i (by omega)
    rwa [kvGet_popExpected hrest, popExpected_key] at hrest

theorem flushedRun_succ {e : RobEntry} {n : Nat} (hfirst : kvGet r.expected r.buf = some e)
    (hrest : RunPresent (popExpected r) n) :
    flushedRun (popExpected r) (out ++ [.robEmit e.pkt e.arrival]) n = flushedRun r out (n + 1) := by
  have hbuf : (flushedRun (popExpected r) (out ++ [.robEmit e.pkt e.arrival]) n).1.buf =
      (flushedRun r out (n + 1)).1.buf := by
    simp only [flushedRun, popExpected_key, List.range_succ_eq_map, List.any_cons, List.any_map]
    simp only [popExpected, kvDel, List.filter_filter]
    refine List.filter_congr fun q _ => ?_
    simp [Function.comp_def, Bool.and_comm, beq_eq_decide]
  have hrecs : (List.range n).filterMap (fun i =>
        (kvGet ((popExpected r).expected + BitVec.ofNat 16 i) (popExpected r).buf).map
          (fun e => Record.robEmit e.pkt e.arrival)) =
      (List.range n).filterMap (fun i => (kvGet (r.expected + BitVec.ofNat 16 (i + 1)) r.buf).map
          (fun e => Record.robEmit e.pkt e.arrival)) := by
    refine List.filterMap_congr fun i hi => ?_
    rw [kvGet_popExpected (hrest i (List.mem_range.mp hi)), popExpected_key]
  refine Prod.ext ?_ ?_
  · exact congrArg₂ (fun (e : Seq) (b : List (BitVec 16 × RobEntry)) =>
      { r with expected := e, buf := b }) (popExpected_key r n) hbuf
  · simp only [flushedRun, hrecs, List.range_succ_eq_map, List.filterMap_cons, List.filterMap_map]
    simp [hfirst]

/-- FlushInOrder with fuel enough emits a run and ends where the run does (R193). -/
theorem flushLoop_eq_flushedRun (fuel : Nat) (r : Rob) (out : List Record) (hs : KvSorted r.buf)
    (hf : r.buf.length ≤ fuel) :
    ∃ n, n ≤ r.buf.length ∧ RunPresent r n ∧ flushLoop fuel (r, out) = flushedRun r out n ∧
      kvGet (flushLoop fuel (r, out)).1.expected (flushLoop fuel (r, out)).1.buf = none := by
  induction fuel generalizing r out with
  | zero =>
    have hb : r.buf = [] := by simpa using hf
    have hnone : kvGet r.expected r.buf = none := by rw [hb]; rfl
    exact ⟨0, Nat.zero_le _, by simp [RunPresent], (flushedRun_zero r out).symm, hnone⟩
  | succ fuel ih =>
    cases hget : kvGet r.expected r.buf with
    | none =>
      rw [flushLoop_of_none _ hget]
      exact ⟨0, Nat.zero_le _, by simp [RunPresent], (flushedRun_zero r out).symm, hget⟩
    | some e =>
      have hlen : (popExpected r).buf.length + 1 = r.buf.length := by
        simpa [hget, popExpected] using length_kvDel (k := r.expected) hs
      obtain ⟨n, hn, hrun, heq, hend⟩ := ih (popExpected r) (out ++ [.robEmit e.pkt e.arrival])
        (kvSorted_kvDel hs) (by omega)
      rw [flushLoop_of_some fuel out hget]
      exact ⟨n + 1, by omega, runPresent_succ (by rw [hget]; rfl) hrun,
        heq.trans (flushedRun_succ hget hrun), hend⟩

/-- Settles O18: the loop has fuel for every entry. -/
theorem flushEmitsTheRun : Obligations.FlushEmitsTheRun := fun r out hs =>
  flushLoop_eq_flushedRun _ r out hs (Nat.le_refl _)

/-! ## ForceAdvance -/

/-- The distance to `expected` tells keys apart (R12). -/
theorem eq_of_sdist_eq {a b expected : Seq} (h : sdist a expected = sdist b expected) : a = b :=
  sub_left_injective (BitVec.eq_of_toNat_eq h)

/-- The search finds the entry of least forward distance (R194, R195). -/
theorem nearestAhead_eq_of_least {expected : Seq} {m : List (BitVec 16 × RobEntry)}
    {e : BitVec 16 × RobEntry} (he : e ∈ m) (ha : isAhead expected e.1 = true)
    (hleast : ∀ q ∈ m, isAhead expected q.1 = true → sdist e.1 expected ≤ sdist q.1 expected) :
    nearestAhead expected m = some e.1 := by
  cases hn : nearestAhead expected m with
  | none => simp [nearestAhead_none.mp hn e he] at ha
  | some k =>
    obtain ⟨⟨q, hq, rfl⟩, hqa, hql⟩ := nearestAhead_some hn
    exact congrArg some (eq_of_sdist_eq (Nat.le_antisymm (hql e he ha) (hleast q hq hqa)))

/-- The distances ForceAdvance looks at, in the statement's words (R194). -/
theorem isAhead_iff {expected k : Seq} :
    isAhead expected k = true ↔ 1 ≤ sdist k expected ∧ sdist k expected ≤ 32768 := by
  simp [isAhead]

/-- Settles O19: the search finds no entry, or the one named, which `advance` skips to. -/
theorem forceAdvanceSkipsToNearest : Obligations.ForceAdvanceSkipsToNearest := by
  intro r out _
  refine ⟨fun hnone => ?none, fun e he hlow hhigh hleast => ?skip⟩
  case none =>
    have hn : nearestAhead r.expected r.buf = none :=
      nearestAhead_none.mpr fun e he => Bool.eq_false_iff.mpr (mt isAhead_iff.mp (hnone e he))
    rw [forceAdvance, advance, hn]
    rfl
  case skip =>
    have hn : nearestAhead r.expected r.buf = some e.1 :=
      nearestAhead_eq_of_least he (isAhead_iff.mpr ⟨hlow, hhigh⟩) fun q hq hqa =>
        (isAhead_iff.mp hqa).elim (hleast q hq)
    rintro _ rfl
    rw [forceAdvance, advance, hn]
    rfl

/-! ## UpdateStats -/

/-- `absDiff` is the absolute value of the signed difference, the most negative one included (R205). -/
theorem toNat_absDiff (d : W32) : (absDiff d).toNat = d.toInt.natAbs := by
  have hd := d.isLt
  have hmsb : d.getLsbD 31 = decide (2 ^ 31 ≤ d.toNat) := BitVec.msb_eq_decide d
  rw [absDiff, hmsb, BitVec.toInt_eq_toNat_cond]
  split_ifs with hneg <;> simp only [decide_eq_true_eq, BitVec.toNat_neg] at hneg ⊢ <;> omega

/-- The jitter update over the natural numbers, while `jitter_q4 + 8` does not wrap (R205). -/
theorem jitterNext_eq_ofNat {j : W32} (d : W32) (h : j.toNat + 8 < 2 ^ 32) :
    jitterNext j d = BitVec.ofNat 32 (j.toNat + d.toNat - (j.toNat + 8) / 16) := by
  have hd := d.isLt
  have hround : ((j + 8) >>> 4).toNat = (j.toNat + 8) / 16 := by
    rw [BitVec.toNat_ushiftRight, BitVec.toNat_add_of_lt h, Nat.shiftRight_eq_div_pow]
    rfl
  apply BitVec.eq_of_toNat_eq
  rw [jitterNext, BitVec.toNat_sub, hround, BitVec.toNat_add, BitVec.toNat_ofNat]
  omega

/-- `newer` in the statement's words (R12). -/
theorem newer_iff {a b : Seq} : newer a b = true ↔ 0 < sdist a b ∧ sdist a b < 32768 := by
  simp [newer]

/-- UpdateStats as one update of the unit (R202, R205), over the loss estimate and `highest` of R203. -/
theorem updateStats_eq (restartGap : BitVec 16) (pkt : Packet) (arrival : W32) (first : Bool) (r : Rob) :
    updateStats restartGap pkt arrival first r =
      { r with
        received := r.received + 1
        bytes := r.bytes + BitVec.ofNat 32 pkt.payload.length
        lost := (updateLoss restartGap pkt.seq first r).lost
        highest := (updateLoss restartGap pkt.seq first r).highest
        jitterQ4 :=
          if r.jitValid then jitterNext r.jitterQ4 (absDiff (arrival - pkt.ts - r.prevTransit))
          else r.jitterQ4
        prevTransit := arrival - pkt.ts
        jitValid := true } := by
  unfold updateStats updateJitter updateLoss
  cases first with
  | true => rfl
  | false =>
    cases hn : newer pkt.seq r.highest with
    | true => rfl
    | false => rfl

/-- The first packet sets `highest` and loses nothing (R203). -/
theorem updateLoss_first (restartGap : BitVec 16) (seq : Seq) (r : Rob) :
    updateLoss restartGap seq true r = { r with highest := seq } := if_pos rfl

/-- A newer packet sets `highest`, and a gap below RESTART_GAP counts as lost (R203, R204). -/
theorem updateLoss_newer (restartGap : BitVec 16) {seq : Seq} {r : Rob} (h : newer seq r.highest = true) :
    updateLoss restartGap seq false r =
      { r with
        lost := if sdist seq r.highest < restartGap.toNat
          then r.lost + BitVec.ofNat 32 (sdist seq r.highest - 1) else r.lost
        highest := seq } := by
  simp [updateLoss, h]

/-- A packet that is not newer counts nothing (R203). -/
theorem updateLoss_not_newer (restartGap : BitVec 16) {seq : Seq} {r : Rob}
    (h : newer seq r.highest = false) : updateLoss restartGap seq false r = r := by
  simp [updateLoss, h]

/-- Settles O20: the three cases of the loss estimate, the two of the jitter, the rest by `updateStats_eq`. -/
theorem statisticsFollowRules : Obligations.StatisticsFollowRules := by
  rintro restartGap pkt arrival first r _ rfl
  rw [updateStats_eq]
  refine ⟨rfl, rfl, ?initial, ?newer, ?old, rfl, rfl, ?noTransit, ?transit, rfl, rfl, rfl, rfl, rfl⟩
  case initial =>
    rintro rfl
    simp [updateLoss_first]
  case newer =>
    rintro rfl hlow hhigh
    simp [updateLoss_newer restartGap (newer_iff.mpr ⟨hlow, hhigh⟩)]
  case old =>
    rintro rfl hnot
    simp [updateLoss_not_newer restartGap (Bool.eq_false_iff.mpr (mt newer_iff.mp hnot))]
  case noTransit =>
    intro hv
    simp [hv]
  case transit =>
    intro hv hwrap
    rw [← toNat_absDiff, ← jitterNext_eq_ofNat _ hwrap]
    exact if_pos hv

/-! ## ROB.ACCEPT of a packet that fits -/

/-- The buffer with the packet counted and inserted, before FlushInOrder (R187). -/
def storePacket (restartGap : BitVec 16) (pkt : Packet) (arrival : W32) (first : Bool) (r : Rob) : Rob :=
  { updateStats restartGap pkt arrival first r with
    buf := kvPut pkt.seq { pkt := pkt, arrival := arrival } r.buf }

/-- An insertion is the stored packet, the flush, the window test and the timer (R187). -/
theorem robInsert_eq (c : Csr) (pkt : Packet) (arrival : W32) (first : Bool) (r : Rob) :
    robInsert c pkt arrival first r =
      let x := windowFlush c.robWindow
        (flushInOrder (storePacket c.restartGap pkt arrival first r, []))
      (rearm x.1, x.2) := by
  simp only [robInsert, storePacket, updateStats_buf]

/-- FlushInOrder does nothing while `expected` is no key (R193). -/
theorem flushInOrder_of_none {x : RobOut} (h : kvGet x.1.expected x.1.buf = none) :
    flushInOrder x = x :=
  flushLoop_of_none _ h

/-- FlushInOrder of a buffer that holds the expected packet alone (R193). -/
theorem flushInOrder_of_single {e : RobEntry} (out : List Record) (h : r.buf = [(r.expected, e)]) :
    flushInOrder (r, out) =
      ({ r with buf := [], expected := r.expected + 1 }, out ++ [.robEmit e.pkt e.arrival]) := by
  have hget : kvGet r.expected r.buf = some e := by simp [h, kvGet]
  have hpop : popExpected r = { r with buf := [], expected := r.expected + 1 } := by
    simp [popExpected, h, kvDel]
  rw [flushInOrder, h, List.length_singleton, flushLoop_of_some 0 out hget, hpop]
  rfl

/-- The window test does nothing within the window (R196). -/
theorem windowFlush_of_le {w : BitVec 16} {x : RobOut} (h : x.1.buf.length ≤ w.toNat) :
    windowFlush w x = x :=
  if_neg h.not_gt

/-- The first packet sets `expected` to its own number (R188). -/
theorem robStart_of_not_started {seq : Seq} (h : r.started = false) :
    robStart seq r = { r with started := true, expected := seq } :=
  if_neg (by simp [h])

/-- The first packet passes through the buffer at once (R188, R193). -/
theorem robInsert_first (c : Csr) (pkt : Packet) (arrival : W32) (hr : RobInv r)
    (hs : r.started = false) :
    robInsert c pkt arrival true (robStart pkt.seq r) =
      ({ r with
        started := true, expected := pkt.seq + 1, buf := [], timer := false
        highest := pkt.seq, received := r.received + 1
        bytes := r.bytes + BitVec.ofNat 32 pkt.payload.length
        jitValid := true, prevTransit := arrival - pkt.ts }, [.robEmit pkt arrival]) := by
  have hstore : storePacket c.restartGap pkt arrival true (robStart pkt.seq r) =
      { r with
        started := true, expected := pkt.seq, buf := [(pkt.seq, ⟨pkt, arrival⟩)]
        highest := pkt.seq, received := r.received + 1
        bytes := r.bytes + BitVec.ofNat 32 pkt.payload.length
        jitValid := true, prevTransit := arrival - pkt.ts } := by
    simp [storePacket, robStart_of_not_started hs, updateStats_eq, updateLoss_first, hr.idleEmpty hs,
      hr.idleJitter hs, kvPut]
  rw [robInsert_eq, hstore, flushInOrder_of_single (e := ⟨pkt, arrival⟩) [] rfl,
    windowFlush_of_le (Nat.zero_le _)]
  rfl

/-- Settles O16: the first packet is not late, and `robInsert_first`. -/
theorem firstPacketEmittedAtOnce : Obligations.FirstPacketEmittedAtOnce := by
  intro pkt arrival s hf hp hr hs
  have hlate : isLate s.csr.lateThreshold (robStart pkt.seq s.rob).expected pkt.seq = false := by
    rw [robStart_of_not_started hs]
    exact isLate_self _ _
  rw [exec_robAccept_of_not_late hf hp hlate, hs, Bool.not_false, robInsert_first s.csr pkt arrival hr hs]

/-- The two distances between different numbers add up to 65536 (R12). -/
theorem sdist_swap {a b : Seq} (h : 1 ≤ sdist a b) : sdist b a = 65536 - sdist a b := by
  unfold sdist at *
  have ha := a.isLt
  have hb := b.isLt
  rw [BitVec.toNat_sub] at h ⊢
  rw [BitVec.toNat_sub]
  omega

/-- A packet ahead of `expected` is not late (R189, R190). -/
theorem isLate_of_ahead (threshold : BitVec 16) {expected seq : Seq} (hlow : 1 ≤ sdist seq expected)
    (hhigh : sdist seq expected ≤ 32768) : isLate threshold expected seq = false := by
  refine Bool.eq_false_iff.mpr fun h => ?_
  obtain ⟨-, hbehind⟩ := isLate_iff.mp h
  rw [sdist_swap hlow] at hbehind
  omega

/-- A packet ahead of `expected` is stored and nothing else happens while the window has room (R190,
R196). -/
theorem robInsert_of_ahead {c : Csr} {pkt : Packet} (arrival : W32) (hr : RobInv r)
    (hlow : 1 ≤ sdist pkt.seq r.expected) (hroom : r.buf.length < c.robWindow.toNat) :
    robInsert c pkt arrival false r = (rearm (storePacket c.restartGap pkt arrival false r), []) := by
  have hne : r.expected ≠ pkt.seq := by
    intro h
    simp [h, sdist] at hlow
  have hnone : kvGet r.expected (kvPut pkt.seq ⟨pkt, arrival⟩ r.buf) = none := by
    rw [kvGet_kvPut_other hne, hr.expectedFree]
  have hlen : (kvPut pkt.seq ⟨pkt, arrival⟩ r.buf).length ≤ c.robWindow.toNat := by
    rw [length_kvPut hr.sorted]
    split <;> omega
  have hflush : flushInOrder (storePacket c.restartGap pkt arrival false r, []) =
      (storePacket c.restartGap pkt arrival false r, []) :=
    flushInOrder_of_none (by simpa [storePacket] using hnone)
  rw [robInsert_eq, hflush, windowFlush_of_le hlen]

/-- A store that was written is not empty. -/
theorem kvPut_isEmpty {α : Type} (k : BitVec 16) (v : α) (m : List (BitVec 16 × α)) :
    (kvPut k v m).isEmpty = false := by
  rw [List.isEmpty_eq_false_iff]
  exact List.ne_nil_of_mem (kvGet_mem kvGet_kvPut_self)

/-- Settles O17: the packet is not late and `robInsert_of_ahead` stores it. -/
theorem packetAheadWaits : Obligations.PacketAheadWaits := by
  intro pkt arrival s hf hp hr hs hlow hhigh hroom
  have hstart : robStart pkt.seq s.rob = s.rob := robStart_of_started hs
  have hlate : isLate s.csr.lateThreshold (robStart pkt.seq s.rob).expected pkt.seq = false := by
    rw [hstart]
    exact isLate_of_ahead _ hlow hhigh
  have hexec := exec_robAccept_of_not_late (arrival := arrival) hf hp hlate
  rw [hstart, hs, Bool.not_true, robInsert_of_ahead arrival hr hlow hroom] at hexec
  refine ⟨_, hexec, by simp, rfl, ?_, ?_, ?_, kvGet_kvPut_self,
    fun q hq => kvGet_kvPut_other hq, ?_, rfl, rfl, rfl, rfl, rfl, rfl, rfl, rfl⟩
  · simp [rearm, storePacket]
  · simp [rearm, storePacket, kvPut_isEmpty]
  · simpa [rearm, storePacket] using hs
  · simp [rearm, storePacket]

end Sys2Proof.Machine
end

section
/-! PROOFS. FlushGroup (spec/44_fec_group.md R228 to R241): the blocks of a record are its primaries and its
parities, so with k of them the parities make up for the missing primaries and the index list meets the
conditions of the engine's decode, which therefore succeeds. -/

namespace Sys2Proof.Machine

variable {P : GfParams} {g : Group} {cause : Cause} {i : Nat}

/-! ## The index list -/

section

variable {received : Nat → Bool} {rows q : List Nat}

theorem assignRows_cons_received (hi : received i = true) :
    assignRows received (i :: rows) q = i :: assignRows received rows q := by
  simp [assignRows.eq_def received (i :: rows), hi]

theorem assignRows_cons_missing {j : Nat} (hi : received i = false) :
    assignRows received (i :: rows) (j :: q) = j :: assignRows received rows q := by
  simp [assignRows, hi]

theorem assignRows_cons_nil : assignRows received (i :: rows) [] = i :: assignRows received rows [] := by
  simp [assignRows]

/-- A received row takes its own index, a missing one an index of `q`, when `q` does not run out (R231 to
R233). -/
theorem assignRows_forall₂ (h : (rows.filter fun i => !received i).length ≤ q.length) :
    List.Forall₂ (fun i x => if received i then x = i else x ∈ q) rows (assignRows received rows q) := by
  induction rows generalizing q with
  | nil => exact .nil
  | cons i rows ih =>
    cases hi : received i with
    | true =>
      rw [assignRows_cons_received hi]
      exact .cons (by rw [if_pos hi]) (ih (by simpa [hi] using h))
    | false =>
      cases q with
      | nil => simp [hi] at h
      | cons j q =>
        rw [assignRows_cons_missing hi]
        refine .cons (by simp [hi]) ((ih (by simpa [hi] using h)).imp fun _ _ hx => ?_)
        split_ifs at hx ⊢
        · exact hx
        · exact List.mem_cons_of_mem j hx

/-- The parity indices come from `q`, in its order. -/
theorem assignRows_filter_sublist {k : Nat} (hrows : ∀ i ∈ rows, i < k) :
    ((assignRows received rows q).filter fun x => decide (k ≤ x)).Sublist q := by
  induction rows generalizing q with
  | nil => exact List.nil_sublist q
  | cons i rows ih =>
    obtain ⟨hi, hrows⟩ := List.forall_mem_cons.mp hrows
    have hdrop (l : List Nat) : (i :: l).filter (fun x => decide (k ≤ x)) =
        l.filter fun x => decide (k ≤ x) := List.filter_cons_of_neg (by simpa using hi)
    cases hrec : received i with
    | true =>
      rw [assignRows_cons_received hrec, hdrop]
      exact ih hrows
    | false =>
      cases q with
      | nil =>
        rw [assignRows_cons_nil, hdrop]
        exact ih hrows
      | cons j q =>
        rw [assignRows_cons_missing hrec, List.filter_cons]
        split
        · exact (ih hrows).cons_cons j
        · exact (ih hrows).cons j

end

/-! ## The blocks of a complete record -/

/-- A record FlushGroup decodes when tables are built: of good form, with k blocks or more (R228). -/
structure CompleteGroup (g : Group) : Prop where
  sorted : KvSorted g.blocks
  kPos : 1 ≤ g.k.toNat
  kLeN : g.k.toNat ≤ g.n.toNat
  indexBelow : ∀ e ∈ g.blocks, e.1.toNat < g.n.toNat
  enough : g.k.toNat ≤ g.blocks.length

/-- A present index is listed with its payload. -/
theorem blockAt_mem (h : hasBlock g i = true) : (BitVec.ofNat 16 i, blockAt g i) ∈ g.blocks := by
  obtain ⟨b, hb⟩ := Option.isSome_iff_exists.mp h
  rw [blockAt, hb]
  exact kvGet_mem hb

theorem hasBlock_of_kvGet {b : Bytes} (h : kvGet (BitVec.ofNat 16 i) g.blocks = some b) :
    hasBlock g i = true ∧ blockAt g i = b := by
  simp [hasBlock, kvHas, blockAt, h]

/-- The received indices, ascending, are the primaries, then the parities (R228). -/
theorem primaries_append_parities (h : g.k.toNat ≤ g.n.toNat) :
    primaries g ++ parities g = (List.range g.n.toNat).filter (hasBlock g) := by
  have hrange := List.range'_append_1 (s := 0) (m := g.k.toNat) (n := g.n.toNat - g.k.toNat)
  rw [Nat.zero_add, Nat.add_sub_cancel' h, ← List.range_eq_range', ← List.range_eq_range'] at hrange
  rw [primaries, parities, ← List.filter_append, hrange]

/-- Each block is a primary or a parity, and each of these is one block (R228). -/
theorem length_blocks (hs : KvSorted g.blocks) (hkn : g.k.toNat ≤ g.n.toNat)
    (hbelow : ∀ e ∈ g.blocks, e.1.toNat < g.n.toNat) :
    g.blocks.length = (primaries g).length + (parities g).length := by
  have hnodup : (g.blocks.map fun e => e.1.toNat).Nodup :=
    List.pairwise_map.mpr (hs.imp fun hlt => Nat.ne_of_lt hlt)
  have hperm : (g.blocks.map fun e => e.1.toNat).Perm (primaries g ++ parities g) := by
    rw [primaries_append_parities hkn, List.perm_ext_iff_of_nodup hnodup (List.nodup_range.filter _)]
    intro i
    have hn := g.n.isLt
    rw [List.mem_map, List.mem_filter, List.mem_range]
    constructor
    · rintro ⟨e, he, rfl⟩
      have hlt := hbelow e he
      exact ⟨hlt, (hasBlock_iff (by omega)).mpr ⟨e, he, rfl⟩⟩
    · rintro ⟨hlt, hhas⟩
      exact (hasBlock_iff (by omega)).mp hhas
  simpa using hperm.length_eq

/-- Every primary index was received or is missing (R228). -/
theorem length_primaries_add_missing (g : Group) :
    (primaries g).length + (missing g).length = g.k.toNat := by
  simpa [primaries, missing] using
    (List.length_eq_length_filter_add (l := List.range g.k.toNat) (hasBlock g)).symm

/-- The parity indices do not run out (R233). -/
theorem CompleteGroup.length_missing_le (h : CompleteGroup g) :
    (missing g).length ≤ (parities g).length := by
  have hblocks := length_blocks h.sorted h.kLeN h.indexBelow
  have hk := length_primaries_add_missing g
  have henough := h.enough
  omega

theorem mem_parities (h : i ∈ parities g) : g.k.toNat ≤ i ∧ i < g.n.toNat ∧ hasBlock g i = true := by
  obtain ⟨hi, hhas⟩ := List.mem_filter.mp h
  rw [List.mem_range'_1] at hi
  exact ⟨hi.1, by omega, hhas⟩

/-! ## The index list of a complete record -/

theorem CompleteGroup.length_groupIdx (h : CompleteGroup g) : (groupIdx g).length = g.k.toNat :=
  (assignRows_forall₂ h.length_missing_le).length_eq.symm.trans List.length_range

/-- What stands at row `i` (R231, R232). -/
theorem CompleteGroup.groupIdx_getD (h : CompleteGroup g) (hi : i < g.k.toNat) :
    if hasBlock g i then (groupIdx g).getD i 0 = i else (groupIdx g).getD i 0 ∈ parities g := by
  have hrow := (assignRows_forall₂ h.length_missing_le).get (i := i) (by simpa using hi)
    (h.length_groupIdx.symm ▸ hi)
  rw [List.getD_eq_getElem _ _ (h.length_groupIdx.symm ▸ hi)]
  simpa [groupIdx] using hrow

theorem CompleteGroup.groupIdx_of_received (h : CompleteGroup g) (hi : i < g.k.toNat)
    (hhas : hasBlock g i = true) : (groupIdx g).getD i 0 = i := by
  simpa [hhas] using h.groupIdx_getD hi

/-- Each chosen index is present and below `n`, and a primary one stands at its own row (R157). -/
theorem CompleteGroup.groupIdx_spec (h : CompleteGroup g) (hi : i < g.k.toNat) :
    hasBlock g ((groupIdx g).getD i 0) = true ∧ (groupIdx g).getD i 0 < g.n.toNat ∧
      ((groupIdx g).getD i 0 < g.k.toNat → (groupIdx g).getD i 0 = i) := by
  have hrow := h.groupIdx_getD hi
  split at hrow
  · next hhas => exact hrow.symm ▸ ⟨hhas, hi.trans_le h.kLeN, fun _ => rfl⟩
  · obtain ⟨hk, hn, hhas⟩ := mem_parities hrow
    exact ⟨hhas, hn, fun hlt => absurd hk hlt.not_ge⟩

theorem CompleteGroup.hasBlock_of_mem_groupIdx (h : CompleteGroup g) (hi : i ∈ groupIdx g) :
    hasBlock g i = true ∧ i < g.n.toNat := by
  obtain ⟨j, hj, rfl⟩ := List.mem_iff_getElem.mp hi
  obtain ⟨hhas, hlt, -⟩ := h.groupIdx_spec (h.length_groupIdx ▸ hj)
  rw [List.getD_eq_getElem _ _ hj] at hhas hlt
  exact ⟨hhas, hlt⟩

theorem CompleteGroup.checkIdx_groupIdx (h : CompleteGroup g) :
    checkIdx g.k.toNat g.n.toNat (groupIdx g) = true :=
  checkIdx_iff.mpr fun _ hi => (h.groupIdx_spec (h.length_groupIdx ▸ hi)).2

/-- No parity index is used twice (R158). -/
theorem parityDistinct_groupIdx (g : Group) : parityDistinct g.k.toNat (groupIdx g) :=
  ((List.nodup_range' ..).filter _).sublist (assignRows_filter_sublist fun _ => List.mem_range.mp)

theorem CompleteGroup.validKN (h : CompleteGroup g) : validKN g.k.toNat g.n.toNat = true :=
  validKN_iff.mpr ⟨h.kPos, h.kLeN, g.n.isLt.le⟩

/-! ## The rows given to the engine -/

theorem pad_length {B : Bytes} {m : Nat} (h : B.length ≤ m) : (pad B m).length = m := by
  simp only [pad, zeros, List.length_append, List.length_replicate]
  omega

theorem groupRows_getD (hi : i < (groupIdx g).length) :
    (groupRows g).getD i [] = pad (blockAt g ((groupIdx g).getD i 0)) g.maxlen.toNat := by
  simp [groupRows, List.getD_eq_getElem?_getD, hi]

/-- Every chosen block is padded to `maxlen` bytes (R237). -/
theorem CompleteGroup.length_of_mem_groupRows (h : CompleteGroup g)
    (hlen : ∀ e ∈ g.blocks, e.2.length ≤ g.maxlen.toNat) :
    ∀ r ∈ groupRows g, r.length = g.maxlen.toNat := by
  intro r hr
  obtain ⟨i, hi, rfl⟩ := List.mem_map.mp hr
  exact pad_length (hlen _ (blockAt_mem (h.hasBlock_of_mem_groupIdx hi).1))

/-! ## The emission -/

/-- Fewer than k blocks (R230). -/
theorem emitGroup_of_few {ready : Bool} (x : GrpOut) (h : g.blocks.length < g.k.toNat) :
    emitGroup P ready g cause x = emitNotRecovered g cause .sInsufficient x := by
  rw [emitGroup, if_pos h]

/-- With k blocks the engine's answer decides (R234 to R236). -/
theorem CompleteGroup.emitGroup_of_ok {ready : Bool} {out : List Bytes} (h : CompleteGroup g)
    (x : GrpOut) (hout : groupDecode P ready g = .ok out) :
    emitGroup P ready g cause x = emitRecovered g cause out x := by
  rw [emitGroup, if_neg h.enough.not_gt, if_neg h.length_missing_le.not_gt, hout]

theorem CompleteGroup.emitGroup_of_error {ready : Bool} {code : Status} (h : CompleteGroup g)
    (x : GrpOut) (hcode : groupDecode P ready g = .error code) :
    emitGroup P ready g cause x = emitNotRecovered g cause code x := by
  rw [emitGroup, if_neg h.enough.not_gt, if_neg h.length_missing_le.not_gt, hcode]

theorem groupDecode_without_tables (P : GfParams) (g : Group) : groupDecode P false g = .error .eNoinit := by
  rw [groupDecode, engineDecode, if_pos rfl]

/-- The emission of a decode with the original lengths written out (R238). -/
theorem emitRecovered_eq (out : List Bytes) (x : GrpOut) : emitRecovered g cause out x =
    ({ x.1 with fecRecovered := x.1.fecRecovered + 1 },
      x.2 ++ (List.range g.k.toNat).map (fun i =>
          Record.groupBlock
            { gid := g.gid, index := BitVec.ofNat 8 i, tag := .recovered
              origLen := match kvGet (BitVec.ofNat 16 i) g.blocks with
                | some b => BitVec.ofNat 16 b.length
                | none => g.maxlen
              data := out.getD i [] }) ++
        [.groupDone g.gid g.k g.n (BitVec.ofNat 8 g.blocks.length) .recovered cause .ok]) := by
  rw [emitRecovered]
  congr 3
  refine List.map_congr_left fun i _ => ?_
  rw [recoveredBlock, hasBlock, kvHas, blockAt]
  cases kvGet (BitVec.ofNat 16 i) g.blocks <;> rfl

/-- The engine decodes the index list of a complete record (R234). -/
theorem CompleteGroup.exists_groupDecode (h : CompleteGroup g) (hP : GfLegal P) :
    ∃ B, square g.k.toNat B = true ∧ groupDecode P true g = .ok ((List.range g.k.toNat).map
      (decodeRow P g.k.toNat g.maxlen.toNat (groupIdx g) (groupRows g) B)) := by
  have hlen := h.length_groupIdx
  obtain ⟨B, hB⟩ := exists_decMat hP h.kLeN g.n.isLt.le hlen h.checkIdx_groupIdx (parityDistinct_groupIdx g)
  obtain ⟨hsq, -⟩ := decMat_spec hP hlen h.checkIdx_groupIdx hB
  exact ⟨B, hsq, engineDecode_eq_ok h.validKN hlen (by simpa [groupRows] using hlen)
    h.checkIdx_groupIdx hB⟩

/-- Settles O33: the decode succeeds, its rows have `maxlen` bytes, and a received primary is passed
through at its own index. -/
theorem completeGroupIsRecovered : Obligations.CompleteGroupIsRecovered := by
  intro P hP g cause x hs hk hkn hbelow hlen henough
  have hg : CompleteGroup g := ⟨hs, hk, hkn, hbelow, henough⟩
  obtain ⟨B, hB, hout⟩ := hg.exists_groupDecode hP
  have hrowlen := hg.length_of_mem_groupRows hlen
  have hrows : (groupRows g).length = g.k.toNat := by simpa [groupRows] using hg.length_groupIdx
  refine ⟨_, by simp, fun r hr => ?_, fun i b hi hb => ?_,
    (hg.emitGroup_of_ok x hout).trans (emitRecovered_eq _ x)⟩
  · obtain ⟨i, hi, rfl⟩ := List.mem_map.mp hr
    rw [decodeRow_eq hB hrows hrowlen (List.mem_range.mp hi)]
    split
    · exact hrowlen _ (getD_mem (hrows.symm ▸ List.mem_range.mp hi) _)
    · exact laneRow_length
  · obtain ⟨hhas, hblock⟩ := hasBlock_of_kvGet hb
    have hown := hg.groupIdx_of_received hi hhas
    rw [List.getD_eq_getElem _ _ (by simpa using hi), List.getElem_map, List.getElem_range,
      decodeRow_eq hB hrows hrowlen hi, if_pos (hown.symm ▸ hi),
      groupRows_getD (hg.length_groupIdx.symm ▸ hi), hown, hblock, pad]

/-- Settles O34: the rows given to the engine are blocks of the code word, so `roundTripLaw` returns its
data rows. -/
theorem groupRecoversOriginalData : Obligations.GroupRecoversOriginalData := by
  intro P hP g cause x d hs hk hkn hbelow hlen henough hd hrow hcode
  have hg : CompleteGroup g := ⟨hs, hk, hkn, hbelow, henough⟩
  have hrows : groupRows g = (groupIdx g).map (codeBlock P g.k.toNat g.maxlen.toNat d) := by
    refine List.map_congr_left fun i hi => ?_
    obtain ⟨hhas, hlt⟩ := hg.hasBlock_of_mem_groupIdx hi
    have hn := g.n.isLt
    have hblock := hcode _ (blockAt_mem hhas)
    rwa [BitVec.toNat_ofNat, Nat.mod_eq_of_lt (by omega)] at hblock
  have hout : groupDecode P true g = .ok d := by
    rw [groupDecode, hrows]
    exact roundTripLaw P hP _ _ _ d _ hk hkn g.n.isLt.le hd hrow hg.length_groupIdx
      (fun i hi => (hg.groupIdx_spec hi).2) (parityDistinct_groupIdx g)
  exact (hg.emitGroup_of_ok x hout).trans (emitRecovered_eq d x)

/-- Settles O35: without tables the engine answers E_NOINIT. -/
theorem noTablesFallsBack : Obligations.NoTablesFallsBack := by
  intro P g cause x hs hk hkn hbelow henough
  have hg : CompleteGroup g := ⟨hs, hk, hkn, hbelow, henough⟩
  exact hg.emitGroup_of_error x (groupDecode_without_tables P g)

end Sys2Proof.Machine
end

section
/-! PROOFS. The commands of the group assembler (spec/44_fec_group.md R220 to R230): what AddPacket does with an
existing record and with a new one, and the group of one block. -/

namespace Sys2Proof.Machine

variable {P : GfParams} {ready : Bool} {maxGroups : Nat} {gid : W32} {index : BitVec 16}
  {k n : BitVec 8} {payload : Bytes} {s t : State}

/-! ## The commands over their procedures -/

/-- GRP.ADD that AddPacket accepts (R220). -/
theorem answers_grpAdd_of_some {P : Params} {x : GrpOut} (hf : s.fatal = false) (hp : payload ≠ [])
    (hx : groupAdd P.gf s.gf.gfReady s.csr.grpMaxGroups.toNat gid index k n payload s.grp = some x) :
    Answers P (.grpAdd gid index k n payload) s ({ s with grp := x.1 }.ended 0x30 x.2 .ok) :=
  answers_running rfl hf (by rw [addBlock, if_neg hp, hx]; exact finish_emitAll ..)

/-- GRP.ADD that fails the metadata test (R226). -/
theorem answers_grpAdd_of_none {P : Params} (hf : s.fatal = false) (hp : payload ≠ [])
    (hx : groupAdd P.gf s.gf.gfReady s.csr.grpMaxGroups.toNat gid index k n payload s.grp = none) :
    Answers P (.grpAdd gid index k n payload) s (s.ended 0x30 [.drop .grp .eMeta] .eMeta) :=
  answers_running rfl hf (by rw [addBlock, if_neg hp, hx]; exact finish_emitAll ..)

/-- GRP.ADD with an empty payload (R220). -/
theorem answers_grpAdd_of_empty {P : Params} (hf : s.fatal = false) (hp : payload = []) :
    Answers P (.grpAdd gid index k n payload) s (s.ended 0x30 [] .eOperand) :=
  answers_running rfl hf (by rw [addBlock, if_pos hp, reject_eq_finish, finish_eq_ended])

/-- What GRP.ADD can do (R220): nothing, or what AddPacket answers. -/
theorem exec_grpAdd_cases (h : exec (.grpAdd gid index k n payload) s = .next t) :
    (∃ recs st, t = s.ended 0x30 recs st) ∨
    (∃ x, groupAdd gfDefault s.gf.gfReady s.csr.grpMaxGroups.toNat gid index k n payload s.grp = some x ∧
      t = { s with grp := x.1 }.ended 0x30 x.2 .ok) := by
  have hanswer {u : State} (hu : Answers paramsDefault (.grpAdd gid index k n payload) s u) : t = u :=
    eq_of_exec h (hu.2 rfl)
  rcases Bool.eq_false_or_eq_true s.fatal with hf | hf
  · exact .inl ⟨_, _, hanswer (answers_faulted rfl hf)⟩
  · by_cases hp : payload = []
    · exact .inl ⟨_, _, hanswer (answers_grpAdd_of_empty hf hp)⟩
    · cases hx : groupAdd gfDefault s.gf.gfReady s.csr.grpMaxGroups.toNat gid index k n payload s.grp with
      | none => exact .inl ⟨_, _, hanswer (answers_grpAdd_of_none hf hp hx)⟩
      | some x => exact .inr ⟨x, rfl, hanswer (answers_grpAdd_of_some hf hp hx)⟩

/-- GRP.EXPIRE of a group without a record (R229). -/
theorem answers_grpExpire_of_none {P : Params} (hf : s.fatal = false)
    (hg : groupOf gid s.grp.groups = none) :
    Answers P (.grpExpire gid) s (s.ended 0x31 [] .sNotArmed) :=
  answers_running rfl hf (by rw [expireGroup, hg]; exact finish_eq_ended ..)

/-- GRP.EXPIRE of a group with a record (R229). -/
theorem answers_grpExpire_of_some {P : Params} {g : Group} (hf : s.fatal = false)
    (hg : groupOf gid s.grp.groups = some g) :
    Answers P (.grpExpire gid) s
      ({ s with grp := (flushGroup P.gf s.gf.gfReady g .expiry (s.grp, [])).1 }.ended 0x31
        (flushGroup P.gf s.gf.gfReady g .expiry (s.grp, [])).2 .ok) :=
  answers_running rfl hf (by rw [expireGroup, hg]; exact finish_emitAll ..)

/-- What GRP.EXPIRE can do (R229): nothing, or the flush of one record. -/
theorem exec_grpExpire_cases (h : exec (.grpExpire gid) s = .next t) :
    (∃ st, t = s.ended 0x31 [] st) ∨
    (∃ g, t = { s with grp := (flushGroup gfDefault s.gf.gfReady g .expiry (s.grp, [])).1 }.ended 0x31
      (flushGroup gfDefault s.gf.gfReady g .expiry (s.grp, [])).2 .ok) := by
  have hanswer {u : State} (hu : Answers paramsDefault (.grpExpire gid) s u) : t = u :=
    eq_of_exec h (hu.2 rfl)
  rcases Bool.eq_false_or_eq_true s.fatal with hf | hf
  · exact .inl ⟨_, hanswer (answers_faulted rfl hf)⟩
  · cases hg : groupOf gid s.grp.groups with
    | none => exact .inl ⟨_, hanswer (answers_grpExpire_of_none hf hg)⟩
    | some g => exact .inr ⟨g, hanswer (answers_grpExpire_of_some hf hg)⟩

/-! ## The list of records -/

theorem removeGroup_of_absent {x : Grp} (h : ∀ r ∈ x.groups, r.gid ≠ gid) : removeGroup gid x = x := by
  rw [removeGroup, List.filter_eq_self.mpr fun r hr => by simpa using h r hr]

/-- A record that leaves takes its last change with it. -/
theorem removeGroup_updateGroup (g : Group) (x : Grp) :
    removeGroup g.gid (updateGroup g x) = removeGroup g.gid x := by
  simp only [removeGroup, updateGroup, List.filter_map, Grp.mk.injEq, and_true]
  have hgid : (fun r : Group => r.gid != g.gid) ∘ (fun r => if r.gid = g.gid then g else r) =
      fun r => r.gid != g.gid := by
    funext r
    by_cases hr : r.gid = g.gid <;> simp [hr]
  rw [hgid]
  refine (List.map_congr_left fun r hr => ?_).trans (List.map_id _)
  rw [if_neg (by simpa using (List.mem_filter.mp hr).2), id]

/-- The record of a group changes, the others stay in place (R225). -/
theorem updateGroup_of_middle {g r : Group} {x : Grp} {before after : List Group}
    (hx : x.groups = before ++ r :: after) (hr : r.gid = g.gid)
    (hbefore : ∀ q ∈ before, q.gid ≠ g.gid) (hafter : ∀ q ∈ after, q.gid ≠ g.gid) :
    updateGroup g x = { x with groups := before ++ g :: after } := by
  have hkeep {l : List Group} (hl : ∀ q ∈ l, q.gid ≠ g.gid) :
      l.map (fun q => if q.gid = g.gid then g else q) = l :=
    (List.map_congr_left fun q hq => if_neg (hl q hq)).trans (List.map_id _)
  rw [updateGroup, hx, List.map_append, List.map_cons, hkeep hbefore, hkeep hafter, if_pos hr]

/-! ## Recording a block -/

/-- Below k blocks the record changes in its place and nothing is emitted (R225). -/
theorem addToGroup_of_lt {g : Group} (x : GrpOut)
    (h : (recordBlock index payload g).blocks.length < g.k.toNat) :
    addToGroup P ready index payload g x = (updateGroup (recordBlock index payload g) x.1, x.2) :=
  if_neg h.not_ge

/-- With k blocks the record leaves and is flushed (R224). -/
theorem addToGroup_of_le {g : Group} (x : GrpOut)
    (h : g.k.toNat ≤ (recordBlock index payload g).blocks.length) :
    addToGroup P ready index payload g x =
      emitGroup P ready (recordBlock index payload g) .countReached (removeGroup g.gid x.1, x.2) := by
  refine (if_pos h).trans ?_
  rw [flushGroup, removeGroup_updateGroup]
  rfl

/-- AddPacket with the record of its group: the operands k and n are not read (R226). -/
theorem groupAdd_existing {g : Grp} {r : Group} (hg : GrpInv g) (hr : r ∈ g.groups) (hgid : r.gid = gid) :
    groupAdd P ready maxGroups gid index k n payload g =
      if r.n.toNat ≤ index.toNat then none else some (addToGroup P ready index payload r (g, [])) := by
  subst hgid
  rw [groupAdd, groupOf_some hg.distinct hr]

theorem recordBlock_maxlen (g : Group) (hl : payload.length ≤ Config.maxLen) :
    (recordBlock index payload g).maxlen.toNat = max g.maxlen.toNat payload.length := by
  have hg := g.maxlen.isLt
  have hmax : Config.maxLen = 65535 := rfl
  simp only [recordBlock, BitVec.toNat_ofNat]
  omega

/-- Settles O27: each test of AddPacket; the record of a group answers for the operands. -/
theorem metadataIsTested : Obligations.MetadataIsTested := by
  intro P gid index k n payload s hf
  refine ⟨answers_grpAdd_of_empty hf, fun hp hnew hbad => answers_grpAdd_of_none hf hp ?_,
    fun hp r hr hg hgid => ⟨fun hi => answers_grpAdd_of_none hf hp ?_, fun k' n' => ?_⟩⟩
  · have hbad' : badMeta index k n = true := by simpa using mt badMeta_eq_false.mp hbad
    rw [groupAdd, groupOf_none.mpr hnew]
    exact if_pos hbad'
  · rw [groupAdd_existing hg hr hgid, if_pos hi]
  · have hsame (P : Params) : execWith P (.grpAdd gid index k n payload) s =
        execWith P (.grpAdd gid index k' n' payload) s := by
      have hadd : addBlock P.gf gid index k n payload s = addBlock P.gf gid index k' n' payload s := by
        rw [addBlock, addBlock, groupAdd_existing hg hr hgid, groupAdd_existing hg hr hgid]
      exact (answers_running rfl hf hadd).1.trans (answers_running rfl hf rfl).1.symm
    exact ⟨hsame P, by rw [exec_eq_execWith, exec_eq_execWith, hsame]⟩

/-- Settles O26: the record is changed in its place, and its store by one write. -/
theorem blockIsRecorded : Obligations.BlockIsRecorded := by
  intro P gid index k n payload s before after r hf hp hl hg hgroups hgid hi hcount
  have hr : r ∈ s.grp.groups := hgroups ▸ List.mem_append_right _ List.mem_cons_self
  have hinv : GroupInv r := hg.records r hr
  have hlength : (recordBlock index payload r).blocks.length =
      if (kvGet index r.blocks).isSome then r.blocks.length else r.blocks.length + 1 :=
    length_kvPut hinv.sorted
  have hfew : (recordBlock index payload r).blocks.length < r.k.toNat := by
    rw [hlength]
    cases hget : kvGet index r.blocks with
    | none => simpa using hcount hget
    | some b => simpa using hinv.countBelow
  have hdistinct := hg.distinct
  rw [hgroups, List.map_append, List.map_cons, List.nodup_middle, List.nodup_cons, List.mem_append] at hdistinct
  obtain ⟨hothers, -⟩ := hdistinct
  have hupdate : updateGroup (recordBlock index payload r) s.grp =
      { s.grp with groups := before ++ recordBlock index payload r :: after } :=
    updateGroup_of_middle hgroups rfl
      (fun q hq heq => hothers (.inl (heq ▸ List.mem_map_of_mem hq)))
      (fun q hq heq => hothers (.inr (heq ▸ List.mem_map_of_mem hq)))
  have hadd := groupAdd_existing (P := P.gf) (ready := s.gf.gfReady)
    (maxGroups := s.csr.grpMaxGroups.toNat) (k := k) (n := n) (index := index) (payload := payload) hg hr hgid
  rw [if_neg hi.not_ge, addToGroup_of_lt _ hfew, hupdate] at hadd
  exact ⟨recordBlock index payload r, answers_grpAdd_of_some hf hp hadd, hgid, rfl, rfl,
    recordBlock_maxlen r hl, kvGet_kvPut_self, fun j hj => kvGet_kvPut_other hj, hlength⟩

/-- Settles O28: the new index makes the count k, so the record leaves and is flushed. -/
theorem reachingKFlushes : Obligations.ReachingKFlushes := by
  intro P gid index k n payload s r r' x hf hp hg hr hgid hi hnew hcount hr' hx
  have hfull : r.k.toNat ≤ (recordBlock index payload r).blocks.length := by
    have hlength := length_kvPut (k := index) (v := payload) (hg.records r hr).sorted
    rw [hnew, Option.isSome_none, if_neg Bool.false_ne_true, hcount] at hlength
    exact hlength.ge
  refine answers_grpAdd_of_some hf hp ?_
  rw [groupAdd_existing hg hr hgid, if_neg hi.not_ge, addToGroup_of_le _ hfull, hx, hr', ← hgid]
  rfl

/-! ## A new record -/

/-- The record of a new group with its first block (R222, R225). -/
def openedGroup (gid : W32) (k n : BitVec 8) (index : BitVec 16) (payload : Bytes) : Group :=
  { gid := gid, k := k, n := n, blocks := [(index, payload)], maxlen := BitVec.ofNat 16 payload.length }

theorem recordBlock_newGroup (gid : W32) (k n : BitVec 8) (index : BitVec 16) (payload : Bytes) :
    recordBlock index payload (newGroup gid k n) = openedGroup gid k n index payload := by
  simp [recordBlock, newGroup, openedGroup, kvPut]

/-- AddPacket without a record of its group: the eviction makes room for a new one (R222, R223). -/
theorem groupAdd_new {g : Grp} (hnew : ∀ r ∈ g.groups, r.gid ≠ gid) (hk : 1 ≤ k.toNat)
    (hkn : k.toNat ≤ n.toNat) (hi : index.toNat < n.toNat) {y : GrpOut}
    (hy : evict P ready maxGroups (g, []) = y) :
    groupAdd P ready maxGroups gid index k n payload g =
      some (addToGroup P ready index payload (newGroup gid k n)
        ({ y.1 with groups := y.1.groups ++ [newGroup gid k n] }, y.2)) := by
  have hgood : badMeta index k n = false := badMeta_eq_false.mpr ⟨hk, hkn, hi⟩
  subst hy
  rw [groupAdd, groupOf_none.mpr hnew]
  exact if_neg (by simp [hgood])

/-- With 2 ≤ k the new record stays, with its first block. -/
theorem addToGroup_newGroup {y : GrpOut} (hnew : ∀ r ∈ y.1.groups, r.gid ≠ gid) (hk : 2 ≤ k.toNat) :
    addToGroup P ready index payload (newGroup gid k n)
        ({ y.1 with groups := y.1.groups ++ [newGroup gid k n] }, y.2) =
      ({ y.1 with groups := y.1.groups ++ [openedGroup gid k n index payload] }, y.2) := by
  have hfew : (recordBlock index payload (newGroup gid k n)).blocks.length < (newGroup gid k n).k.toNat := hk
  have hupdate : updateGroup (openedGroup gid k n index payload)
        { y.1 with groups := y.1.groups ++ [newGroup gid k n] } =
      { y.1 with groups := y.1.groups ++ [openedGroup gid k n index payload] } :=
    updateGroup_of_middle rfl rfl hnew (by simp)
  rw [addToGroup_of_lt _ hfew, recordBlock_newGroup, hupdate]

/-- With k = 1 it is flushed at once (R224). -/
theorem addToGroup_newGroup_one {y : GrpOut} (hnew : ∀ r ∈ y.1.groups, r.gid ≠ gid) (hk : k.toNat = 1) :
    addToGroup P ready index payload (newGroup gid k n)
        ({ y.1 with groups := y.1.groups ++ [newGroup gid k n] }, y.2) =
      emitGroup P ready (openedGroup gid k n index payload) .countReached y := by
  have hfull : (newGroup gid k n).k.toNat ≤ (recordBlock index payload (newGroup gid k n)).blocks.length :=
    hk.le
  have hleaves : removeGroup gid { y.1 with groups := y.1.groups ++ [newGroup gid k n] } =
      removeGroup gid y.1 := by simp [removeGroup, newGroup]
  rw [addToGroup_of_le _ hfull, recordBlock_newGroup]
  exact congrArg (emitGroup P ready _ _) (Prod.ext (hleaves.trans (removeGroup_of_absent hnew)) rfl)

/-- Settles O25: there is room, so nothing is evicted. -/
theorem newGroupOpensRecord : Obligations.NewGroupOpensRecord := by
  intro P gid index k n payload s hf hp _ hnew hroom hk hkn hi
  refine answers_grpAdd_of_some hf hp (x := ({ s.grp with groups := _ }, [])) ?_
  rw [groupAdd_new hnew (by omega) hkn hi (evict_below (x := (s.grp, [])) P.gf _ hroom),
    addToGroup_newGroup hnew hk]
  rfl

/-! ## The group of one block -/

theorem ginv_one (F : GfField) : ginv F 1 = 1 := by
  rw [ginv, if_neg (by decide)]
  simp only [one_gmul]
  decide +kernel

/-- A parity coefficient of k = 1 is an empty product (R146). -/
theorem encRow_one (P : GfParams) (r : Nat) : encRow P 1 r = [1] := by
  unfold encRow
  split
  · next hr => rw [Nat.lt_one_iff.mp hr]; rfl
  · rfl

theorem decInput_one (P : GfParams) (x : Nat) : decInput P 1 [x] = [[1]] := by
  have hrow : decInputRow P 1 0 x = [1] := by
    rw [decInputRow_eq_encRow (Nat.lt_one_iff.mp ·), encRow_one]
  rw [decInput, List.mapIdx_singleton, hrow]

/-- The code of k = 1 repeats its block, whatever the field parameters are (R146). -/
theorem decMat_one (P : GfParams) (x : Nat) : decMat P 1 [x] = some [[1]] := by
  rw [decMat, decInput_one]
  simpa [matInv, gaussSteps, gaussStep, identity, unitRow, findPivot, swapRows, normalize, scaleRow,
    List.range_succ] using (gmul_one P.field _).trans (ginv_one P.field)

/-- A sum of one row with coefficient 1 is the row. -/
theorem combine_one (F : GfField) (B : Bytes) : combine F B.length [1] [B] = B := by
  simp only [combine, List.zip_cons_cons, List.zip_nil_right, List.foldl_cons, List.foldl_nil, addMul,
    one_gmul, zeros]
  refine List.ext_getElem (by simp) fun j hj hj' => ?_
  simp

theorem completeGroup_openedGroup (gid : W32) (payload : Bytes) (hi : index.toNat < n.toNat) :
    CompleteGroup (openedGroup gid 1 n index payload) where
  sorted := List.pairwise_singleton _ _
  kPos := le_rfl
  kLeN := Nat.one_le_of_lt hi
  indexBelow := by simpa [openedGroup] using hi
  enough := le_rfl

theorem openedGroup_maxlen (hl : payload.length ≤ Config.maxLen) :
    (openedGroup gid k n index payload).maxlen.toNat = payload.length :=
  (BitVec.toNat_ofNat ..).trans (Nat.mod_eq_of_lt (Nat.lt_succ_of_le hl))

theorem hasBlock_openedGroup {i : Nat} (hi : i < 65536) :
    hasBlock (openedGroup gid k n index payload) i = true ↔ index.toNat = i := by
  simp [hasBlock_iff hi, openedGroup]

theorem primaries_openedGroup_one : primaries (openedGroup gid 1 n index payload) =
    if index = 0 then [0] else [] := by
  have hhas := hasBlock_openedGroup (gid := gid) (k := 1) (n := n) (index := index) (payload := payload)
    (i := 0) (by decide)
  have hrange : primaries (openedGroup gid 1 n index payload) =
      [0].filter (hasBlock (openedGroup gid 1 n index payload)) := rfl
  have hzero : index = 0 ↔ index.toNat = 0 := BitVec.toNat_inj.symm
  simp only [hrange, hzero, ← hhas, List.filter_cons, List.filter_nil]

theorem blockAt_openedGroup : blockAt (openedGroup gid k n index payload) index.toNat = payload := by
  simp [blockAt, openedGroup, kvGet]

/-- The one block is the one the engine gets, at whatever index it was received. -/
theorem groupIdx_openedGroup (hi : index.toNat < n.toNat) :
    groupIdx (openedGroup gid 1 n index payload) = [index.toNat] := by
  have hg := completeGroup_openedGroup gid payload hi
  obtain ⟨x, hx⟩ := List.length_eq_one_iff.mp hg.length_groupIdx
  obtain ⟨hhas, hlt⟩ := hg.hasBlock_of_mem_groupIdx (hx ▸ List.mem_singleton_self x)
  have hsmall : x < 65536 := hlt.trans (n.isLt.trans (by decide))
  rw [hx, (hasBlock_openedGroup hsmall).mp hhas]

/-- A repetition code: the row is the block (R146, R236). -/
theorem groupDecode_openedGroup (P : GfParams) (gid : W32) (hi : index.toNat < n.toNat)
    (hl : payload.length ≤ Config.maxLen) :
    groupDecode P true (openedGroup gid 1 n index payload) = .ok [payload] := by
  have hg := completeGroup_openedGroup gid payload hi
  have hidx := groupIdx_openedGroup (gid := gid) (payload := payload) hi
  have hrows : groupRows (openedGroup gid 1 n index payload) = [payload] := by
    rw [groupRows, hidx, List.map_singleton, blockAt_openedGroup, openedGroup_maxlen hl, pad,
      Nat.sub_self]
    exact congrArg (· :: []) (List.append_nil _)
  have hcheck := hg.checkIdx_groupIdx
  have hvalid : validKN 1 n.toNat = true := hg.validKN
  have hone : (openedGroup gid 1 n index payload).k.toNat = 1 := rfl
  have hn : (openedGroup gid 1 n index payload).n = n := rfl
  rw [hidx, hone, hn] at hcheck
  rw [groupDecode, hidx, hrows, openedGroup_maxlen hl, hone, hn,
    engineDecode_eq_ok hvalid rfl rfl hcheck (decMat_one P _), List.range_one, List.map_singleton]
  have hrow : decodeRow P 1 payload.length [index.toNat] [payload] [[1]] 0 = payload := by
    rw [decodeRow]
    split
    · rfl
    · exact combine_one P.field payload
  rw [hrow]

/-- The original length is the payload's, the block being received as block 0 or recovered (R238). -/
theorem recoveredBlock_openedGroup_one : recoveredBlock (openedGroup gid 1 n index payload) 0 payload =
    .groupBlock { gid := gid, index := 0, tag := .recovered
                  origLen := BitVec.ofNat 16 payload.length, data := payload } := by
  rw [recoveredBlock]
  split
  · next hhas =>
    have hzero : index.toNat = 0 := (hasBlock_openedGroup (by decide)).mp hhas
    rw [← hzero, blockAt_openedGroup, hzero]
    rfl
  · rfl

/-- Settles O29: there is room, and the record leaves at once with its block decoded, or, without tables, as
received. -/
theorem groupOfOneFlushesAtOnce : Obligations.GroupOfOneFlushesAtOnce := by
  intro P gid index n payload s hf hp hl hnew hroom hi
  have hg := completeGroup_openedGroup gid payload hi
  have hadd : groupAdd P.gf s.gf.gfReady s.csr.grpMaxGroups.toNat gid index 1 n payload s.grp =
      some (emitGroup P.gf s.gf.gfReady (openedGroup gid 1 n index payload) .countReached (s.grp, [])) := by
    rw [groupAdd_new (k := 1) (n := n) hnew le_rfl (Nat.one_le_of_lt hi) hi
        (evict_below (x := (s.grp, [])) P.gf _ hroom),
      addToGroup_newGroup_one hnew rfl]
  refine ⟨fun hr => answers_grpAdd_of_some hf hp (x := ({ s.grp with fecRecovered := _ }, _)) ?_,
    fun hr => answers_grpAdd_of_some hf hp (x := ({ s.grp with fecFailed := _ }, _)) ?_⟩
  · rw [hadd, hr, hg.emitGroup_of_ok _ (groupDecode_openedGroup P.gf gid hi hl)]
    exact congrArg (fun b => some (_, [b, _])) recoveredBlock_openedGroup_one
  · rw [hadd, hr, hg.emitGroup_of_error _ (groupDecode_without_tables P.gf _), emitNotRecovered,
      primaries_openedGroup_one]
    split
    · next hzero => subst hzero; rfl
    · rfl

end Sys2Proof.Machine
end

section
/-! PROOFS. Records that leave before they are complete (spec/44_fec_group.md R223, R229, R230): the eviction as
a function of the records in excess, GRP.EXPIRE, and the bound of the open groups. -/

namespace Sys2Proof.Machine

variable {P : GfParams} {ready : Bool} {maxGroups : Nat} {gid : W32} {index : BitVec 16}
  {k n : BitVec 8} {payload : Bytes} {s t : State}

/-! ## The eviction -/

/-- What the eviction emits for a record below k blocks (R223, R230). -/
def evictionRecords (r : Group) : List Record :=
  (primaries r).map (notRecoveredBlock r) ++ [groupDone r .notRecovered .eviction .sInsufficient]

theorem evictLoop_below (P : GfParams) (ready : Bool) (fuel : Nat) {x : GrpOut}
    (h : x.1.groups.length < maxGroups) : evictLoop P ready maxGroups fuel x = x := by
  cases fuel with
  | zero => rfl
  | succ fuel =>
    rw [evictLoop]
    split
    · rfl
    · exact if_pos h

/-- One round at the bound or above it: the oldest record leaves as not recovered (R223). -/
theorem evictLoop_succ (P : GfParams) (ready : Bool) (fuel : Nat) {x : GrpOut} {oldest : Group}
    {rest : List Group} (hx : x.1.groups = oldest :: rest) (hd : ((oldest :: rest).map Group.gid).Nodup)
    (hfew : oldest.blocks.length < oldest.k.toNat) (hmax : maxGroups ≤ (oldest :: rest).length) :
    evictLoop P ready maxGroups (fuel + 1) x = evictLoop P ready maxGroups fuel
      ({ x.1 with groups := rest, fecFailed := x.1.fecFailed + 1 }, x.2 ++ evictionRecords oldest) := by
  have hremove : removeGroup oldest.gid x.1 = { x.1 with groups := rest } := by
    rw [removeGroup, hx, filter_oldest hd]
  have hflush : flushGroup P ready oldest .eviction x =
      ({ x.1 with groups := rest, fecFailed := x.1.fecFailed + 1 }, x.2 ++ evictionRecords oldest) := by
    rw [flushGroup, emitGroup_of_few _ hfew, emitNotRecovered, hremove, evictionRecords, List.append_assoc]
  rw [evictLoop, hx]
  exact (if_neg hmax.not_gt).trans (by rw [hflush])

/-- The records in excess leave, oldest first (R223). -/
theorem evictLoop_eq (P : GfParams) (ready : Bool) {old kept : List Group} {fuel : Nat} {x : GrpOut}
    (hx : x.1.groups = old ++ kept) (hd : ((old ++ kept).map Group.gid).Nodup)
    (hfew : ∀ r ∈ old, r.blocks.length < r.k.toNat) (hmax : kept.length + 1 = maxGroups)
    (hfuel : old.length ≤ fuel) :
    evictLoop P ready maxGroups fuel x =
      ({ x.1 with groups := kept, fecFailed := x.1.fecFailed + BitVec.ofNat 32 old.length },
        x.2 ++ old.flatMap evictionRecords) := by
  induction old generalizing fuel x with
  | nil =>
    have hkept : x.1.groups = kept := hx
    rw [evictLoop_below P ready fuel (by rw [hkept]; omega), ← hkept]
    simp
  | cons oldest old ih =>
    obtain ⟨hfewOldest, hfewOld⟩ := List.forall_mem_cons.mp hfew
    obtain ⟨fuel, rfl⟩ := Nat.exists_eq_add_of_le' (Nat.one_le_of_lt hfuel)
    have hcount : x.1.fecFailed + 1 + BitVec.ofNat 32 old.length =
        x.1.fecFailed + BitVec.ofNat 32 (oldest :: old).length := by
      rw [List.length_cons, Nat.add_comm, BitVec.ofNat_add, BitVec.add_assoc]
      rfl
    rw [evictLoop_succ P ready fuel hx hd hfewOldest (by simp; omega),
      ih rfl (List.nodup_cons.mp hd).2 hfewOld (Nat.le_of_succ_le_succ hfuel), hcount, List.flatMap_cons,
      List.append_assoc]

/-- Settles O30: `evictLoop_eq` for the records in excess, then the new one. -/
theorem evictionFlushesOldest : Obligations.EvictionFlushesOldest := by
  intro P gid index k n payload s old kept new evicted g hf hp _ hg hgroups _ hroom hnew hk hkn hi hopened
    hevicted hgrp
  have hevict : evict P.gf s.gf.gfReady s.csr.grpMaxGroups.toNat (s.grp, []) = (g, evicted) := by
    rw [evict, evictLoop_eq P.gf _ hgroups (hgroups ▸ hg.distinct)
      (fun r hr => (hg.records r (hgroups ▸ List.mem_append_left _ hr)).countBelow) hroom
      (by simp [hgroups]), hgrp, hevicted]
    rfl
  have hkept : ∀ r ∈ g.groups, r.gid ≠ gid := fun r hr =>
    hnew r (hgroups ▸ List.mem_append_right old (by simpa [hgrp] using hr))
  have hadd := groupAdd_new (payload := payload) hnew hk hkn hi hevict
  refine ⟨fun htwo => answers_grpAdd_of_some hf hp (x := ({ g with groups := _ }, _)) ?_,
    fun hone x hx => answers_grpAdd_of_some hf hp ?_⟩
  · rw [hadd, addToGroup_newGroup (y := (g, evicted)) hkept htwo, hopened, hgrp]
    rfl
  · rw [hadd, addToGroup_newGroup_one (y := (g, evicted)) hkept hone, hx, hopened]
    rfl

/-! ## GRP.EXPIRE -/

/-- The received primaries, read from the record by index (R230). -/
theorem map_primaries (g : Group) : (primaries g).map (notRecoveredBlock g) =
    (List.range g.k.toNat).filterMap (fun i =>
      (kvGet (BitVec.ofNat 16 i) g.blocks).map (fun (b : Bytes) =>
        Record.groupBlock
          { gid := g.gid, index := BitVec.ofNat 8 i, tag := .notRecovered
            origLen := BitVec.ofNat 16 b.length, data := b })) := by
  rw [primaries, ← List.filterMap_eq_map', List.filterMap_filter]
  refine List.filterMap_congr fun i _ => ?_
  rw [hasBlock, kvHas, notRecoveredBlock, blockAt]
  cases kvGet (BitVec.ofNat 16 i) g.blocks <;> rfl

/-- Settles O32: a record between commands has fewer than k blocks. -/
theorem expiryEmitsReceivedPrimaries : Obligations.ExpiryEmitsReceivedPrimaries := by
  intro P gid s
  refine ⟨answers_faulted rfl, fun hf hnew => answers_grpExpire_of_none hf (groupOf_none.mpr hnew),
    fun hf hg r hr hgid => ?_⟩
  subst hgid
  have hanswer := answers_grpExpire_of_some (P := P) hf (groupOf_some hg.distinct hr)
  rw [flushGroup, emitGroup_of_few _ (hg.records r hr).countBelow, emitNotRecovered, map_primaries,
    List.nil_append] at hanswer
  exact hanswer

/-! ## The bound of the open groups -/

theorem flushGroup_length_le (P : GfParams) (ready : Bool) (g : Group) (cause : Cause) (x : GrpOut) :
    (flushGroup P ready g cause x).1.groups.length ≤ x.1.groups.length :=
  (flushGroup_groups P ready g cause x).1 ▸ List.length_filter_le _ _

/-- Recording a block adds no record (R225). -/
theorem addToGroup_length_le (P : GfParams) (ready : Bool) (index : BitVec 16) (payload : Bytes)
    (g : Group) (x : GrpOut) :
    (addToGroup P ready index payload g x).1.groups.length ≤ x.1.groups.length := by
  have hupdate (g' : Group) : (updateGroup g' x.1).groups.length = x.1.groups.length := List.length_map _
  simp only [addToGroup]
  split
  · exact (flushGroup_length_le ..).trans_eq (hupdate _)
  · exact (hupdate _).le

/-- AddPacket makes room before it makes a record (R223). -/
theorem groupAdd_length_le {g : Grp} {x : GrpOut} (hd : (g.groups.map Group.gid).Nodup)
    (hmax : 1 ≤ maxGroups) (hlen : g.groups.length ≤ maxGroups)
    (hx : groupAdd P ready maxGroups gid index k n payload g = some x) : x.1.groups.length ≤ maxGroups := by
  unfold groupAdd at hx
  split at hx
  · split_ifs at hx
    obtain rfl := Option.some.inj hx
    obtain ⟨-, hbelow, -⟩ := evict_spec P ready maxGroups (g, []) hd
    refine (addToGroup_length_le ..).trans ?_
    rw [List.length_append]
    exact hbelow hmax
  · split_ifs at hx
    obtain rfl := Option.some.inj hx
    exact (addToGroup_length_le ..).trans hlen

/-- Only CSR.WR of register 3 writes `GRP_MAX_GROUPS` (R40, R287). -/
theorem csrWrite_grpMaxGroups {reg : BitVec 8} (value : W32) (c : Csr) (h : reg ≠ 0x03) :
    (csrWrite reg value c).grpMaxGroups = c.grpMaxGroups := by
  unfold csrWrite
  split
  case h_4 hthree => exact absurd (BitVec.eq_of_toNat_eq hthree) h
  all_goals rfl

/-- CSR.WR of another register keeps the groups and `GRP_MAX_GROUPS` (R287). -/
theorem exec_csrWr_maxGroups {reg : BitVec 8} {value : W32} (hreg : reg ≠ 0x03)
    (h : exec (.csrWr reg value) s = .next t) :
    t.grp = s.grp ∧ t.csr.grpMaxGroups = s.csr.grpMaxGroups := by
  obtain rfl := Host.Outcome.next.inj h
  unfold unlessFatal
  split
  · exact ⟨rfl, rfl⟩
  · split
    · exact ⟨rfl, csrWrite_grpMaxGroups value s.csr hreg⟩
    · exact ⟨rfl, rfl⟩

/-- Settles O31: AddPacket ends within the bound, an expiry adds no record, teardown and reset leave none,
and no other command reaches the groups. -/
theorem openGroupsAreBounded : Obligations.OpenGroupsAreBounded := by
  intro i s t hi hc hg hlen h
  cases i with
  | grpAdd gid index k n payload =>
    rcases exec_grpAdd_cases h with ⟨recs, st, rfl⟩ | ⟨x, hx, rfl⟩
    · exact hlen
    · exact groupAdd_length_le hg.distinct hc.groups hlen hx
  | grpExpire gid =>
    rcases exec_grpExpire_cases h with ⟨st, rfl⟩ | ⟨g, rfl⟩
    · exact hlen
    · exact (flushGroup_length_le ..).trans hlen
  | sysTeardown =>
    obtain rfl := Host.Outcome.next.inj h
    unfold unlessFatal
    split
    · exact hlen
    · exact Nat.zero_le _
  | sysReset =>
    obtain rfl := Host.Outcome.next.inj h
    exact Nat.zero_le _
  | csrWr reg value =>
    obtain ⟨hgrp, hmax⟩ := exec_csrWr_maxGroups (fun hreg => hi value (by rw [hreg])) h
    rwa [hgrp, hmax]
  | _ =>
    obtain ⟨-, -, hgrp, -, -, hcsr, -⟩ := unitsDoNotInterfere _ s t h
    have hgrp : t.grp = s.grp := not_not.mp (mt hgrp (by simp [Instr.opcode]))
    have hcsr : t.csr = s.csr := not_not.mp (mt hcsr (by simp [Instr.opcode]))
    rwa [hgrp, hcsr]

end Sys2Proof.Machine
end

section
/-! PROOFS. The procedures of the depacketizer (spec/45_depacketizer.md R250 to R272): each as an equation per
case of its rule, and DEP.PACKET over them. -/

namespace Sys2Proof.Machine

variable {threshold : BitVec 16} {seq : Seq} {ts : W32} {m : Bool} {payload bytes body : Bytes}
  {ind fh : Byte} {d : Dep} {out : List Record} {x : DepOut} {s t : State}

/-! ## CheckSeq -/

theorem isDiscontinuity_eq_false_iff :
    isDiscontinuity seq d = false ↔ d.started = false ∨ seq = d.lastSeq + 1 := by
  cases hs : d.started <;> simp [isDiscontinuity, hs]

/-- A packet that is no discontinuity moves `last_seq` alone (R255). -/
theorem checkSeq_of_next (h : isDiscontinuity seq d = false) :
    checkSeq threshold seq (d, out) = ({ d with started := true, lastSeq := seq }, out) := by
  simp [checkSeq, h]

/-- A discontinuity is counted and reported (R256). -/
theorem checkSeq_of_small_gap (h : isDiscontinuity seq d = true)
    (hgap : seqGap d.lastSeq seq ≤ threshold.toNat) :
    checkSeq threshold seq (d, out) =
      ({ d with discont := d.discont + 1, started := true, lastSeq := seq },
        out ++ [.discontinuity d.lastSeq seq (BitVec.ofNat 16 (seqGap d.lastSeq seq))]) := by
  simp [checkSeq, h, Nat.not_lt.mpr hgap]

/-- Above the threshold it also drops the accumulation (R257). -/
theorem checkSeq_of_large_gap (h : isDiscontinuity seq d = true)
    (hgap : threshold.toNat < seqGap d.lastSeq seq) :
    checkSeq threshold seq (d, out) =
      ({ clearFu d with discont := d.discont + 1, started := true, lastSeq := seq },
        out ++ [.discontinuity d.lastSeq seq (BitVec.ofNat 16 (seqGap d.lastSeq seq))]) := by
  simp [checkSeq, h, hgap, clearFu]

/-- Settles O37: the discontinuity test, then the threshold. -/
theorem sequenceGapsAreReported : Obligations.SequenceGapsAreReported := by
  intro threshold seq d out
  refine ⟨fun h => checkSeq_of_next (isDiscontinuity_eq_false_iff.mpr h), fun hs hne => ?_⟩
  have hdisc : isDiscontinuity seq d = true := by
    rw [isDiscontinuity, hs, Bool.true_and, bne_iff_ne]
    exact hne
  rintro _ rfl
  exact ⟨checkSeq_of_small_gap hdisc, checkSeq_of_large_gap hdisc⟩

/-! ## AddNal -/

/-- The depacketizer with a NAL added to the open unit, or to a new one when none is open (R268). -/
def joinUnit (ts : W32) (bytes : Bytes) (d : Dep) : Dep :=
  { d with
    auOpen := true, auTs := ts
    auNals := (if d.auOpen then d.auNals else []) ++ [bytes]
    auKey := (d.auOpen && d.auKey) || nalType (byteAt bytes 0) == 5
    auSps := (d.auOpen && d.auSps) || nalType (byteAt bytes 0) == 7
    auPps := (d.auOpen && d.auPps) || nalType (byteAt bytes 0) == 8 }

/-- A NAL joins when no unit of another timestamp is open (R268). -/
theorem addNal_of_joins (h : d.auOpen = true → d.auTs = ts) :
    addNal ts bytes (d, out) = (joinUnit ts bytes d, out ++ [.nal ts bytes]) := by
  cases ho : d.auOpen with
  | false => simp [addNal, boundaryByTs, openAu, noteNalType, joinUnit, ho]
  | true =>
    obtain rfl := h ho
    simp [addNal, boundaryByTs, openAu, noteNalType, joinUnit, ho]

/-- An open unit of another timestamp is closed first (R268, R270). -/
theorem addNal_of_other (ho : x.1.auOpen = true) (hts : x.1.auTs ≠ ts) :
    addNal ts bytes x = addNal ts bytes (closeAu x) := by
  have hclosed : boundaryByTs ts (closeAu x) = closeAu x := if_neg (by simp [closeAu])
  simp only [addNal, hclosed]
  rw [boundaryByTs, if_pos ⟨ho, hts⟩]

/-- Settles O38: the NAL joins, after CloseAU where the open unit has another timestamp. -/
theorem nalJoinsItsUnit : Obligations.NalJoinsItsUnit := by
  rintro ts bytes d out _ rfl
  refine ⟨fun ho hts => ?same, fun ho => ?closed, fun ho hts => ?other⟩
  case same =>
    rw [addNal_of_joins fun _ => hts]
    simp [joinUnit, nalType, ho, ← hts]
  case closed =>
    rw [addNal_of_joins (by simp [ho])]
    simp [joinUnit, nalType, ho]
  case other =>
    rw [addNal_of_other ho hts, closeAu, addNal_of_joins (by simp)]
    simp [joinUnit, nalType]

/-! ## StapA -/

/-- One whole entry of an aggregate (R259): its NAL is added, unless it is empty (R260). -/
theorem stapLoop_entry {b rest : Bytes} (fuel : Nat) (hb : b.length < 65536) :
    stapLoop ts (fuel + 1) (toBe16 (BitVec.ofNat 16 b.length) ++ b ++ rest) x =
      stapLoop ts fuel rest (if b.length = 0 then x else addNal ts b x) := by
  have hsize : (be16 (toBe16 (BitVec.ofNat 16 b.length) ++ b ++ rest) 0).toNat = b.length := by
    rw [List.append_assoc, be16_toBe16, BitVec.toNat_ofNat, Nat.mod_eq_of_lt hb]
  have hdrop : (toBe16 (BitVec.ofNat 16 b.length) ++ b ++ rest).drop 2 = b ++ rest := rfl
  rw [stapLoop, if_neg (by simp [toBe16]), if_neg (by simp; omega), hsize, hdrop, if_neg (by simp),
    List.drop_left, List.take_left]

/-- What follows the whole entries: nothing, or an entry that the payload's end cuts (R259). -/
def CutTail (tail : Bytes) : Prop :=
  tail = [] ∨ tail.length = 1 ∨ (2 ≤ tail.length ∧ tail.length - 2 < (be16 tail 0).toNat)

/-- The loop ends at the tail (R259). -/
theorem stapLoop_tail {tail : Bytes} {fuel : Nat} (ht : CutTail tail) (hf : tail.length ≤ fuel) :
    stapLoop ts fuel tail x = (x, if tail = [] then .ok else .eStapTrunc) := by
  cases fuel with
  | zero =>
    obtain rfl : tail = [] := List.length_eq_zero_iff.mp (Nat.le_zero.mp hf)
    rfl
  | succ fuel =>
    rw [stapLoop]
    rcases ht with rfl | hone | ⟨htwo, hcut⟩
    · rfl
    · have hne : tail ≠ [] := by rintro rfl; simp at hone
      rw [if_neg hne, if_pos (by omega), if_neg hne]
    · have hne : tail ≠ [] := by rintro rfl; simp at htwo
      rw [if_neg hne, if_neg (by omega), if_pos (by simpa using hcut), if_neg hne]

/-- The entries one after another, then the tail (R259, R260). -/
theorem stapLoop_entries {nals : List Bytes} {tail : Bytes} {fuel : Nat}
    (hn : ∀ b ∈ nals, b.length < 65536) (ht : CutTail tail)
    (hf : (nals.flatMap fun b => toBe16 (BitVec.ofNat 16 b.length) ++ b).length + tail.length ≤ fuel) :
    stapLoop ts fuel
        (nals.flatMap (fun b => toBe16 (BitVec.ofNat 16 b.length) ++ b) ++ tail) x =
      ((nals.filter (fun b => !b.isEmpty)).foldl (fun y b => addNal ts b y) x,
        if tail = [] then .ok else .eStapTrunc) := by
  induction nals generalizing fuel x with
  | nil => exact stapLoop_tail ht (by simpa using hf)
  | cons b nals ih =>
    obtain ⟨hb, hnals⟩ := List.forall_mem_cons.mp hn
    rw [List.flatMap_cons, List.length_append, List.length_append, length_toBe16] at hf
    obtain ⟨fuel, rfl⟩ := Nat.exists_eq_add_one_of_ne_zero (show fuel ≠ 0 by omega)
    rw [List.flatMap_cons, List.append_assoc, stapLoop_entry fuel hb, ih hnals (by omega)]
    cases b with
    | nil => simp
    | cons c b => simp

/-- Settles O39: the payload's length is fuel enough for the bytes after the header. -/
theorem aggregateUnpacksInOrder : Obligations.AggregateUnpacksInOrder := by
  intro ts header nals tail x hn ht
  exact stapLoop_entries hn ht (by simp)

/-! ## FuA -/

/-- A payload of one byte (R263). -/
theorem fuA_of_short : fuA ts [ind] x = (x, .eFuaShort) := rfl

/-- A payload of two bytes or more, over its own bytes (R262). -/
theorem fuA_cons_cons (ts : W32) (ind fh : Byte) (body : Bytes) (x : DepOut) :
    fuA ts (ind :: fh :: body) x =
      if fuStart fh then
        (fuFinish fh ({ x.1 with
          fuActive := true, fuTs := ts, fuBuf := fuHeader ind fh :: body }, x.2), .ok)
      else if x.1.fuActive = false then (x, .eFuaOrphan)
      else if ts ≠ x.1.fuTs then ((clearFu x.1, x.2), .eFuaTs)
      else (fuFinish fh ({ x.1 with fuBuf := x.1.fuBuf ++ body }, x.2), .ok) :=
  if_neg (by simp)

/-- A fragment that starts no unit while none is under way (R265). -/
theorem fuA_of_orphan (hstart : fuStart fh = false) (ha : x.1.fuActive = false) :
    fuA ts (ind :: fh :: body) x = (x, .eFuaOrphan) := by
  rw [fuA_cons_cons, if_neg (by simp [hstart]), if_pos ha]

/-- A fragment of another timestamp discards the accumulation (R265). -/
theorem fuA_of_other_ts (hstart : fuStart fh = false) (ha : x.1.fuActive = true) (hts : ts ≠ x.1.fuTs) :
    fuA ts (ind :: fh :: body) x = ((clearFu x.1, x.2), .eFuaTs) := by
  rw [fuA_cons_cons, if_neg (by simp [hstart]), if_neg (by simp [ha]), if_pos hts]

/-- A start fragment seeds the accumulation, whatever it held (R264). -/
theorem fuA_of_start (hstart : fuStart fh = true) :
    fuA ts (ind :: fh :: body) x =
      (fuFinish fh ({ x.1 with
        fuActive := true, fuTs := ts, fuBuf := fuHeader ind fh :: body }, x.2), .ok) := by
  rw [fuA_cons_cons, if_pos hstart]

/-- A continuation extends it (R265). -/
theorem fuA_of_continuation (hstart : fuStart fh = false) (ha : x.1.fuActive = true)
    (hts : ts = x.1.fuTs) :
    fuA ts (ind :: fh :: body) x =
      (fuFinish fh ({ x.1 with fuBuf := x.1.fuBuf ++ body }, x.2), .ok) := by
  rw [fuA_cons_cons, if_neg (by simp [hstart]), if_neg (by simp [ha]), if_neg (not_not.mpr hts)]

theorem fuFinish_of_not_end (h : fuEnd fh = false) : fuFinish fh x = x := by
  simp [fuFinish, h]

/-- The end fragment adds the accumulation as one NAL and clears it (R266). -/
theorem fuFinish_of_end (h : fuEnd fh = true) :
    fuFinish fh x = (clearFu (addNal x.1.fuTs x.1.fuBuf x).1, (addNal x.1.fuTs x.1.fuBuf x).2) := by
  rw [fuFinish, if_pos h]

/-- Settles O40: an accepted fragment, start or continuation, leaves `d1` to the end of the unit. -/
theorem fragmentKinds : Obligations.FragmentKinds := by
  intro ts ind fh body d out
  refine ⟨fuA_of_short, fun hstart ha => fuA_of_orphan hstart ha,
    fun hstart ha hts => fuA_of_other_ts hstart ha hts, fun d1 hd1 => ?accepted⟩
  case accepted =>
    have hfu : fuA ts (ind :: fh :: body) (d, out) = (fuFinish fh (d1, out), .ok) ∧ d1.fuTs = ts := by
      rcases hd1 with ⟨hstart, rfl⟩ | ⟨hstart, ha, hts, rfl⟩
      · exact ⟨fuA_of_start hstart, rfl⟩
      · exact ⟨fuA_of_continuation hstart ha hts, hts.symm⟩
    obtain ⟨hfu, rfl⟩ := hfu
    refine ⟨fun hend => by rw [hfu, fuFinish_of_not_end hend], fun hend => ?_⟩
    rintro _ rfl
    rw [hfu, fuFinish_of_end hend]
    rfl

/-! ## DEP.PACKET -/

/-- The meaning of DEP.PACKET (R250). -/
theorem exec_depPacket (seq : Seq) (ts : W32) (m : Bool) (payload : Bytes) (s : State) :
    exec (.depPacket seq ts m payload) s = .next (unlessFatal 0x40
      (fun s => if payload = [] then reject 0x40 .eOperand s else depacketize seq ts m payload s) s) :=
  rfl

theorem exec_depPacket_of_fatal (hf : s.fatal = true) :
    exec (.depPacket seq ts m payload) s = .next (s.ended 0x40 [] .eFaulted) := by
  rw [exec_depPacket, unlessFatal_faulted _ _ _ hf]

theorem exec_depPacket_of_empty (hf : s.fatal = false) (hp : payload = []) :
    exec (.depPacket seq ts m payload) s = .next (s.ended 0x40 [] .eOperand) := by
  rw [exec_depPacket, unlessFatal_running _ _ _ hf, if_pos hp, reject_eq_finish, finish_eq_ended]

/-- A packet with a payload runs the unit's procedure (R250). -/
theorem exec_depPacket_of_payload {y : DepOut × Status} (hf : s.fatal = false) (hp : payload ≠ [])
    (hy : depStep s.csr.fuGapThreshold seq ts m payload s.dep = y) :
    exec (.depPacket seq ts m payload) s = .next ({ s with dep := y.1.1 }.ended 0x40 y.1.2 y.2) := by
  rw [exec_depPacket, unlessFatal_running _ _ _ hf, if_neg hp, depacketize, hy, finish_emitAll]

/-- What DEP.PACKET can do (R250): nothing, or the unit's procedure. -/
theorem exec_depPacket_cases (h : exec (.depPacket seq ts m payload) s = .next t) :
    (∃ st, t = s.ended 0x40 [] st) ∨
    (payload ≠ [] ∧ ∃ y, depStep s.csr.fuGapThreshold seq ts m payload s.dep = y ∧
      t = { s with dep := y.1.1 }.ended 0x40 y.1.2 y.2) := by
  rcases Bool.eq_false_or_eq_true s.fatal with hf | hf
  · exact .inl ⟨_, eq_of_exec h (exec_depPacket_of_fatal hf)⟩
  · by_cases hp : payload = []
    · exact .inl ⟨_, eq_of_exec h (exec_depPacket_of_empty hf hp)⟩
    · exact .inr ⟨hp, _, rfl, eq_of_exec h (exec_depPacket_of_payload hf hp rfl)⟩

/-- Settles O36: the statement's steps are those of `depStep`. -/
theorem packetRunsDispatch : Obligations.PacketRunsDispatch := by
  refine fun seq ts m payload s => ⟨exec_depPacket_of_fatal, exec_depPacket_of_empty, fun hf hp => ?_⟩
  rintro _ _ _ _ _ rfl rfl rfl rfl rfl
  exact exec_depPacket_of_payload hf hp rfl

end Sys2Proof.Machine
end

section
/-! PROOFS. A fragmented unit (spec/45_depacketizer.md R276): the state between two fragments has a closed form,
which a start fragment reaches, a continuation keeps, and an end fragment leaves with one NAL. -/

namespace Sys2Proof.Machine

variable {seq : Seq} {ts : W32} {m : Bool} {ind fh typ : Byte} {buf body : Bytes} {n : Nat}
  {x : DepOut} {s : State}

/-! ## The bytes of a fragment -/

/-- The reconstructed header has the original type (R264). -/
theorem fuHeader_low (ind fh : Byte) : (fuHeader ind fh).extractLsb' 0 5 = fh.extractLsb' 0 5 := by
  ext i hi
  simp only [fuHeader, BitVec.getElem_extractLsb', BitVec.getLsbD_or, BitVec.getLsbD_and]
  interval_cases i <;> simp

/-- The reconstructed header has the indicator's top bits (R264). -/
theorem fuHeader_high (ind fh : Byte) : (fuHeader ind fh).extractLsb' 5 3 = ind.extractLsb' 5 3 := by
  ext i hi
  simp only [fuHeader, BitVec.getElem_extractLsb', BitVec.getLsbD_or, BitVec.getLsbD_and]
  interval_cases i <;> simp

/-- The start flag does not touch the type. -/
theorem startByte_low (typ : Byte) : (0x80 ||| typ).extractLsb' 0 5 = typ.extractLsb' 0 5 := by
  ext i hi
  simp only [BitVec.getElem_extractLsb', BitVec.getLsbD_or]
  interval_cases i <;> simp

theorem nalType_of_lt (h : typ.toNat < 32) : nalType typ = typ.toNat := by
  simp [nalType, Nat.mod_eq_of_lt h]

/-- A NAL type alone has neither flag (R109). -/
theorem flags_of_lt (h : typ.toNat < 32) : fuStart typ = false ∧ fuEnd typ = false :=
  ⟨Nat.testBit_lt_two_pow (h.trans (by decide)), Nat.testBit_lt_two_pow (h.trans (by decide))⟩

theorem fuStart_or (a b : Byte) : fuStart (a ||| b) = (fuStart a || fuStart b) := BitVec.getLsbD_or

theorem fuEnd_or (a b : Byte) : fuEnd (a ||| b) = (fuEnd a || fuEnd b) := BitVec.getLsbD_or

theorem flags_of_start (h : typ.toNat < 32) :
    fuStart (0x80 ||| typ) = true ∧ fuEnd (0x80 ||| typ) = false := by
  rw [fuStart_or, fuEnd_or, (flags_of_lt h).1, (flags_of_lt h).2]
  decide

theorem flags_of_end (h : typ.toNat < 32) :
    fuStart (0x40 ||| typ) = false ∧ fuEnd (0x40 ||| typ) = true := by
  rw [fuStart_or, fuEnd_or, (flags_of_lt h).1, (flags_of_lt h).2]
  decide

/-! ## One fragment -/

/-- A fragment that is next in sequence runs FuA, then the marker (R250). -/
theorem exec_fragment (hf : s.fatal = false) (hind : nalType ind = 28)
    (hseq : isDiscontinuity seq s.dep = false)
    (hfu : fuA ts (ind :: body) ({ s.dep with started := true, lastSeq := seq }, []) = (x, .ok)) :
    exec (.depPacket seq ts m (ind :: body)) s =
      .next ({ s with dep := (markerClose m x).1 }.ended 0x40 (markerClose m x).2 .ok) := by
  refine exec_depPacket_of_payload (y := (markerClose m x, .ok)) hf (List.cons_ne_nil _ _) ?_
  simp [depStep, checkSeq_of_next hseq, dispatchNal, hind, hfu, noteMalformed]

theorem markerClose_false (x : DepOut) : markerClose false x = x := if_neg (by simp)

theorem markerClose_true (h : x.1.auOpen = true) : markerClose true x = closeAu x := if_pos ⟨rfl, h⟩

/-- The depacketizer between two fragments: `seq` was the last packet, `buf` is what the unit holds so far. -/
def Dep.midUnit (d : Dep) (ts : W32) (seq : Seq) (buf : Bytes) : Dep :=
  { d with started := true, lastSeq := seq, fuActive := true, fuTs := ts, fuBuf := buf }

/-- `s` after `n` fragments of a unit that has not ended. -/
def State.midUnit (s : State) (ts : W32) (seq : Seq) (buf : Bytes) (n : Nat) : State :=
  { s with
    dep := s.dep.midUnit ts seq buf
    lastStatus := Status.ok.code
    oq := s.oq ++ List.replicate n (.done 0x40 .ok) }

/-- The start fragment (R264). -/
theorem exec_startFragment (hf : s.fatal = false) (hind : nalType ind = 28)
    (hseq : isDiscontinuity seq s.dep = false) (hstart : fuStart fh = true) (hend : fuEnd fh = false) :
    exec (.depPacket seq ts false (ind :: fh :: body)) s =
      .next (s.midUnit ts seq (fuHeader ind fh :: body) 1) := by
  rw [exec_fragment hf hind hseq (fuA_of_start hstart), fuFinish_of_not_end hend, markerClose_false]
  simp [State.midUnit, Dep.midUnit, State.ended]

/-- The next fragment of the unit extends what it holds (R265). -/
theorem exec_nextFragment (hf : s.fatal = false) (hind : nalType ind = 28) (hstart : fuStart fh = false)
    (hx : markerClose m (fuFinish fh (s.dep.midUnit ts (seq + 1) (buf ++ body), [])) = x) :
    exec (.depPacket (seq + 1) ts m (ind :: fh :: body)) (s.midUnit ts seq buf n) =
      .next ({ s.midUnit ts seq buf n with dep := x.1 }.ended 0x40 x.2 .ok) := by
  subst hx
  have hseq : isDiscontinuity (seq + 1) (s.midUnit ts seq buf n).dep = false :=
    isDiscontinuity_eq_false_iff.mpr (.inr rfl)
  exact exec_fragment (s := s.midUnit ts seq buf n) hf hind hseq (fuA_of_continuation hstart rfl rfl)

/-- A continuation (R265). -/
theorem exec_continuation (hf : s.fatal = false) (hind : nalType ind = 28) (hstart : fuStart fh = false)
    (hend : fuEnd fh = false) :
    exec (.depPacket (seq + 1) ts false (ind :: fh :: body)) (s.midUnit ts seq buf n) =
      .next (s.midUnit ts (seq + 1) (buf ++ body) (n + 1)) := by
  rw [exec_nextFragment hf hind hstart rfl, fuFinish_of_not_end hend, markerClose_false]
  simp [State.midUnit, State.ended, List.replicate_succ']

/-- Any number of continuations (R265). -/
theorem runAll_continuations (hf : s.fatal = false) (hind : nalType ind = 28)
    (hstart : fuStart fh = false) (hend : fuEnd fh = false) (mids : List Bytes) (rest : List Instr) :
    runAll (mids.mapIdx (fun i body =>
        Instr.depPacket (seq + 1 + BitVec.ofNat 16 i) ts false (ind :: fh :: body)) ++ rest)
      (s.midUnit ts seq buf n) =
    runAll rest
      (s.midUnit ts (seq + BitVec.ofNat 16 mids.length) (buf ++ mids.flatten) (mids.length + n)) := by
  induction mids generalizing seq buf n with
  | nil => simp
  | cons body mids ih =>
    have hfirst : exec (.depPacket (seq + 1 + BitVec.ofNat 16 0) ts false (ind :: fh :: body))
        (s.midUnit ts seq buf n) = .next (s.midUnit ts (seq + 1) (buf ++ body) (n + 1)) := by
      rw [BitVec.add_zero]
      exact exec_continuation hf hind hstart hend
    have hsucc (a : Seq) (i : Nat) : a + BitVec.ofNat 16 (i + 1) = a + 1 + BitVec.ofNat 16 i := by
      rw [Nat.add_comm, BitVec.ofNat_add, ← BitVec.add_assoc]
      rfl
    have hcount : mids.length + (n + 1) = mids.length + 1 + n := by omega
    rw [List.mapIdx_cons, List.cons_append, runAll, hfirst]
    simp only [hsucc, ih, List.length_cons, List.flatten_cons, List.append_assoc, hcount]

/-- The depacketizer when a unit `nal` has ended with the packet `seq`, and the records emitted: the NAL has
joined the open access unit, which the marker closes (R266, R268, R271). -/
def Dep.endUnit (d : Dep) (ts : W32) (seq : Seq) (nal : Bytes) (m : Bool) : DepOut :=
  markerClose m (clearFu (joinUnit ts nal (d.midUnit ts seq nal)), [.nal ts nal])

/-- `s` after a unit `nal` of `n` fragments and the end fragment `seq`. -/
def State.endUnit (s : State) (ts : W32) (seq : Seq) (nal : Bytes) (n : Nat) (m : Bool) : State :=
  { s with
    dep := (s.dep.endUnit ts seq nal m).1
    lastStatus := Status.ok.code
    oq := s.oq ++ List.replicate n (.done 0x40 .ok) ++ (s.dep.endUnit ts seq nal m).2 ++ [.done 0x40 .ok] }

/-- The end fragment (R266). -/
theorem exec_endFragment (hf : s.fatal = false) (hind : nalType ind = 28)
    (hau : s.dep.auOpen = true → s.dep.auTs = ts) (hstart : fuStart fh = false)
    (hend : fuEnd fh = true) :
    exec (.depPacket (seq + 1) ts m (ind :: fh :: body)) (s.midUnit ts seq buf n) =
      .next (s.endUnit ts (seq + 1) (buf ++ body) n m) := by
  have hx : markerClose m (fuFinish fh (s.dep.midUnit ts (seq + 1) (buf ++ body), [])) =
      s.dep.endUnit ts (seq + 1) (buf ++ body) m := by
    rw [fuFinish_of_end hend]
    exact congrArg (fun y : DepOut => markerClose m (clearFu y.1, y.2)) 
      (addNal_of_joins (d := s.dep.midUnit ts (seq + 1) (buf ++ body)) hau)
  exact exec_nextFragment hf hind hstart hx

/-- All fragments of a unit (R276). -/
theorem runAll_fragmentPackets (hf : s.fatal = false) (hind : nalType ind = 28) (htyp : typ.toNat < 32)
    (hseq : isDiscontinuity seq s.dep = false) (hau : s.dep.auOpen = true → s.dep.auTs = ts)
    (first : Bytes) (mids : List Bytes) (last : Bytes) (m : Bool) :
    runAll (fragmentPackets seq ts ind typ first mids last m) s =
      .next (s.endUnit ts (seq + 1 + BitVec.ofNat 16 mids.length)
        (fuHeader ind (0x80 ||| typ) :: first ++ mids.flatten ++ last) (mids.length + 1) m) := by
  obtain ⟨hstart, hstartEnd⟩ := flags_of_start htyp
  obtain ⟨hmid, hmidEnd⟩ := flags_of_lt htyp
  obtain ⟨hlast, hlastEnd⟩ := flags_of_end htyp
  have hseq' : seq + 1 + BitVec.ofNat 16 mids.length = seq + BitVec.ofNat 16 mids.length + 1 := by
    ac_rfl
  rw [runAll, exec_startFragment hf hind hseq hstart hstartEnd]
  simp only
  rw [runAll_continuations hf hind hmid hmidEnd, runAll, hseq',
    exec_endFragment hf hind hau hlast hlastEnd]
  rfl

/-- The records of the unit's end (R268, R272). -/
theorem Dep.endUnit_snd (d : Dep) (ts : W32) (seq : Seq) (nal : Bytes) (m : Bool) :
    (d.endUnit ts seq nal m).2 = [.nal ts nal] ++
      (if m then
        [.accessUnit ts ((d.auOpen && d.auKey) || nalType (byteAt nal 0) == 5)
          (((d.auOpen && d.auSps) || nalType (byteAt nal 0) == 7) &&
            ((d.auOpen && d.auPps) || nalType (byteAt nal 0) == 8))
          ((if d.auOpen then d.auNals else []) ++ [nal])]
      else []) := by
  cases m with
  | false => rw [Dep.endUnit, markerClose_false]; rfl
  | true => rw [Dep.endUnit, markerClose_true rfl]; rfl

/-- The depacketizer at the unit's end (R266, R271). -/
theorem Dep.endUnit_fst (d : Dep) (ts : W32) (seq : Seq) (nal : Bytes) (m : Bool) :
    (d.endUnit ts seq nal m).1.auOpen = !m ∧
    (d.endUnit ts seq nal m).1.auNals =
      (if m then [] else (if d.auOpen then d.auNals else []) ++ [nal]) ∧
    (d.endUnit ts seq nal m).1.fuActive = false ∧ (d.endUnit ts seq nal m).1.fuBuf = [] ∧
    (d.endUnit ts seq nal m).1.malformed = d.malformed ∧
    (d.endUnit ts seq nal m).1.discont = d.discont := by
  cases m with
  | false => rw [Dep.endUnit, markerClose_false]; exact ⟨rfl, rfl, rfl, rfl, rfl, rfl⟩
  | true => rw [Dep.endUnit, markerClose_true rfl]; exact ⟨rfl, rfl, rfl, rfl, rfl, rfl⟩

/-- Settles O41: the run ends in `endUnit`; the NAL's first byte has the original type. -/
theorem fragmentsReassemble : Obligations.FragmentsReassemble := by
  intro s seq ts ind typ first mids last m hf hind htyp hseq hau
  have hdisc : isDiscontinuity seq s.dep = false := by
    refine isDiscontinuity_eq_false_iff.mpr ?_
    cases hs : s.dep.started with
    | false => exact .inl rfl
    | true => exact .inr (hseq hs)
  have hlow : (fuHeader ind (0x80 ||| typ)).extractLsb' 0 5 = typ.extractLsb' 0 5 :=
    (fuHeader_low _ _).trans (startByte_low typ)
  have htype : nalType (byteAt (fuHeader ind (0x80 ||| typ) :: first ++ mids.flatten ++ last) 0) =
      typ.toNat := (congrArg BitVec.toNat hlow).trans (nalType_of_lt htyp)
  obtain ⟨hopen, hnals, hactive, hbuf, hmalformed, hdiscont⟩ :=
    s.dep.endUnit_fst ts (seq + 1 + BitVec.ofNat 16 mids.length)
      (fuHeader ind (0x80 ||| typ) :: first ++ mids.flatten ++ last) m
  refine ⟨_, _, _, _, runAll_fragmentPackets hf hind htyp hdisc hau first mids last m, hlow,
    fuHeader_high _ _, rfl, rfl, ?oq, hopen, hnals, hactive, hbuf, hmalformed, hdiscont,
    rfl, rfl, rfl, rfl, rfl, hf, rfl⟩
  case oq =>
    rw [State.endUnit, Dep.endUnit_snd, htype]
    simp only [List.append_assoc]

end Sys2Proof.Machine
end

section
/-! PROOFS. The access units that leave the block (spec/45_depacketizer.md R271 to R273): every command appends
good records alone, for only the depacketizer emits an access unit, and its moves emit good ones. -/

namespace Sys2Proof.Machine

variable {s t u : State} {recs : List Record}

/-! ## Records that are no access unit -/

theorem goodUnit_of_isDepRecord {r : Record} (h : isDepRecord r) : goodUnit r := by
  cases r with
  | accessUnit => exact h
  | _ => trivial

theorem goodUnit_of_isRobMove {r : Record} (h : isRobMove r = true) : goodUnit r := by
  cases r with
  | accessUnit => cases h
  | _ => trivial

theorem goodUnit_of_isGrpRecord {r : Record} (h : isGrpRecord r = true) : goodUnit r := by
  cases r with
  | accessUnit => cases h
  | _ => trivial

/-! ## The reorder buffer, in every state -/

theorem flushLoop_isRobMove (fuel : Nat) {x : RobOut} (h : ∀ r ∈ x.2, isRobMove r = true) :
    ∀ r ∈ (flushLoop fuel x).2, isRobMove r = true := by
  induction fuel generalizing x with
  | zero => exact h
  | succ fuel ih =>
    unfold flushLoop
    split
    · exact h
    · exact ih (List.forall_mem_append.mpr ⟨h, by simp [isRobMove]⟩)

theorem forceAdvance_isRobMove {x : RobOut} (h : ∀ r ∈ x.2, isRobMove r = true) :
    ∀ r ∈ (forceAdvance x).2, isRobMove r = true := by
  simp only [forceAdvance, advance]
  split
  · exact h
  · exact flushLoop_isRobMove _ (List.forall_mem_append.mpr ⟨h, by simp [isRobMove]⟩)

/-- An accepted packet (R187). -/
theorem robInsert_isRobMove (c : Csr) (pkt : Packet) (arrival : W32) (first : Bool) (r : Rob) :
    ∀ q ∈ (robInsert c pkt arrival first r).2, isRobMove q = true := by
  have hflush (x : Rob) : ∀ q ∈ (flushInOrder (x, [])).2, isRobMove q = true :=
    flushLoop_isRobMove _ (by simp)
  simp only [robInsert, windowFlush]
  split
  · exact forceAdvance_isRobMove (hflush _)
  · exact hflush _

/-- The forced advance of the timer (R199). -/
theorem timerFlush_isRobMove (r : Rob) : ∀ q ∈ (timerFlush r).2, isRobMove q = true :=
  forceAdvance_isRobMove (by simp)

/-! ## The group assembler, in every state -/

theorem flushGroup_isGrpRecord (P : GfParams) (ready : Bool) (g : Group) (cause : Cause) {x : GrpOut}
    (h : ∀ r ∈ x.2, isGrpRecord r = true) :
    ∀ r ∈ (flushGroup P ready g cause x).2, isGrpRecord r = true := by
  obtain ⟨-, recs, he, hrecs⟩ := flushGroup_groups P ready g cause x
  rw [he]
  exact List.forall_mem_append.mpr ⟨h, hrecs⟩

theorem evictLoop_isGrpRecord (P : GfParams) (ready : Bool) (maxGroups fuel : Nat) {x : GrpOut}
    (h : ∀ r ∈ x.2, isGrpRecord r = true) :
    ∀ r ∈ (evictLoop P ready maxGroups fuel x).2, isGrpRecord r = true := by
  induction fuel generalizing x with
  | zero => exact h
  | succ fuel ih =>
    unfold evictLoop
    split
    · exact h
    · split
      · exact h
      · exact ih (flushGroup_isGrpRecord P ready _ _ h)

theorem addToGroup_isGrpRecord (P : GfParams) (ready : Bool) (index : BitVec 16) (payload : Bytes)
    (g : Group) {x : GrpOut} (h : ∀ r ∈ x.2, isGrpRecord r = true) :
    ∀ r ∈ (addToGroup P ready index payload g x).2, isGrpRecord r = true := by
  simp only [addToGroup]
  split
  · exact flushGroup_isGrpRecord P ready _ _ h
  · exact h

/-- AddPacket (R220). -/
theorem groupAdd_isGrpRecord {P : GfParams} {ready : Bool} {maxGroups : Nat} {gid : W32}
    {index : BitVec 16} {k n : BitVec 8} {payload : Bytes} {g : Grp} {x : GrpOut}
    (h : groupAdd P ready maxGroups gid index k n payload g = some x) :
    ∀ r ∈ x.2, isGrpRecord r = true := by
  unfold groupAdd at h
  split at h
  · split_ifs at h
    obtain rfl := Option.some.inj h
    exact addToGroup_isGrpRecord P ready _ _ _
      (evictLoop_isGrpRecord P ready _ _ (x := (g, [])) (by simp))
  · split_ifs at h
    obtain rfl := Option.some.inj h
    exact addToGroup_isGrpRecord P ready _ _ _ (by simp)

/-! ## Every command -/

/-- From `s` to `t` good records are appended to OQ. -/
def AppendsGoodUnits (s t : State) : Prop :=
  ∃ recs : List Record, t.oq = s.oq ++ recs ∧ ∀ r ∈ recs, goodUnit r

/-- The end of a command that emitted good records. -/
theorem AppendsGoodUnits.ended (hu : u.oq = s.oq) (h : ∀ r ∈ recs, goodUnit r) (op : Byte)
    (st : Status) : AppendsGoodUnits s (u.ended op recs st) :=
  ⟨recs ++ [.done op st], by rw [ended_oq, hu, List.append_assoc],
    List.forall_mem_append.mpr ⟨h, by simp [goodUnit]⟩⟩

/-- The same where nothing but the closing record is emitted. -/
theorem AppendsGoodUnits.finish (hu : u.oq = s.oq) (op : Byte) (st : Status) :
    AppendsGoodUnits s (finish op st u) :=
  finish_eq_ended u op st ▸ .ended hu (by simp) op st

/-- The E_FAULTED test before a body (R308). -/
theorem AppendsGoodUnits.unlessFatal {body : State → State} (op : Byte)
    (h : AppendsGoodUnits s (body s)) : AppendsGoodUnits s (Machine.unlessFatal op body s) := by
  cases hf : s.fatal with
  | true => rw [unlessFatal_faulted _ _ _ hf]; exact .ended rfl (by simp) _ _
  | false => rwa [unlessFatal_running _ _ _ hf]

/-- The end of an engine command whose record is good (R150, R155, R159). -/
theorem AppendsGoodUnits.engineDone {α : Type} (op : Byte) {record : α → Record} (r : Except Status α)
    (h : ∀ a, goodUnit (record a)) : AppendsGoodUnits s (engineDone op record r s) := by
  cases r with
  | error st => exact .finish rfl op st
  | ok a => exact .ended rfl (by simpa using h a) op .ok

/-- Every command but SYS.RESET, which empties OQ, appends good records to it. -/
theorem exec_appendsGoodUnits {i : Instr} (hreset : i ≠ .sysReset) (hd : DepInv s.dep)
    (h : exec i s = .next t) : AppendsGoodUnits s t := by
  cases i with
  | sysReset => exact absurd rfl hreset
  | depPacket =>
    rcases exec_depPacket_cases h with ⟨st, rfl⟩ | ⟨hp, y, rfl, rfl⟩
    · exact .ended rfl (by simp) _ _
    · obtain ⟨-, recs, he, hrecs⟩ := depStep_moves _ _ _ _ hp s.dep hd
      rw [he]
      exact .ended rfl (fun r hr => goodUnit_of_isDepRecord (hrecs r hr)) _ _
  | robAccept =>
    rcases exec_robAccept_cases h with ⟨st, rfl⟩ | ⟨-, rfl⟩ | ⟨-, rfl⟩
    · exact .ended rfl (by simp) _ _
    · exact .ended rfl (by simp [robLateDrop, goodUnit]) _ _
    · exact .ended rfl (fun r hr => goodUnit_of_isRobMove (robInsert_isRobMove _ _ _ _ _ r hr)) _ _
  | robTimer =>
    rcases exec_robTimer_cases h with ⟨st, rfl⟩ | ⟨-, rfl⟩
    · exact .ended rfl (by simp) _ _
    · exact .ended rfl (fun r hr => goodUnit_of_isRobMove (timerFlush_isRobMove _ r hr)) _ _
  | csrRd reg =>
    obtain rfl := Host.Outcome.next.inj h
    cases csrRead reg s with
    | none => exact ⟨_, rfl, by simp [goodUnit]⟩
    | some value => exact ⟨_, rfl, by simp [goodUnit]⟩
  | gfInit | robRestart | sysTeardown =>
    obtain rfl := Host.Outcome.next.inj h
    exact .unlessFatal _ (.finish rfl _ _)
  | csrWr =>
    obtain rfl := Host.Outcome.next.inj h
    refine .unlessFatal _ ?_
    split
    · exact .finish rfl _ _
    · exact .finish rfl _ _
  | eceNewmatrix k n =>
    obtain rfl := Host.Outcome.next.inj h
    refine .unlessFatal _ ?_
    unfold newMatrix
    split_ifs
    · exact .finish rfl _ _
    · exact .finish rfl _ _
    · exact .ended rfl (by simp [goodUnit]) _ _
  | eceEncode | eceBuilddec | eceDecode =>
    obtain rfl := Host.Outcome.next.inj h
    exact .unlessFatal _ (.engineDone _ _ fun _ => trivial)
  | rtpParse B =>
    obtain rfl := Host.Outcome.next.inj h
    refine .unlessFatal _ ?_
    unfold parseDatagram
    split
    · exact .ended rfl (by simp [goodUnit]) _ _
    · exact .ended rfl (by simp [goodUnit]) _ _
  | grpAdd gid index k n payload =>
    obtain rfl := Host.Outcome.next.inj h
    refine .unlessFatal _ ?_
    unfold addBlock
    split
    · exact .finish rfl _ _
    · split
      · exact .ended rfl (by simp [goodUnit]) _ _
      · next hx =>
        exact .ended rfl (fun r hr => goodUnit_of_isGrpRecord (groupAdd_isGrpRecord hx r hr)) _ _
  | grpExpire gid =>
    obtain rfl := Host.Outcome.next.inj h
    refine .unlessFatal _ ?_
    unfold expireGroup
    split
    · exact .finish rfl _ _
    · exact .ended rfl (fun r hr => goodUnit_of_isGrpRecord
        (flushGroup_isGrpRecord _ _ _ _ (by simp) r hr)) _ _

/-- Settles O42: after SYS.RESET OQ holds its closing record alone, whatever stood there before. -/
theorem emittedUnitsAreGood : Obligations.EmittedUnitsAreGood := by
  intro i s t recs hd h hoq r hr
  by_cases hreset : i = .sysReset
  · subst hreset
    obtain rfl := Host.Outcome.next.inj h
    have hmem : r ∈ (finish 0x7F .ok (hardReset s)).oq := by
      rw [hoq]
      exact List.mem_append_right _ hr
    obtain rfl : r = .done 0x7F .ok := List.mem_singleton.mp hmem
    trivial
  · obtain ⟨recs', hoq', hgood⟩ := exec_appendsGoodUnits hreset hd h
    obtain rfl := List.append_cancel_left (hoq.symm.trans hoq')
    exact hgood r hr

end Sys2Proof.Machine
end

section
/-! PROOFS. The registers (spec/10_state.md R40 to R42; spec/46_system.md R286, R287): the readable numbers are
those of the statement's table, the legal values those of its ranges, and a write replaces one entry of the
list of the configuration registers' values. -/

namespace Sys2Proof.Machine

variable {reg : BitVec 8} {value : W32} {s : State} {c : Csr}

/-! ## Reads -/

/-- A bit appended at the low end doubles the number and adds the bit. -/
theorem toNat_append_ofBool {w : Nat} (x : BitVec w) (b : Bool) :
    (x ++ BitVec.ofBool b).toNat = 2 * x.toNat + b.toNat := by
  rw [Nat.mul_comm]
  exact BitVec.toNat_concat ..

/-- STATUS as a sum of its flags (R42). -/
theorem statusWord_eq (s : State) : statusWord s = BitVec.ofNat 32
    (s.gf.gfReady.toNat + 2 * s.fatal.toNat + 4 * s.rob.started.toNat + 8 * s.rob.timer.toNat +
      16 * s.dep.started.toNat + 32 * s.dep.fuActive.toNat + 64 * s.dep.auOpen.toNat +
      128 * s.rob.jitValid.toNat) := by
  have hsum : (statusWord s).toNat =
      s.gf.gfReady.toNat + 2 * s.fatal.toNat + 4 * s.rob.started.toNat + 8 * s.rob.timer.toNat +
        16 * s.dep.started.toNat + 32 * s.dep.fuActive.toNat + 64 * s.dep.auOpen.toNat +
        128 * s.rob.jitValid.toNat := by
    simp only [statusWord, toNat_append_ofBool, BitVec.toNat_ofNat]
    omega
  rw [← hsum, BitVec.ofNat_toNat, BitVec.setWidth_eq]

/-- Each row of the table is readable. -/
theorem csrRead_of_mem (s : State) : ∀ e ∈ csrTable s, csrRead e.1 s = some e.2 := by
  simp only [csrTable, List.forall_mem_cons, ← statusWord_eq]
  simp [csrRead]

/-- Nothing but the rows of the table is readable. -/
theorem mem_csrTable_of_csrRead (h : csrRead reg s = some value) : (reg, value) ∈ csrTable s := by
  rw [csrTable, ← statusWord_eq]
  unfold csrRead at h
  split at h
  case h_26 => cases h
  all_goals
    rename_i hreg
    obtain rfl := Option.some.inj h
    obtain ⟨-, rfl⟩ := BitVec.toNat_eq_nat.mp hreg
    simp

theorem csrRead_eq_some_iff : csrRead reg s = some value ↔ (reg, value) ∈ csrTable s :=
  ⟨mem_csrTable_of_csrRead, csrRead_of_mem s _⟩

theorem csrRead_eq_none (h : ∀ e ∈ csrTable s, e.1 ≠ reg) : csrRead reg s = none :=
  Option.eq_none_iff_forall_ne_some.mpr fun _ hv => h _ (csrRead_eq_some_iff.mp hv) rfl

/-- The meaning of CSR.RD (R286): it makes no E_FAULTED test. -/
theorem exec_csrRd (reg : BitVec 8) (s : State) : exec (.csrRd reg) s = execCsrRd reg s := rfl

/-- Settles O43: CSR.RD answers `csrRead`, whose values are the table's. -/
theorem registerReadIsPure : Obligations.RegisterReadIsPure := by
  refine fun reg s => ⟨fun v hv => ?_, fun hnone => ?_⟩
  · rw [exec_csrRd, execCsrRd, csrRead_eq_some_iff.mpr hv]
    rfl
  · rw [exec_csrRd, execCsrRd, csrRead_eq_none hnone]
    rfl

/-! ## Writes -/

/-- The legal values are those of the statement's ranges (R40). -/
theorem csrLegal_iff : csrLegal reg value = true ↔
    ∃ e ∈ csrRange, e.1 = reg ∧ e.2.1 ≤ value.toNat ∧ value.toNat ≤ e.2.2 := by
  refine ⟨fun h => ?_, ?_⟩
  · unfold csrLegal at h
    split at h
    case h_9 => cases h
    all_goals
      rename_i hreg
      obtain ⟨-, rfl⟩ := BitVec.toNat_eq_nat.mp hreg
      simp only [Bool.and_eq_true, decide_eq_true_eq] at h
      simp [csrRange]
      omega
  · rintro ⟨e, he, rfl, hlow, hhigh⟩
    revert e
    simp only [csrRange, List.forall_mem_cons]
    simp +contextual [csrLegal]

/-- What the configuration registers read as, in the order of their numbers (R40). -/
def Csr.values (c : Csr) : List W32 :=
  [c.lateThreshold.setWidth 32, c.robWindow.setWidth 32, c.robFlushDelayMs.setWidth 32,
    c.grpMaxGroups.setWidth 32, c.grpExpiryMs.setWidth 32, c.restartGap.setWidth 32,
    c.fuGapThreshold.setWidth 32, c.clockRateHz]

@[simp] theorem Csr.length_values (c : Csr) : c.values.length = 8 := rfl

/-- The configuration registers have the numbers 0 to 7 (R40). -/
theorem csrRead_of_lt (h : reg.toNat < 8) (s : State) : csrRead reg s = s.csr.values[reg.toNat]? := by
  unfold csrRead
  generalize reg.toNat = number at h
  interval_cases number <;> rfl

/-- The other numbers read the units' state, no configuration register (R41). -/
theorem csrRead_of_ge (h : 8 ≤ reg.toNat) (s : State) (c : Csr) :
    csrRead reg { s with csr := c } = csrRead reg s := by
  unfold csrRead
  split
  case h_1 | h_2 | h_3 | h_4 | h_5 | h_6 | h_7 | h_8 => omega
  all_goals rfl

theorem csrLegal_lt (h : csrLegal reg value = true) : reg.toNat < 8 := by
  obtain ⟨e, he, rfl, -⟩ := csrLegal_iff.mp h
  have hnumbers : ∀ e ∈ csrRange, e.1.toNat < 8 := by decide
  exact hnumbers e he

/-- A value of at most 16 bits survives its register. -/
theorem setWidth_register (h : value.toNat ≤ 65535) : (value.setWidth 16).setWidth 32 = value := by
  bv_omega

/-- A write of a legal value replaces one entry of the list (R287). -/
theorem csrWrite_values (h : csrLegal reg value = true) :
    (csrWrite reg value c).values = c.values.set reg.toNat value := by
  unfold csrLegal at h
  split at h
  case h_9 => cases h
  all_goals
    rename_i hreg
    simp only [Bool.and_eq_true, decide_eq_true_eq] at h
    simp only [csrWrite, hreg, Csr.values, List.set]
  all_goals rw [setWidth_register (by omega)]

/-- A read after a write gives the value. -/
theorem csrRead_csrWrite_self (h : csrLegal reg value = true) :
    csrRead reg { s with csr := csrWrite reg value s.csr } = some value := by
  have hlt := csrLegal_lt h
  rw [csrRead_of_lt hlt, csrWrite_values h, List.getElem?_set_self hlt]

/-- A write is seen at no other number. -/
theorem csrRead_csrWrite_other {other : BitVec 8} (h : csrLegal reg value = true) (hne : other ≠ reg) :
    csrRead other { s with csr := csrWrite reg value s.csr } = csrRead other s := by
  have hnumber : reg.toNat ≠ other.toNat := fun he => hne (BitVec.eq_of_toNat_eq he.symm)
  rcases Nat.lt_or_ge other.toNat 8 with hlt | hge
  · rw [csrRead_of_lt hlt, csrRead_of_lt hlt, csrWrite_values h, List.getElem?_set_ne hnumber]
  · exact csrRead_of_ge hge ..

/-- The meaning of CSR.WR (R287). -/
theorem exec_csrWr (reg : BitVec 8) (value : W32) (s : State) :
    exec (.csrWr reg value) s = .next (unlessFatal 0x71 (fun s =>
      if csrLegal reg value then finish 0x71 .ok { s with csr := csrWrite reg value s.csr }
      else reject 0x71 .eCsr s) s) := rfl

/-- Settles O44: a value is written exactly when it lies in the range of its register. -/
theorem registerWriteIsSeenByReads : Obligations.RegisterWriteIsSeenByReads := by
  refine fun reg value s => ⟨fun hf => ?faulted, fun hf hbad => ?illegal,
    fun hf e he hreg hlow hhigh => ?written⟩
  case faulted => rw [exec_csrWr, unlessFatal_faulted _ _ _ hf]
  case illegal =>
    have hillegal : ¬csrLegal reg value = true := fun h =>
      have ⟨e, he, hreg, hrange⟩ := csrLegal_iff.mp h
      hbad e he hreg hrange
    rw [exec_csrWr, unlessFatal_running _ _ _ hf, if_neg hillegal, reject_eq_finish, finish_eq_ended]
  case written =>
    have hlegal : csrLegal reg value = true := csrLegal_iff.mpr ⟨e, he, hreg, hlow, hhigh⟩
    refine ⟨csrWrite reg value s.csr, ?_, csrRead_csrWrite_self hlegal,
      fun other hne => csrRead_csrWrite_other hlegal hne⟩
    rw [exec_csrWr, unlessFatal_running _ _ _ hf, if_pos hlegal, finish_eq_ended]

end Sys2Proof.Machine
end

section
/-! PROOFS. SYS.TEARDOWN and SYS.RESET (spec/46_system.md R289, R290): the model's next states are the ones
the statements write out. -/

namespace Sys2Proof.Machine

/-- The meaning of SYS.TEARDOWN (R290). -/
theorem exec_sysTeardown (s : State) :
    exec .sysTeardown s = .next (unlessFatal 0x7E (fun s => finish 0x7E .ok (teardown s)) s) := rfl

/-- Settles O45: `teardown` clears the elements R290 names. -/
theorem teardownEmptiesBuffers : Obligations.TeardownEmptiesBuffers := by
  refine fun s => ⟨fun hf => ?_, fun hf => ?_⟩
  · rw [exec_sysTeardown, unlessFatal_faulted _ _ _ hf]
  · rw [exec_sysTeardown, unlessFatal_running _ _ _ hf, finish_eq_ended]
    rfl

/-- The meaning of SYS.RESET (R289): it makes no E_FAULTED test. -/
theorem exec_sysReset (s : State) :
    exec .sysReset s = .next ((hardReset s).ended 0x7F [] .ok) :=
  congrArg Host.Outcome.next (finish_eq_ended (hardReset s) 0x7F .ok)

/-- Settles O46: `hardReset` gives every element its value of R54, whatever the state. -/
theorem resetRestoresTable : Obligations.ResetRestoresTable := by
  intro s
  rw [exec_sysReset, hardReset, State.ended]
  rfl

end Sys2Proof.Machine
end

section
/-! PROOFS. How commands end (spec/60_exceptions.md R300, R308; spec/10_state.md R36): every command but CSR.RD and
SYS.RESET is a body behind the E_FAULTED test, no unit emits a `Done` of its own, and every step completes. -/

namespace Sys2Proof.Machine

variable {s t u : State} {i : Instr} {recs : List Record}

/-! ## Every step completes -/

theorem execWith_completes (P : Params) (i : Instr) (s : State) : ∃ t, execWith P i s = .next t := by
  by_cases hreset : i = .sysReset
  · subst hreset
    exact ⟨_, rfl⟩
  · obtain ⟨u, recs, v, -, -, hrun⟩ := execWith_effect P i s hreset
    exact ⟨_, hrun s.oq⟩

theorem stepWith_completes (P : Params) (s : State) : ∃ t, stepWith P s = .next t := by
  cases h : frame P.maxLen s.port s.portEnd with
  | wait => exact ⟨s, by rw [stepWith, h]⟩
  | reject op why rest => exact ⟨_, stepWith_of_reject h⟩
  | command i rest =>
    rw [stepWith_of_command h]
    exact execWith_completes P i _

/-- Settles O52: `step` is the parametric step, which completes whatever the port holds. -/
theorem everyStepCompletes : Obligations.EveryStepCompletes := by
  refine ⟨fun s => ?_, stepWith_completes⟩
  rw [Completes, step_eq_stepWith]
  exact stepWith_completes paramsDefault s

/-! ## The faulted block -/

/-- Every command but CSR.RD and SYS.RESET makes the E_FAULTED test first (R308). -/
theorem exec_eq_unlessFatal (hrd : ∀ reg, i ≠ .csrRd reg) (hreset : i ≠ .sysReset) :
    ∃ body : State → State, ∀ s, exec i s = .next (unlessFatal i.opcode.code body s) := by
  cases i with
  | csrRd reg => exact absurd rfl (hrd reg)
  | sysReset => exact absurd rfl hreset
  | _ => exact ⟨_, fun _ => rfl⟩

/-- Settles O47: the E_FAULTED test rejects before the body runs. -/
theorem faultedBlockRejects : Obligations.FaultedBlockRejects := by
  intro i s hf hrd hreset
  obtain ⟨body, hexec⟩ := exec_eq_unlessFatal hrd hreset
  rw [hexec, unlessFatal_faulted _ _ _ hf]

/-- Two commands may change `fatal` (R308). -/
theorem Changes.fatal {P : Params} (h : Changes P s u i) :
    u.fatal = s.fatal ∨ (∃ k n, i = .eceNewmatrix k n) ∨ i = .sysReset := by
  cases i with
  | eceNewmatrix k n => exact .inr (.inl ⟨k, n, rfl⟩)
  | sysReset => exact .inr (.inr rfl)
  | eceEncode | eceBuilddec | eceDecode | csrRd => obtain rfl : u = s := h; exact .inl rfl
  | rtpParse => obtain ⟨_, rfl⟩ := h; exact .inl rfl
  | gfInit | robAccept | robTimer | robRestart | grpAdd | grpExpire | depPacket | csrWr =>
    obtain ⟨_, rfl, -⟩ := h; exact .inl rfl
  | sysTeardown => rcases h with rfl | rfl <;> exact .inl rfl

theorem exec_fatal (h : exec i s = .next t) :
    t.fatal = s.fatal ∨ (∃ k n, i = .eceNewmatrix k n) ∨ i = .sysReset := by
  rw [exec_eq_execWith] at h
  obtain ⟨u, hu, ht, -⟩ := execWith_next h
  rw [ht]
  exact hu.fatal

/-- ECE.NEWMATRIX sets `fatal` with E_KN alone (R145). -/
theorem exec_eceNewmatrix_fatal {k n : BitVec 9} (h : exec (.eceNewmatrix k n) s = .next t)
    (hs : s.fatal = false) (ht : t.fatal = true) :
    s.gf.gfReady = true ∧ t.lastStatus = Status.eKn.code ∧
      ¬(1 ≤ k.toNat ∧ k.toNat ≤ n.toNat ∧ n.toNat ≤ 256) := by
  obtain ⟨-, hnoinit, hinvalid, hvalid⟩ := newMatrixEmitsParityRows paramsDefault k n s
  have hanswer {u : State} (hu : Answers paramsDefault (.eceNewmatrix k n) s u) : t = u :=
    eq_of_exec h (hu.2 rfl)
  cases hr : s.gf.gfReady with
  | false =>
    obtain rfl := hanswer (hnoinit hs hr)
    exact absurd (ht.symm.trans hs) (by simp)
  | true =>
    by_cases hkn : 1 ≤ k.toNat ∧ k.toNat ≤ n.toNat ∧ n.toNat ≤ 256
    · obtain ⟨hk, hle, hn⟩ := hkn
      obtain rfl := hanswer (hvalid hs hr hk hle hn)
      exact absurd (ht.symm.trans hs) (by simp)
    · obtain rfl := hanswer (hinvalid hs hr hkn)
      exact ⟨rfl, rfl, hkn⟩

/-- Settles O48: of the two commands that change `fatal`, SYS.RESET leaves it 0, and ECE.NEWMATRIX in a faulted
block is rejected (O47). -/
theorem onlyBadMatrixIsFatal : Obligations.OnlyBadMatrixIsFatal := by
  refine fun i s t h => ⟨fun hs ht => ?set, fun hs ht => ?cleared⟩
  all_goals rcases exec_fatal h with hsame | ⟨k, n, rfl⟩ | rfl
  case set.inl => simp [hsame, hs] at ht
  case set.inr.inl =>
    obtain ⟨hready, hstatus, hkn⟩ := exec_eceNewmatrix_fatal h hs ht
    exact ⟨hready, hstatus, k, n, rfl, hkn⟩
  case set.inr.inr =>
    obtain rfl := eq_of_exec h (exec_sysReset s)
    simp at ht
  case cleared.inl => simp [hsame, hs] at ht
  case cleared.inr.inl =>
    obtain rfl := eq_of_exec h (faultedBlockRejects _ s hs (by simp) (by simp))
    simp [hs] at ht
  case cleared.inr.inr => rfl

/-! ## Records that close no command -/

/-- No record of the list is a `Done`. -/
def NoDone (recs : List Record) : Prop := ∀ op st, Record.done op st ∉ recs

theorem noDone_nil : NoDone [] := fun _ _ => List.not_mem_nil

/-- Records of a kind that `Done` is not of. -/
theorem noDone_of_forall {p : Record → Prop} (hp : ∀ op st, ¬p (.done op st))
    (h : ∀ r ∈ recs, p r) : NoDone recs :=
  fun op st hmem => hp op st (h _ hmem)

theorem noDone_of_isRobMove (h : ∀ r ∈ recs, isRobMove r = true) : NoDone recs :=
  noDone_of_forall (by simp [isRobMove]) h

theorem noDone_of_isGrpRecord (h : ∀ r ∈ recs, isGrpRecord r = true) : NoDone recs :=
  noDone_of_forall (by simp [isGrpRecord]) h

/-- A record of a kind that the depacketizer emits; unlike `isDepRecord` it says nothing of what the record holds,
so that it needs no invariant. -/
def isDepKind : Record → Bool
  | .nal .. | .discontinuity .. | .drop .dep _ | .accessUnit .. => true
  | _ => false

/-- The depacketizer has emitted records of its kinds alone. -/
def DepKindsOnly (x : DepOut) : Prop := ∀ r ∈ x.2, isDepKind r = true

theorem DepKindsOnly.update {x : DepOut} (h : DepKindsOnly x) (d : Dep) : DepKindsOnly (d, x.2) := h

/-- One more record of these kinds, whatever happened to the unit. -/
theorem DepKindsOnly.emit {x : DepOut} (h : DepKindsOnly x) (d : Dep) {r : Record}
    (hr : isDepKind r = true) : DepKindsOnly (d, x.2 ++ [r]) :=
  List.forall_mem_append.mpr ⟨h, List.forall_mem_singleton.mpr hr⟩

theorem DepKindsOnly.closeAu {x : DepOut} (h : DepKindsOnly x) : DepKindsOnly (closeAu x) :=
  h.emit _ rfl

theorem DepKindsOnly.addNal {x : DepOut} (h : DepKindsOnly x) (ts : W32) (bytes : Bytes) :
    DepKindsOnly (addNal ts bytes x) := by
  have hboundary : DepKindsOnly (boundaryByTs ts x) := by
    unfold boundaryByTs
    split
    · exact h.closeAu
    · exact h
  exact hboundary.emit _ rfl

theorem DepKindsOnly.stapLoop {x : DepOut} (h : DepKindsOnly x) (ts : W32) (fuel : Nat) (B : Bytes) :
    DepKindsOnly (stapLoop ts fuel B x).1 := by
  induction fuel generalizing B x with
  | zero => exact h
  | succ fuel ih =>
    unfold Machine.stapLoop
    split_ifs
    · exact h
    · exact h
    · exact h
    · exact ih h _
    · exact ih (h.addNal _ _) _

theorem DepKindsOnly.fuFinish {x : DepOut} (h : DepKindsOnly x) (fh : Byte) :
    DepKindsOnly (fuFinish fh x) := by
  unfold Machine.fuFinish
  split
  · exact h.addNal _ _
  · exact h

theorem DepKindsOnly.fuA {x : DepOut} (h : DepKindsOnly x) (ts : W32) (payload : Bytes) :
    DepKindsOnly (fuA ts payload x).1 := by
  unfold Machine.fuA
  split_ifs
  · exact h
  · exact (h.update _).fuFinish _
  · exact h
  · exact h
  · exact (h.update _).fuFinish _

theorem DepKindsOnly.dispatchNal {x : DepOut} (h : DepKindsOnly x) (ts : W32) (payload : Bytes) :
    DepKindsOnly (dispatchNal ts payload x).1 := by
  simp only [Machine.dispatchNal]
  split_ifs
  · exact h.addNal _ _
  · exact h.stapLoop _ _ _
  · exact h.fuA _ _
  · exact h

theorem DepKindsOnly.checkSeq {x : DepOut} (h : DepKindsOnly x) (threshold : BitVec 16) (seq : Seq) :
    DepKindsOnly (checkSeq threshold seq x) := by
  simp only [Machine.checkSeq]
  split
  · exact h.emit _ rfl
  · exact h

theorem DepKindsOnly.noteMalformed {y : DepOut × Status} (h : DepKindsOnly y.1) :
    DepKindsOnly (noteMalformed y) := by
  unfold Machine.noteMalformed
  split
  · exact h
  · exact h.emit _ rfl

theorem DepKindsOnly.markerClose {x : DepOut} (h : DepKindsOnly x) (m : Bool) :
    DepKindsOnly (markerClose m x) := by
  unfold Machine.markerClose
  split
  · exact h.closeAu
  · exact h

/-- DEP.PACKET, in every state of the unit (R250). -/
theorem depStep_noDone (threshold : BitVec 16) (seq : Seq) (ts : W32) (m : Bool) (payload : Bytes)
    (d : Dep) : NoDone (depStep threshold seq ts m payload d).1.2 := by
  have hstart : DepKindsOnly (d, []) := by simp [DepKindsOnly]
  exact noDone_of_forall (by simp [isDepKind])
    (((hstart.checkSeq threshold seq).dispatchNal ts payload).noteMalformed.markerClose m)

/-! ## The end of every command -/

/-- From `s` to `t` records are appended to OQ of which the last alone is a `Done`. -/
def ClosesOnce (s t : State) : Prop :=
  ∃ (recs : List Record) (op : Byte) (st : Status), t.oq = s.oq ++ recs ++ [.done op st] ∧ NoDone recs

theorem ClosesOnce.ended (hu : u.oq = s.oq) (h : NoDone recs) (op : Byte) (st : Status) :
    ClosesOnce s (u.ended op recs st) :=
  ⟨recs, op, st, by rw [ended_oq, hu], h⟩

/-- Where nothing but the closing record is emitted. -/
theorem ClosesOnce.finish (hu : u.oq = s.oq) (op : Byte) (st : Status) :
    ClosesOnce s (finish op st u) :=
  finish_eq_ended u op st ▸ .ended hu noDone_nil op st

/-- The E_FAULTED test before a body (R308). -/
theorem ClosesOnce.unlessFatal {body : State → State} (op : Byte) (h : ClosesOnce s (body s)) :
    ClosesOnce s (Machine.unlessFatal op body s) := by
  cases hf : s.fatal with
  | true => rw [unlessFatal_faulted _ _ _ hf]; exact .ended rfl noDone_nil _ _
  | false => rwa [unlessFatal_running _ _ _ hf]

/-- The end of an engine command (R150, R155, R159). -/
theorem ClosesOnce.engineDone {α : Type} (op : Byte) {record : α → Record} (r : Except Status α)
    (h : ∀ a, NoDone [record a]) : ClosesOnce s (engineDone op record r s) := by
  cases r with
  | error st => exact .finish rfl op st
  | ok a => exact .ended rfl (h a) op .ok

/-- Every command that makes the E_FAULTED test appends one `Done`, the last record (R300). -/
theorem exec_closesOnce (hrd : ∀ reg, i ≠ .csrRd reg) (hreset : i ≠ .sysReset)
    (h : exec i s = .next t) : ClosesOnce s t := by
  cases i with
  | csrRd reg => exact absurd rfl (hrd reg)
  | sysReset => exact absurd rfl hreset
  | gfInit | robRestart | sysTeardown =>
    obtain rfl := Host.Outcome.next.inj h
    exact .unlessFatal _ (.finish rfl _ _)
  | csrWr =>
    obtain rfl := Host.Outcome.next.inj h
    refine .unlessFatal _ ?_
    split
    · exact .finish rfl _ _
    · exact .finish rfl _ _
  | eceNewmatrix k n =>
    obtain rfl := Host.Outcome.next.inj h
    refine .unlessFatal _ ?_
    unfold newMatrix
    split_ifs
    · exact .finish rfl _ _
    · exact .finish rfl _ _
    · exact .ended rfl (by simp [NoDone]) _ _
  | eceEncode | eceBuilddec | eceDecode =>
    obtain rfl := Host.Outcome.next.inj h
    exact .unlessFatal _ (.engineDone _ _ fun _ => by simp [NoDone])
  | rtpParse B =>
    obtain rfl := Host.Outcome.next.inj h
    refine .unlessFatal _ ?_
    unfold parseDatagram
    split
    · exact .ended rfl (by simp [NoDone]) _ _
    · exact .ended rfl (by simp [NoDone]) _ _
  | robAccept =>
    rcases exec_robAccept_cases h with ⟨st, rfl⟩ | ⟨-, rfl⟩ | ⟨-, rfl⟩
    · exact .ended rfl noDone_nil _ _
    · exact .ended rfl (by simp [NoDone, robLateDrop]) _ _
    · exact .ended rfl (noDone_of_isRobMove (robInsert_isRobMove _ _ _ _ _)) _ _
  | robTimer =>
    rcases exec_robTimer_cases h with ⟨st, rfl⟩ | ⟨-, rfl⟩
    · exact .ended rfl noDone_nil _ _
    · exact .ended rfl (noDone_of_isRobMove (timerFlush_isRobMove _)) _ _
  | grpAdd gid index k n payload =>
    obtain rfl := Host.Outcome.next.inj h
    refine .unlessFatal _ ?_
    unfold addBlock
    split
    · exact .finish rfl _ _
    · split
      · exact .ended rfl (by simp [NoDone]) _ _
      · next hx => exact .ended rfl (noDone_of_isGrpRecord (groupAdd_isGrpRecord hx)) _ _
  | grpExpire gid =>
    rcases exec_grpExpire_cases h with ⟨st, rfl⟩ | ⟨g, rfl⟩
    · exact .ended rfl noDone_nil _ _
    · exact .ended rfl (noDone_of_isGrpRecord (flushGroup_isGrpRecord _ _ _ _ (by simp))) _ _
  | depPacket =>
    rcases exec_depPacket_cases h with ⟨st, rfl⟩ | ⟨-, y, rfl, rfl⟩
    · exact .ended rfl noDone_nil _ _
    · exact .ended rfl (depStep_noDone _ _ _ _ _ _) _ _

/-- The end of a command that makes the E_FAULTED test: `Ends` has the status, `ClosesOnce` the records. -/
theorem exec_done (hrd : ∀ reg, i ≠ .csrRd reg) (hreset : i ≠ .sysReset) (h : exec i s = .next t) :
    ∃ (recs : List Record) (st : Status), t.oq = s.oq ++ recs ++ [.done i.opcode.code st] ∧
      NoDone recs ∧ st ≠ .sInsufficient ∧ t.lastStatus = st.code := by
  obtain ⟨recs', op, st', hclosed, hnone⟩ := exec_closesOnce hrd hreset h
  rw [exec_eq_execWith] at h
  obtain ⟨f, hf, u, recs, st, -, hst, hrun⟩ := execWith_ends paramsDefault i s hrd hreset
  obtain rfl : f s = t := Host.Outcome.next.inj ((hf s).symm.trans h)
  have hend : f s = State.ended { u with oq := s.oq } i.opcode.code recs st := hrun s.oq
  have hoq : s.oq ++ recs ++ [.done i.opcode.code st] = s.oq ++ recs' ++ [.done op st'] :=
    (congrArg State.oq hend).symm.trans hclosed
  obtain ⟨hrecs, -⟩ := List.append_inj' hoq rfl
  obtain rfl := List.append_cancel_left hrecs
  exact ⟨recs, st, congrArg State.oq hend, hnone, hst, congrArg State.lastStatus hend⟩

/-- The end of CSR.RD, which keeps `last_status` (R286). -/
theorem exec_csrRd_done {reg : BitVec 8} (h : exec (.csrRd reg) s = .next t) :
    ∃ (recs : List Record) (st : Status), t.oq = s.oq ++ recs ++ [.done 0x70 st] ∧
      NoDone recs ∧ st ≠ .sInsufficient ∧ t.lastStatus = s.lastStatus := by
  obtain rfl := Host.Outcome.next.inj h
  cases csrRead reg s with
  | none => exact ⟨[], .eCsr, by simp, noDone_nil, by simp, rfl⟩
  | some value => exact ⟨[.csrValue reg value], .ok, by simp, by simp [NoDone], by simp, rfl⟩

/-- Settles O49: `exec_done`, and the two commands that make no E_FAULTED test. -/
theorem doneClosesEveryCommand : Obligations.DoneClosesEveryCommand := by
  intro i s t h
  by_cases hrd : ∃ reg, i = .csrRd reg
  · obtain ⟨reg, rfl⟩ := hrd
    obtain ⟨recs, st, hoq, hnone, hst, hlast⟩ := exec_csrRd_done h
    exact ⟨recs, st, st.code, hoq, hnone, hst, mem_statusNumbers st, rfl,
      fun hne => absurd rfl (hne reg), fun _ => hlast⟩
  · by_cases hreset : i = .sysReset
    · subst hreset
      obtain rfl := eq_of_exec h (exec_sysReset s)
      exact ⟨[], .ok, Status.ok.code, rfl, noDone_nil, by simp, mem_statusNumbers .ok, rfl,
        fun _ => rfl, fun hex => absurd hex hrd⟩
    · obtain ⟨recs, st, hoq, hnone, hst, hlast⟩ := exec_done (not_exists.mp hrd) hreset h
      exact ⟨recs, st, st.code, by rwa [if_neg hreset], hnone, hst, mem_statusNumbers st, rfl,
        fun _ => hlast, fun hex => absurd hex hrd⟩

end Sys2Proof.Machine
end
